-- ==== Sys2Proof/Word.lean ====
section
/-! DEFINITION. The word types: nothing in the block is wider than a byte (R7, R54). -/

namespace Sys2Proof

/-- An unsigned 8-bit value, bit 0 least significant (R7). -/
abbrev Byte := BitVec 8

/-- Half of a byte: what the four data pins carry at once (R86). -/
abbrev Nybble := BitVec 4

end Sys2Proof
end

