-- ==== Sys2Proof/Config.lean ====
section
/-! DEFINITION. What is fixed per instance (the parameters of R6 and R90) and the free values: what the
environment draws and what the spec leaves unknown. A free value is an opaque constant, so nothing can be proved of it. -/

namespace Sys2Proof

/-- How a nybble lies on the four data pins (R124): `straight` is the spec's decision D7, `reversed` the other
wiring that 93_implementation_defined.md G3 names. -/
inductive NybbleOrder where
  | straight
  | reversed
deriving DecidableEq, Repr, Inhabited

/-- The numbers of the eleven expander registers (R50). -/
structure RegNumbers where
  dir     : Nat
  ipol    : Nat
  gpinten : Nat
  defval  : Nat
  intcon  : Nat
  config  : Nat
  pullup  : Nat
  intf    : Nat
  intcap  : Nat
  gpio    : Nat
  olat    : Nat
deriving DecidableEq, Repr, Inhabited

/-- The parameters of R6 and R90 that the source does not fix by value: "a model should carry it as a configuration
field so a claim can name it". Their defaults are `paramsDefault`. -/
structure Params where
  regs             : RegNumbers
  /-- REG_OUT: written with nybble bytes and read in the poll. -/
  regOut           : Nat
  cfgSeq           : Byte
  cfgNonseq        : Byte
  rsBit            : Byte
  readbackBit      : Byte
  /-- `place4`. -/
  order            : NybbleOrder
  busyDir          : Byte
  ddrInit          : Byte
  pollable         : List Byte
  numLines         : Nat
  /-- POLL_MAX: `none` is the unbounded poll. -/
  pollMax          : Option Nat
  cmdHome          : Byte
  cmdEntry         : Byte
  flagEntryLeft    : Byte
  flagEntryShift   : Byte
  cmdDisplay       : Byte
  flagDisplayOn    : Byte
  flagCursorOn     : Byte
  flagBlinkOn      : Byte
  cmdShift         : Byte
  flagDisplayMove  : Byte
  flagMoveRight    : Byte
  cmdFunction      : Byte
  flag8Bit         : Byte
  flag2Line        : Byte
  flag5x10         : Byte
  cmdSetCgram      : Byte
  cmdSetDdram      : Byte
  shiftInit        : Byte
  modeInit         : Byte
  ctrlInit         : Byte
  newline          : Byte
deriving DecidableEq, Repr, Inhabited

/-- What the environment draws for one bus transaction (R70). -/
inductive Draw where
  /-- It completes; a read returns this byte, a write ignores it. -/
  | ok (b : Byte)
  /-- It fails. `none`: nothing reached the expander; `some k`: the register number and `k` payload bytes did (R60). -/
  | nack (delivered : Option Nat)
deriving DecidableEq, Repr, Inhabited

/-- The `k`-th draw of the environment when no draw is given as an input: any draw at all (R70). -/
opaque Config.freeDraw : Nat → Draw

/-- What expander register `r` holds while no known byte was stored in it (R231): any value. -/
opaque Config.powerOnReg : Nat → Byte

/-- Where the expander puts a byte of a sequential block write that runs past its last register (R243 names such a
case and no effect): some register, or none. -/
opaque Config.overrunReg : Nat → Option (Fin 11)

/-- The register-select level of a byte whose two nybbles were latched with different levels, at the `k`-th sample: the spec is
silent on which counts (log 37). -/
opaque Config.mixedSelect : Nat → Bool

/-- What the controller takes of two strobes of which one was a write and one a read, at the `k`-th sample: nothing, or any
byte as data or command (93_implementation_defined.md U19, log 19). -/
opaque Config.mixedPair : Nat → Option (Bool × Byte)

/-- The level on pin `i` at the `k`-th sample while the expander does not drive it (R248: "whatever the pin floats to"),
and the level of a controller data line that is not wired (R233). -/
opaque Config.floatLevel : Nat → Nat → Bool

end Sys2Proof
end

