-- ==== Sys2Proof/Machine/Defaults.lean ====
section
/-! DEFINITION. The values of R6 and R90: what the source fixes as constants, the rest as the defaults of `Params`. -/

namespace Sys2Proof.Machine

/-! ## Fixed by the source -/

/-- ADDR's default (source §6). -/
def addrDefault : Byte := 0x20

/-- BLOCK_MAX. -/
def blockMax : Nat := 32

/-- NREGS. -/
def nregs : Nat := 11

/-- STROBE, bit 5 of the output byte. -/
def strobe : Byte := 0x20

/-- DATA_MASK, bits 4:1 of the output byte. -/
def dataMask : Byte := 0x1E

/-- SHARED, bit 0 of the output byte. -/
def shared : Byte := 0x01

/-- BUSY_READ_BIT: the busy flag is bit 1 of the read byte. -/
def busyReadBit : Byte := 0x02

/-- ROW_OFFSETS (R31). -/
def rowOffsets : List Nat := [0x00, 0x40, 0x14, 0x54]

def cmdInit1 : Byte := 0x33
def cmdInit2 : Byte := 0x32
def cmdClear : Byte := 0x01
def cmdLine2 : Byte := 0xC0

/-! ## Defaults of the open and decided parameters -/

/-- 0 to 10 in the order of §6 (decision D2). -/
def regNumbersDefault : RegNumbers where
  dir := 0
  ipol := 1
  gpinten := 2
  defval := 3
  intcon := 4
  config := 5
  pullup := 6
  intf := 7
  intcap := 8
  gpio := 9
  olat := 10

/-- The values of R6 and R90. -/
def paramsDefault : Params where
  regs := regNumbersDefault
  regOut := 9
  cfgSeq := 0x00
  cfgNonseq := 0x20
  rsBit := 0x80
  readbackBit := 0x40
  order := .straight
  busyDir := 0x02
  ddrInit := 0x02
  pollable := [0x01, 0x02]
  numLines := 2
  pollMax := none
  cmdHome := 0x02
  cmdEntry := 0x04
  flagEntryLeft := 0x02
  flagEntryShift := 0x01
  cmdDisplay := 0x08
  flagDisplayOn := 0x04
  flagCursorOn := 0x02
  flagBlinkOn := 0x01
  cmdShift := 0x10
  flagDisplayMove := 0x08
  flagMoveRight := 0x04
  cmdFunction := 0x20
  flag8Bit := 0x10
  flag2Line := 0x08
  flag5x10 := 0x04
  cmdSetCgram := 0x40
  cmdSetDdram := 0x80
  shiftInit := 0x04
  modeInit := 0x02
  ctrlInit := 0x04
  newline := 0x0A

/-- SAFE_REGS (R167): the direction value, everything else zero. -/
def safeRegs (p : Params) : List Byte := p.ddrInit :: List.replicate 10 0x00

/-- CMD_FUNCTION_INIT (R90): 4-bit interface, two lines, 5x8 font. -/
def cmdFunctionInit (p : Params) : Byte := p.cmdFunction ||| p.flag2Line

/-! ## Values the model names where the spec gives none -/

/-- What a shadow register holds while it has no readable value (R37, R38); the spec forbids to assume zero (log 6). -/
def unsetShadow : Byte := 0xFF

end Sys2Proof.Machine
end

