-- ==== Sys2Proof/Syntax.lean ====
section
/-! DEFINITION. The instructions: one constructor per row of spec/opcode_table.json. -/

namespace Sys2Proof

/-- What the host, the sequencer, the encoder and the display controller execute. The operands are values (R92, R95, R81,
R91); an operand out of its range can be written and is refused by the meaning (R205). -/
inductive Instr where
  -- HOSTOP (R92)
  /-- INIT: the operand byte `addr` (7 bits wanted) and the opaque bus identifier (R160). -/
  | init (addr : Byte) (busid : Nat)
  | teardown
  | writeCmd (c : Byte)
  | writeData (bs : List Byte)
  | clear
  | home
  | displayOn
  | displayOff
  | cursorOn
  | cursorOff
  | blinkOn
  | blinkOff
  | toggleCursor
  | toggleBlink
  | scrollLeft
  | scrollRight
  | leftToRight
  | rightToLeft
  | autoscrollOn
  | autoscrollOff
  /-- SET_CURSOR: an unsigned column and a signed row of any size (R186). -/
  | setCursor (col : Nat) (row : Int)
  | defineGlyph (slot : Byte) (bm : List Byte)
  | writeText (text : List Byte)
  -- BUSTXN (R95)
  | busWrite1 (r : Nat) (v : Byte)
  | busWriteBlk (r : Nat) (bs : List Byte)
  | busRead1
  -- QUAD (R81)
  | encodeNybbles (mask v : Byte)
  -- CMD8 (R91); `x` are the bits the controller ignores
  | ctlSetDdram (a : BitVec 7)
  | ctlSetCgram (a : BitVec 6)
  | ctlFunctionSet (d n f : Bool) (x : BitVec 2)
  | ctlShift (s r : Bool) (x : BitVec 2)
  | ctlDisplayControl (d c b : Bool)
  | ctlEntryMode (i s : Bool)
  | ctlHome (x : Bool)
  | ctlClear
deriving DecidableEq, Repr

/-- A command of the display controller as it decodes it from a command byte (R91): the same eight forms as the CMD8 rows. -/
inductive LcdCmd where
  | setDdram (a : BitVec 7)
  | setCgram (a : BitVec 6)
  | functionSet (d n f : Bool) (x : BitVec 2)
  | shift (s r : Bool) (x : BitVec 2)
  | displayControl (d c b : Bool)
  | entryMode (i s : Bool)
  | home (x : Bool)
  | clear
deriving DecidableEq, Repr

/-- Where a request or word stands: the four kinds of encoded thing (30_encoding.md) arrive at four places, and their numbers
overlap. The host reaches `host` only (R214). -/
inductive Port where
  | host
  | bus
  | quad
  | ctl
deriving DecidableEq, Repr, Inhabited

/-- One request: the place it stands at and its bytes, first byte first. -/
structure Packet where
  port  : Port
  bytes : List Byte
deriving DecidableEq, Repr, Inhabited

end Sys2Proof
end

