-- ==== Sys2Proof/Machine/State.lean ====
section
/-! DEFINITION. The state of the block (10_state.md R20 to R41), of its environment as the spec describes it (20_memory.md
R50 to R62), the inputs and observations of the model, and the state at reset. Plain data throughout. -/

namespace Sys2Proof.Machine

/-! ## The block -/

/-- The lifecycle phase (R26). -/
inductive Phase where
  | uninit
  | ready
  | released
deriving DecidableEq, Repr

/-- The device handle: bus address and bus identifier of the open connection (R25). -/
structure Handle where
  addr  : BitVec 7
  busid : Nat
deriving DecidableEq, Repr

/-- A bus transaction as it is issued (R95). -/
inductive Txn where
  /-- Single-byte register write. -/
  | w1 (r : Nat) (v : Byte)
  /-- Block write. -/
  | wb (r : Nat) (bs : List Byte)
  /-- Single-byte read. -/
  | r1
deriving DecidableEq, Repr

/-- How a transaction ended (R110): the mark `failed`, or completion, for a read with the byte returned. -/
inductive Ending where
  | done
  | byte (b : Byte)
  | failed
deriving DecidableEq, Repr

/-- One event of the history (R110), with the handle it was addressed by (R71). -/
structure Event where
  dest  : Option Handle
  txn   : Txn
  ended : Ending
deriving DecidableEq, Repr

/-- Why an operation was refused (R205). -/
inductive RefuseReason where
  /-- The phase does not admit the operation (R26). -/
  | phase
  /-- The bytes name no operation, or are not one request (R96). -/
  | notAnOperation
  /-- `addr > 0x7F`. -/
  | addrRange
  /-- `slot > 7`, or a bitmap that is not 8 bytes. -/
  | glyphRange
  /-- `col + ROW_OFFSETS[r] > 0x7F`. -/
  | columnRange
  /-- A micro-operation on a register above 10 (93 U13). -/
  | registerRange
  /-- A block write of no bytes (R112 (b), 93 U13). -/
  | emptyBlock
  /-- A micro-operation while no bus connection is open (log 23). -/
  | noHandle
deriving DecidableEq, Repr

/-- What an operation reports to the host (R200). -/
inductive OpOutcome where
  | ok
  | commError (t : Txn)
  | deviceUnresponsive (n : Nat)
  | refused (why : RefuseReason)
deriving DecidableEq, Repr

/-- One call of the write primitive (R130). -/
structure Job where
  vals   : List Byte
  isData : Bool
deriving DecidableEq, Repr

/-- What the end of an operation does besides reporting (R160, R165). -/
inductive OpKind where
  | plain
  | bringUp
  | release
deriving DecidableEq, Repr

/-- The sequencer inside a busy poll (R29, R133): `n` iterations made, the patterns, the operation, the write that polls and
the writes after it. -/
structure Poll where
  n    : Nat
  lo   : Byte
  hi   : Byte
  op   : OpKind
  job  : Job
  rest : List Job
deriving DecidableEq, Repr

/-- The sequencer's position (R30). -/
inductive Seq where
  | idle
  | polling (p : Poll)
deriving DecidableEq, Repr

/-! ## The environment -/

/-- The expander's registers: cells in rising order of their number, none twice; a register that is not listed has no known
value (log 12). -/
abbrev Memory := List Host.Cell

/-- Which half of a byte the controller expects next (R35 (d), R247). -/
inductive Half where
  | even
  /-- A high nybble is latched, with its register-select level. -/
  | wroteHigh (rs : Bool) (h : Nybble)
  /-- One pulse of a read has passed. -/
  | readHigh
deriving DecidableEq, Repr

/-- The last set-address command (R91). -/
inductive LcdAddr where
  | ddram (a : BitVec 7)
  | cgram (a : BitVec 6)
deriving DecidableEq, Repr

/-- How long the controller takes over what it was last given (R62). -/
inductive ExecTime where
  | unknown
  /-- "a fixed known duration". -/
  | fixed
  /-- "long and variable". -/
  | variable
deriving DecidableEq, Repr

/-- The display controller as the block sees it (R62, R91, R233): its interface and the operands of the last command of each
kind. -/
structure Lcd where
  /-- FLAG_8BIT: every strobe is a whole access. -/
  eight       : Bool
  half        : Half
  twoLine     : Bool
  font10      : Bool
  moveDisplay : Bool
  moveRight   : Bool
  displayOn   : Bool
  cursorOn    : Bool
  blinkOn     : Bool
  entryLeft   : Bool
  entryShift  : Bool
  addr        : LcdAddr
  exec        : ExecTime
  /-- The model's own: the bytes taken, in order, each with its register-select level. -/
  received    : List (Bool × Byte)
  /-- The model's own: how many free levels were sampled. -/
  samples     : Nat
deriving DecidableEq, Repr

/-- The expander (R55 to R58) and the controller behind its pins. The output latch, which drives the pins, is the output-latch
register of `mem` (`Env.latch`). -/
structure Env where
  mem   : Memory
  /-- The address pointer. -/
  ptr   : Nat
  lcd   : Lcd
deriving DecidableEq, Repr

/-! ## The whole -/

/-- A request waits in `inbox`; a draw of the environment in `draws`; `history` and `outcomes` are what the environment and
the host see of the block (R110, R200). -/
structure State where
  cfg            : Params
  phase          : Phase
  handle         : Option Handle
  gpio           : Byte
  ddrb           : Byte
  displayshift   : Byte
  displaymode    : Byte
  displaycontrol : Byte
  seq            : Seq
  env            : Env
  inbox          : List Packet
  draws          : List Draw
  drawn          : Nat
  history        : List Event
  outcomes       : List OpOutcome
  result         : List Byte
deriving DecidableEq, Repr

/-- No operation of this machine stops it: every error is an outcome after which the block is idle (R200, R210). So there is
no fault (safe: nothing is cut off). -/
inductive Fault where
deriving DecidableEq, Repr

/-- Raised by `exec` only. -/
inductive Refusal where
  /-- The instruction has no meaning yet (safe: the run stops). No arm raises it. -/
  | notModelled (mnemonic : String)
deriving DecidableEq, Repr

/-- The controller at power-on (R231: nothing is known): the family's values, PRESUMED (log 18). -/
def lcdReset : Lcd where
  eight := true
  half := .even
  twoLine := false
  font10 := false
  moveDisplay := false
  moveRight := false
  displayOn := false
  cursorOn := false
  blinkOn := false
  entryLeft := true
  entryShift := false
  addr := .ddram 0
  exec := .unknown
  received := []
  samples := 0

/-- The expander at power-on (R231): no register value is known, the output latch among them; the pointer is PRESUMED
(log 13). -/
def envReset : Env where
  mem := []
  ptr := 0
  lcd := lcdReset

/-- R37, R230: a fresh instance; the shadows have no readable value (log 6). -/
def State.reset : State where
  cfg := paramsDefault
  phase := .uninit
  handle := none
  gpio := unsetShadow
  ddrb := unsetShadow
  displayshift := unsetShadow
  displaymode := unsetShadow
  displaycontrol := unsetShadow
  seq := .idle
  env := envReset
  inbox := []
  draws := []
  drawn := 0
  history := []
  outcomes := []
  result := []

end Sys2Proof.Machine
end

