-- ==== Sys2Proof/Machine/Memory.lean ====
section
/-! DEFINITION. The expander's register space (R50) as a canonical list of cells. -/

namespace Sys2Proof.Machine

/-- The known content of register `a`, if any. -/
def memRead (a : Nat) : Memory → Option Byte
  | [] => none
  | c :: m => if c.1 = a then some c.2 else memRead a m

/-- Store `v` in register `a`, keeping the order. -/
def memWrite (a : Nat) (v : Byte) : Memory → Memory
  | [] => [(a, v)]
  | c :: m =>
    if a < c.1 then (a, v) :: c :: m
    else if a = c.1 then (a, v) :: m
    else c :: memWrite a v m

/-- The canonical form: register numbers strictly rising. (An unlisted register has no known value, so no cell can equal it.) -/
abbrev Memory.wf (m : Memory) : Prop := m.Pairwise (fun c d => c.1 < d.1)

/-- Only the eleven registers are listed (R50). -/
abbrev memInRange (m : Memory) : Prop := ∀ c ∈ m, c.1 < nregs

/-- What register `a` holds: its known content, else whatever it powered on with (R231). -/
def regValue (m : Memory) (a : Nat) : Byte :=
  match memRead a m with
  | some v => v
  | none => Config.powerOnReg a

/-- The output latch, which drives the pins that are outputs (R55): the output-latch register. -/
def Env.latch (cfg : Params) (e : Env) : Byte := regValue e.mem cfg.regs.olat

/-- The register file after a store of `v` in register `r`. A store to GPIO sets the output latch, so the output-latch register
holds `v` too (R55, 90_conflicts.md C6). -/
def storeFile (cfg : Params) (r : Nat) (v : Byte) (m : Memory) : Memory :=
  if r = cfg.regs.gpio then memWrite cfg.regs.olat v (memWrite r v m) else memWrite r v m

end Sys2Proof.Machine
end

