-- ==== Sys2Proof/Machine/Operands.lean ====
section
/-! DEFINITION. Operand assembly (30_encoding.md R81, R85 to R88): masks, nybbles, quads, poll patterns, command bytes. -/

namespace Sys2Proof.Machine

/-- `place4` (R86, R124): the nybble on bits 4:1. The reversed order is 93_implementation_defined.md G3. -/
def place4 : NybbleOrder → Nybble → Byte
  | .straight, n => n.setWidth 8 <<< 1
  | .reversed, n => n.reverse.setWidth 8 <<< 1

/-- The nybble that lies on pins 4 (`p4`) to 1 (`p1`). -/
def nybbleOfPins : NybbleOrder → Bool → Bool → Bool → Bool → Nybble
  | .straight, p4, p3, p2, p1 => BitVec.ofBool p4 ++ BitVec.ofBool p3 ++ BitVec.ofBool p2 ++ BitVec.ofBool p1
  | .reversed, p4, p3, p2, p1 => BitVec.ofBool p1 ++ BitVec.ofBool p2 ++ BitVec.ofBool p3 ++ BitVec.ofBool p4

/-- `v[7:4]`. -/
def highNybble (v : Byte) : Nybble := (v >>> 4).setWidth 4

/-- `v[3:0]`. -/
def lowNybble (v : Byte) : Nybble := (v &&& 0x0F).setWidth 4

/-- `enc(mask, v)` (R120): high nybble strobed, then low nybble strobed. -/
def enc (cfg : Params) (mask v : Byte) : List Byte :=
  let h := place4 cfg.order (highNybble v)
  let l := place4 cfg.order (lowNybble v)
  [mask ||| h ||| strobe, mask ||| h, mask ||| l ||| strobe, mask ||| l]

/-- The control bitmask (R85, R135). -/
def controlMask (cfg : Params) (gpio : Byte) (isData : Bool) : Byte :=
  (gpio &&& shared) ||| (if isData then cfg.rsBit else 0x00)

/-- The idle pattern of the poll (R87, R132). -/
def pollLo (cfg : Params) (gpio : Byte) : Byte := (gpio &&& shared) ||| cfg.readbackBit

/-- The idle pattern with the strobe raised (R87, R132). -/
def pollHi (cfg : Params) (gpio : Byte) : Byte := pollLo cfg gpio ||| strobe

/-- The last byte of a list, `dflt` if there is none. -/
def lastByte (dflt : Byte) : List Byte → Byte
  | [] => dflt
  | b :: bs => lastByte b bs

/-- `clamp(row, 0, NUMLINES - 1)` (R11, R186, R187). -/
def clampRow (cfg : Params) (row : Int) : Nat :=
  if row < 0 then 0
  else if row > (cfg.numLines : Int) - 1 then cfg.numLines - 1
  else row.toNat

/-- `col + ROW_OFFSETS[r]`, a sum of unbounded naturals (R13 (e), R186). -/
def ddramAddress (cfg : Params) (col : Nat) (row : Int) : Nat :=
  col + rowOffsets.getD (clampRow cfg row) 0

/-- `CMD_SETDDRAM | a` (R88). -/
def setDdramByte (cfg : Params) (a : Nat) : Byte := cfg.cmdSetDdram ||| BitVec.ofNat 8 a

/-- `CMD_SETCGRAM | (slot << 3)` (R88, R188). -/
def setCgramByte (cfg : Params) (slot : Byte) : Byte := cfg.cmdSetCgram ||| (slot <<< 3)

/-- The lines of a text: split at every newline code, the newlines dropped (R190). -/
def splitLines (newline : Byte) : List Byte → List (List Byte)
  | [] => [[]]
  | b :: bs =>
    if b = newline then [] :: splitLines newline bs
    else match splitLines newline bs with
      | [] => [[b]]
      | l :: ls => (b :: l) :: ls

/-- Chunks of at most 32 bytes, in order (R112); `fuel` is at least the number of bytes. -/
def chunksFuel : Nat → List Byte → List (List Byte)
  | 0, _ => []
  | fuel + 1, bs =>
    if bs.length = 0 then [] else bs.take blockMax :: chunksFuel fuel (bs.drop blockMax)

/-- The chunks of a payload (R112). -/
def blockChunks (bs : List Byte) : List (List Byte) := chunksFuel bs.length bs

/-- A command write of one byte. -/
def cmdJob (c : Byte) : Job := ⟨[c], false⟩

/-- A data write. -/
def dataJob (bs : List Byte) : Job := ⟨bs, true⟩

end Sys2Proof.Machine
end

