-- ==== Sys2Proof/WellFormed.lean ====
section
/-! DEFINITION. Well-formed instructions (operands in the ranges of R96, R111, R112, R81) and well-formed
configurations (the ranges of R6). -/

namespace Sys2Proof

/-- The operands are in the ranges the spec states. The sum of SET_CURSOR depends on the configuration and is checked by its
meaning (R186). The control bitmask of a QUAD word has only bits 7 and 0 (R81). -/
def Instr.wellFormed : Instr → Bool
  | .init addr _ => decide (addr.toNat ≤ 0x7F)
  | .teardown => true
  | .writeCmd _ => true
  | .writeData _ => true
  | .clear => true
  | .home => true
  | .displayOn => true
  | .displayOff => true
  | .cursorOn => true
  | .cursorOff => true
  | .blinkOn => true
  | .blinkOff => true
  | .toggleCursor => true
  | .toggleBlink => true
  | .scrollLeft => true
  | .scrollRight => true
  | .leftToRight => true
  | .rightToLeft => true
  | .autoscrollOn => true
  | .autoscrollOff => true
  | .setCursor _ _ => true
  | .defineGlyph slot bm => decide (slot.toNat ≤ 7) && decide (bm.length = 8)
  | .writeText _ => true
  | .busWrite1 r _ => decide (r ≤ 10)
  | .busWriteBlk r bs => decide (r ≤ 10) && decide (bs ≠ [])
  | .busRead1 => true
  | .encodeNybbles mask _ => decide (mask &&& 0x7E = 0)
  | .ctlSetDdram _ => true
  | .ctlSetCgram _ => true
  | .ctlFunctionSet _ _ _ _ => true
  | .ctlShift _ _ _ => true
  | .ctlDisplayControl _ _ _ => true
  | .ctlEntryMode _ _ => true
  | .ctlHome _ => true
  | .ctlClear => true

/-- The open parameters are in their ranges: NUMLINES in 1..4 and POLL_MAX `none` or at least 1 (R6). -/
def Params.wellFormed (p : Params) : Bool :=
  decide (1 ≤ p.numLines) && decide (p.numLines ≤ 4) && decide (p.pollMax ≠ some 0)

end Sys2Proof
end

