-- ==== Sys2Proof/Decode.lean ====
section
/-! DEFINITION. The decoder, total on any bytes and rejecting by name, and after it the encoder. Operation codes, kind tags and
bit patterns are the spec's (R92, R95, R81, R91); the widths of operand fields, which the spec leaves open, are log 1. -/

namespace Sys2Proof

/-- Why bytes name no instruction. On the host's port each is a refused request (R96, R205 (b)). -/
inductive DecodeError where
  /-- A request of no bytes. -/
  | empty
  /-- An operation code that is not in the table of R92. -/
  | noOperation (code : Byte)
  /-- A kind tag that is not 0, 1 or 2 (R95). -/
  | noTransaction (tag : Byte)
  /-- Bytes that are no quad of one value under one mask (R81). -/
  | notAQuad
  /-- `00000000`: "no defined command" (R91). -/
  | noCommand
  /-- Operand bytes are missing. -/
  | truncated
  /-- Bytes are left after the last operand. -/
  | trailing
deriving DecidableEq, Repr

/-! ## Numbers and byte strings as operands (log 1) -/

/-- An unsigned number: seven bits a byte, lowest first, bit 7 set while more follow. -/
def decNat : List Byte → Except DecodeError (Nat × List Byte)
  | [] => .error .truncated
  | b :: bs =>
    if b.toNat < 128 then .ok (b.toNat, bs)
    else match decNat bs with
      | .ok (n, rest) => .ok (b.toNat - 128 + 128 * n, rest)
      | .error e => .error e

/-- A signed number in the same layout; bit 6 of the last byte is the sign. -/
def decInt : List Byte → Except DecodeError (Int × List Byte)
  | [] => .error .truncated
  | b :: bs =>
    if b.toNat < 64 then .ok ((b.toNat : Int), bs)
    else if b.toNat < 128 then .ok ((b.toNat : Int) - 128, bs)
    else match decInt bs with
      | .ok (n, rest) => .ok ((b.toNat : Int) - 128 + 128 * n, rest)
      | .error e => .error e

/-- `n` bytes. -/
def decBytes (n : Nat) (bs : List Byte) : Except DecodeError (List Byte × List Byte) :=
  if n ≤ bs.length then .ok (bs.take n, bs.drop n) else .error .truncated

/-- A length and that many bytes (R94). -/
def decCounted (bs : List Byte) : Except DecodeError (List Byte × List Byte) :=
  match decNat bs with
  | .ok (n, rest) => decBytes n rest
  | .error e => .error e

/-! ## The four formats -/

/-- INIT's operands (R92): one address byte and the bus identifier. -/
def decInit : List Byte → Except DecodeError (Instr × List Byte)
  | [] => .error .truncated
  | addr :: bs => match decNat bs with
    | .ok (busid, rest) => .ok (.init addr busid, rest)
    | .error e => .error e

def decWriteCmd : List Byte → Except DecodeError (Instr × List Byte)
  | [] => .error .truncated
  | c :: rest => .ok (.writeCmd c, rest)

def decWriteData (bs : List Byte) : Except DecodeError (Instr × List Byte) :=
  match decCounted bs with
  | .ok (payload, rest) => .ok (.writeData payload, rest)
  | .error e => .error e

def decWriteText (bs : List Byte) : Except DecodeError (Instr × List Byte) :=
  match decCounted bs with
  | .ok (payload, rest) => .ok (.writeText payload, rest)
  | .error e => .error e

def decSetCursor (bs : List Byte) : Except DecodeError (Instr × List Byte) :=
  match decNat bs with
  | .ok (col, more) => match decInt more with
    | .ok (row, rest) => .ok (.setCursor col row, rest)
    | .error e => .error e
  | .error e => .error e

/-- DEFINE_GLYPH "always carries 8 bitmap bytes" (R94). -/
def decDefineGlyph : List Byte → Except DecodeError (Instr × List Byte)
  | [] => .error .truncated
  | slot :: bs => match decBytes 8 bs with
    | .ok (bm, rest) => .ok (.defineGlyph slot bm, rest)
    | .error e => .error e

/-- A host request: the operation code of R92, then the operands in the order listed. -/
def decodeHost : List Byte → Except DecodeError (Instr × List Byte)
  | [] => .error .empty
  | code :: ops =>
    match code.toNat with
    | 0x00 => decInit ops
    | 0x01 => .ok (.teardown, ops)
    | 0x02 => decWriteCmd ops
    | 0x03 => decWriteData ops
    | 0x10 => .ok (.clear, ops)
    | 0x11 => .ok (.home, ops)
    | 0x12 => .ok (.displayOn, ops)
    | 0x13 => .ok (.displayOff, ops)
    | 0x14 => .ok (.cursorOn, ops)
    | 0x15 => .ok (.cursorOff, ops)
    | 0x16 => .ok (.blinkOn, ops)
    | 0x17 => .ok (.blinkOff, ops)
    | 0x18 => .ok (.toggleCursor, ops)
    | 0x19 => .ok (.toggleBlink, ops)
    | 0x1A => .ok (.scrollLeft, ops)
    | 0x1B => .ok (.scrollRight, ops)
    | 0x1C => .ok (.leftToRight, ops)
    | 0x1D => .ok (.rightToLeft, ops)
    | 0x1E => .ok (.autoscrollOn, ops)
    | 0x1F => .ok (.autoscrollOff, ops)
    | 0x20 => decSetCursor ops
    | 0x21 => decDefineGlyph ops
    | 0x22 => decWriteText ops
    | _ => .error (.noOperation code)

/-- A transaction record: the kind tag of R95 (W1 = 0, WB = 1, R1 = 2), then its operands. -/
def decodeBus : List Byte → Except DecodeError (Instr × List Byte)
  | [] => .error .empty
  | tag :: ops =>
    match tag.toNat with
    | 0 => match ops with
      | r :: v :: rest => .ok (.busWrite1 r.toNat v, rest)
      | _ => .error .truncated
    | 1 => match ops with
      | r :: bs => match decCounted bs with
        | .ok (payload, rest) => .ok (.busWriteBlk r.toNat payload, rest)
        | .error e => .error e
      | _ => .error .truncated
    | 2 => .ok (.busRead1, ops)
    | _ => .error (.noTransaction tag)

/-- The four bytes of a QUAD word (R81). R81 places the nybbles by `place4`, a parameter (R124), so the order is an argument;
in the straight order this is the table's `r01HHHHs r00HHHHs r01LLLLs r00LLLLs` (log 33). -/
def quadWord (o : NybbleOrder) (mask v : Byte) : List Byte :=
  let h := Machine.place4 o (Machine.highNybble v)
  let l := Machine.place4 o (Machine.lowNybble v)
  [mask ||| h ||| 0x20#8, mask ||| h, mask ||| l ||| 0x20#8, mask ||| l]

/-- The nybble on bits 4:1 of an output byte. -/
def nybbleOfByte (o : NybbleOrder) (q : Byte) : Nybble :=
  Machine.nybbleOfPins o (q.getLsbD 4) (q.getLsbD 3) (q.getLsbD 2) (q.getLsbD 1)

/-- The mask (`r`, `s`) and the value (`H`, `L`) of a QUAD word whose four bytes agree on them. -/
def decodeQuad (o : NybbleOrder) : List Byte → Except DecodeError (Instr × List Byte)
  | q0 :: q1 :: q2 :: q3 :: rest =>
    let mask : Byte := q1 &&& 0x81
    let v : Byte := (nybbleOfByte o q1 ++ nybbleOfByte o q3 : BitVec 8)
    if [q0, q1, q2, q3] = quadWord o mask v then .ok (.encodeNybbles mask v, rest) else .error .notAQuad
  | [] => .error .empty
  | _ => .error .truncated

/-- The controller decodes a command byte by its highest set bit (R91). -/
def decodeCmdBits (b7 b6 b5 b4 b3 b2 b1 b0 : Bool) : Option LcdCmd :=
  let o := BitVec.ofBool
  match b7 with
  | true => some (.setDdram (o b6 ++ o b5 ++ o b4 ++ o b3 ++ o b2 ++ o b1 ++ o b0))
  | false => match b6 with
    | true => some (.setCgram (o b5 ++ o b4 ++ o b3 ++ o b2 ++ o b1 ++ o b0))
    | false => match b5 with
      | true => some (.functionSet b4 b3 b2 (o b1 ++ o b0))
      | false => match b4 with
        | true => some (.shift b3 b2 (o b1 ++ o b0))
        | false => match b3 with
          | true => some (.displayControl b2 b1 b0)
          | false => match b2 with
            | true => some (.entryMode b1 b0)
            | false => match b1 with
              | true => some (.home b0)
              | false => match b0 with
                | true => some .clear
                | false => none

/-- The command byte `c` as the controller decodes it (R91). -/
def decodeCmd8 (c : Byte) : Option LcdCmd :=
  decodeCmdBits (c.getLsbD 7) (c.getLsbD 6) (c.getLsbD 5) (c.getLsbD 4)
    (c.getLsbD 3) (c.getLsbD 2) (c.getLsbD 1) (c.getLsbD 0)

/-- The instruction of a CMD8 row. -/
def ctlInstr : LcdCmd → Instr
  | .setDdram a => .ctlSetDdram a
  | .setCgram a => .ctlSetCgram a
  | .functionSet d n f x => .ctlFunctionSet d n f x
  | .shift s r x => .ctlShift s r x
  | .displayControl d c b => .ctlDisplayControl d c b
  | .entryMode i s => .ctlEntryMode i s
  | .home x => .ctlHome x
  | .clear => .ctlClear

def decodeCtl : List Byte → Except DecodeError (Instr × List Byte)
  | [] => .error .empty
  | c :: rest => match decodeCmd8 c with
    | some cmd => .ok (ctlInstr cmd, rest)
    | none => .error .noCommand

/-- The decoder of a port, for a block whose data lines are wired in the order `o` (R124). -/
def decodeAt (o : NybbleOrder) : Port → List Byte → Except DecodeError (Instr × List Byte)
  | .host => decodeHost
  | .bus => decodeBus
  | .quad => decodeQuad o
  | .ctl => decodeCtl

/-- The instruction of a packet: its bytes are one instruction and nothing more. -/
def decode (o : NybbleOrder) (p : Packet) : Except DecodeError Instr :=
  match decodeAt o p.port p.bytes with
  | .ok (i, []) => .ok i
  | .ok (_, _ :: _) => .error .trailing
  | .error e => .error e

/-! ## The encoder -/

/-- `n` as seven bits a byte; `fuel` bounds the number of bytes. -/
def encNatFuel : Nat → Nat → List Byte
  | 0, n => [BitVec.ofNat 8 (n % 128)]
  | fuel + 1, n =>
    if n < 128 then [BitVec.ofNat 8 n]
    else BitVec.ofNat 8 (n % 128 + 128) :: encNatFuel fuel (n / 128)

def encNat (n : Nat) : List Byte := encNatFuel n n

/-- `i` as seven bits a byte, the last one signed; `fuel` bounds the number of bytes. -/
def encIntFuel : Nat → Int → List Byte
  | 0, i => [BitVec.ofNat 8 (i % 128).toNat]
  | fuel + 1, i =>
    if 0 ≤ i ∧ i < 64 then [BitVec.ofNat 8 i.toNat]
    else if -64 ≤ i ∧ i < 0 then [BitVec.ofNat 8 (i + 128).toNat]
    else BitVec.ofNat 8 ((i % 128).toNat + 128) :: encIntFuel fuel (i / 128)

def encInt (i : Int) : List Byte := encIntFuel i.natAbs i

def encCounted (bs : List Byte) : List Byte := encNat bs.length ++ bs

/-- A command byte from its form (R91). -/
def encodeCmd8 : LcdCmd → Byte
  | .setDdram a => (1#1 ++ a : BitVec 8)
  | .setCgram a => (0b01#2 ++ a : BitVec 8)
  | .functionSet d n f x => (0b001#3 ++ BitVec.ofBool d ++ BitVec.ofBool n ++ BitVec.ofBool f ++ x : BitVec 8)
  | .shift s r x => (0b0001#4 ++ BitVec.ofBool s ++ BitVec.ofBool r ++ x : BitVec 8)
  | .displayControl d c b => (0b00001#5 ++ BitVec.ofBool d ++ BitVec.ofBool c ++ BitVec.ofBool b : BitVec 8)
  | .entryMode i s => (0b000001#6 ++ BitVec.ofBool i ++ BitVec.ofBool s : BitVec 8)
  | .home x => (0b0000001#7 ++ BitVec.ofBool x : BitVec 8)
  | .clear => 0x01

/-- The packet of an instruction. -/
def encode (o : NybbleOrder) : Instr → Packet
  | .init addr busid => ⟨.host, 0x00 :: addr :: encNat busid⟩
  | .teardown => ⟨.host, [0x01]⟩
  | .writeCmd c => ⟨.host, [0x02, c]⟩
  | .writeData bs => ⟨.host, 0x03 :: encCounted bs⟩
  | .clear => ⟨.host, [0x10]⟩
  | .home => ⟨.host, [0x11]⟩
  | .displayOn => ⟨.host, [0x12]⟩
  | .displayOff => ⟨.host, [0x13]⟩
  | .cursorOn => ⟨.host, [0x14]⟩
  | .cursorOff => ⟨.host, [0x15]⟩
  | .blinkOn => ⟨.host, [0x16]⟩
  | .blinkOff => ⟨.host, [0x17]⟩
  | .toggleCursor => ⟨.host, [0x18]⟩
  | .toggleBlink => ⟨.host, [0x19]⟩
  | .scrollLeft => ⟨.host, [0x1A]⟩
  | .scrollRight => ⟨.host, [0x1B]⟩
  | .leftToRight => ⟨.host, [0x1C]⟩
  | .rightToLeft => ⟨.host, [0x1D]⟩
  | .autoscrollOn => ⟨.host, [0x1E]⟩
  | .autoscrollOff => ⟨.host, [0x1F]⟩
  | .setCursor col row => ⟨.host, 0x20 :: (encNat col ++ encInt row)⟩
  | .defineGlyph slot bm => ⟨.host, 0x21 :: slot :: bm⟩
  | .writeText text => ⟨.host, 0x22 :: encCounted text⟩
  | .busWrite1 r v => ⟨.bus, [0x00, BitVec.ofNat 8 r, v]⟩
  | .busWriteBlk r bs => ⟨.bus, 0x01 :: BitVec.ofNat 8 r :: encCounted bs⟩
  | .busRead1 => ⟨.bus, [0x02]⟩
  | .encodeNybbles mask v => ⟨.quad, quadWord o mask v⟩
  | .ctlSetDdram a => ⟨.ctl, [encodeCmd8 (.setDdram a)]⟩
  | .ctlSetCgram a => ⟨.ctl, [encodeCmd8 (.setCgram a)]⟩
  | .ctlFunctionSet d n f x => ⟨.ctl, [encodeCmd8 (.functionSet d n f x)]⟩
  | .ctlShift s r x => ⟨.ctl, [encodeCmd8 (.shift s r x)]⟩
  | .ctlDisplayControl d c b => ⟨.ctl, [encodeCmd8 (.displayControl d c b)]⟩
  | .ctlEntryMode i s => ⟨.ctl, [encodeCmd8 (.entryMode i s)]⟩
  | .ctlHome x => ⟨.ctl, [encodeCmd8 (.home x)]⟩
  | .ctlClear => ⟨.ctl, [encodeCmd8 .clear]⟩

/-! ## Words of the opcode table (log 2) -/

/-- `k` bytes of `w`, the lowest eight bits first. -/
def lowBytes : Nat → Nat → List Byte
  | 0, _ => []
  | k + 1, w => BitVec.ofNat 8 w :: lowBytes k (w / 256)

/-- The leading bytes that a decoder takes for one instruction. -/
def taken (dec : List Byte → Except DecodeError (Instr × List Byte)) (bs : List Byte) : List Byte :=
  match dec bs with
  | .ok (_, rest) => bs.take (bs.length - rest.length)
  | .error _ => bs

/-- The packet for a table word: a 2-bit kind tag is a transaction record, a 32-bit word a quad in transmission order
(its first byte in bits 31..24, as the row's pattern is numbered), any other word a host request; an 8-bit word that is no
operation code is a command byte at the controller. Operands above the word are zero. -/
def tableWordPacket (nbits w : Nat) : Packet :=
  if nbits < 8 then ⟨.bus, taken decodeBus (BitVec.ofNat 8 w :: List.replicate 3 0)⟩
  else if nbits = 32 then ⟨.quad, (lowBytes 4 w).reverse⟩
  else
    let bytes := lowBytes (nbits / 8) w ++ List.replicate 9 0
    match decodeHost bytes with
    | .ok _ => ⟨.host, taken decodeHost bytes⟩
    | .error _ => ⟨.ctl, lowBytes (nbits / 8) w⟩

/-- The instruction the decoder reads from a word of spec/opcode_table.json, whose QUAD row is written for the straight order
(log 33). -/
def decodeTableWord (nbits w : Nat) : Option Instr :=
  match decode .straight (tableWordPacket nbits w) with
  | .ok i => some i
  | .error _ => none

end Sys2Proof
end

