-- ==== Sys2Proof/Machine/Flags.lean ====
section
/-! DEFINITION. Every condition the block decides on (R221): there are no flag registers but the BUSY_DIR bit of `ddrb`. -/

namespace Sys2Proof.Machine

/-- POLL_PENDING: `ddrb & BUSY_DIR != 0` (R33, R131). -/
def pollPending (cfg : Params) (ddrb : Byte) : Bool := decide (ddrb &&& cfg.busyDir ≠ 0)

/-- The busy flag: bit 1 of the read byte, 1 = busy (R34, R82). -/
def busyFlag (b : Byte) : Bool := decide (b &&& busyReadBit ≠ 0)

/-- `c in POLLABLE`, equality on the whole byte (R32). -/
def isPollable (cfg : Params) (c : Byte) : Bool := decide (c ∈ cfg.pollable)

/-- Step 4's test: a command write of one byte that is in POLLABLE (R137). -/
def rearms (cfg : Params) (j : Job) : Bool :=
  match j.isData, j.vals with
  | false, [c] => isPollable cfg c
  | _, _ => false

/-- Step 3's test: the buffer is full or the input exhausted (R136). -/
def flushes (buf more : List Byte) : Bool := decide (blockMax ≤ buf.length) || more.isEmpty

/-- `POLL_MAX = some N and n >= N` (R133, R134). -/
def pollGivesUp (cfg : Params) (n : Nat) : Bool :=
  match cfg.pollMax with
  | none => false
  | some m => decide (m ≤ n)

end Sys2Proof.Machine
end

