-- ==== Sys2Proof/Machine/Lcd.lean ====
section
/-! DEFINITION. The display controller as the block sees it (R62, R91, R233, R247): command bytes, bytes from nybbles, strobe
falls. What its memories hold, its address counter and how long it is busy are out of scope (R5 (c)). -/

namespace Sys2Proof.Machine

/-- The controller executes a command (R91): the command's operands stand in the registers of its kind, and clear and home
take "long and variable" time (R62). -/
def lcdCommand (c : LcdCmd) (l : Lcd) : Lcd :=
  match c with
  | .setDdram a => { l with addr := .ddram a, exec := .fixed }
  | .setCgram a => { l with addr := .cgram a, exec := .fixed }
  | .functionSet d n f _ => { l with eight := d, twoLine := n, font10 := f, exec := .fixed }
  | .shift s r _ => { l with moveDisplay := s, moveRight := r, exec := .fixed }
  | .displayControl d c b => { l with displayOn := d, cursorOn := c, blinkOn := b, exec := .fixed }
  | .entryMode i s => { l with entryLeft := i, entryShift := s, exec := .fixed }
  | .home _ => { l with exec := .variable }
  | .clear => { l with exec := .variable }

/-- The controller takes a whole byte: data if `rs`, else a command (R52, R91). `00000000` is "no defined command" (log 22). -/
def lcdTake (rs b7 b6 b5 b4 b3 b2 b1 b0 : Bool) (l : Lcd) : Lcd :=
  let o := BitVec.ofBool
  let byte : Byte := o b7 ++ o b6 ++ o b5 ++ o b4 ++ o b3 ++ o b2 ++ o b1 ++ o b0
  let l := { l with received := l.received ++ [(rs, byte)], exec := .fixed }
  match rs with
  | true => l
  | false => match decodeCmdBits b7 b6 b5 b4 b3 b2 b1 b0 with
    | some c => lcdCommand c l
    | none => l

/-- What the controller takes of a pair of strobes that is half a write and half a read: free, nothing or any byte (log 19). -/
def lcdMixedPair (k : Nat) (l : Lcd) : Lcd :=
  match Config.mixedPair k with
  | none => l
  | some (rs, v) =>
    lcdTake rs (v.getLsbD 7) (v.getLsbD 6) (v.getLsbD 5) (v.getLsbD 4) (v.getLsbD 3) (v.getLsbD 2) (v.getLsbD 1) (v.getLsbD 0) l

/-- The controller latches a nybble. With the 4-bit interface it pairs nybbles by counting strobes, high nybble first (R62,
R247); with the 8-bit interface each is a whole access whose low four lines are not wired (R233, log 20). Two nybbles latched
with different register-select levels make a byte whose level is free (log 37); after the odd pulse of a broken-off poll a nybble
ends the pair (log 19). -/
def lcdNybble (k : Nat) (rs : Bool) (n : Nybble) (l : Lcd) : Lcd :=
  if l.eight then
    lcdTake rs (n.getLsbD 3) (n.getLsbD 2) (n.getLsbD 1) (n.getLsbD 0)
      (Config.floatLevel k 13) (Config.floatLevel k 12) (Config.floatLevel k 11) (Config.floatLevel k 10)
      { l with half := .even }
  else match l.half with
    | .even => { l with half := .wroteHigh rs n }
    | .wroteHigh hrs h =>
      lcdTake (if rs = hrs then rs else Config.mixedSelect k) (h.getLsbD 3) (h.getLsbD 2) (h.getLsbD 1) (h.getLsbD 0)
        (n.getLsbD 3) (n.getLsbD 2) (n.getLsbD 1) (n.getLsbD 0) { l with half := .even }
    | .readHigh => lcdMixedPair k { l with half := .even }

/-- One pulse of a read: a read, too, is two nybbles, counted like those of a write (R247, R249). A pair that is all read
changes nothing; a read pulse after a lone nybble ends that pair (log 19). -/
def lcdReadPulse (k : Nat) (l : Lcd) : Lcd :=
  if l.eight then { l with half := .even }
  else match l.half with
    | .even => { l with half := .readHigh }
    | .wroteHigh _ _ => lcdMixedPair k { l with half := .even }
    | .readHigh => { l with half := .even }

/-- The level of the pin of bit mask `m`: what the latch drives, or free while the pin is an input (R248). -/
def pinLevel (dir latch m : Byte) (k i : Nat) : Bool :=
  if dir &&& m ≠ 0 then Config.floatLevel k i else decide (latch &&& m ≠ 0)

/-- The strobe falls while the latch holds `latch` (R62): a pulse of a read if the readback bit is set, else the data pins and
the register-select pin are latched. -/
def strobeFall (cfg : Params) (dir latch : Byte) (l : Lcd) : Lcd :=
  let k := l.samples
  let l := { l with samples := k + 1 }
  if pinLevel dir latch cfg.readbackBit k 6 then lcdReadPulse k l
  else lcdNybble k (pinLevel dir latch cfg.rsBit k 7)
    (nybbleOfPins cfg.order (pinLevel dir latch 0x10 k 4) (pinLevel dir latch 0x08 k 3)
      (pinLevel dir latch 0x04 k 2) (pinLevel dir latch 0x02 k 1)) l

/-- The latch goes from `old` to `new`: the controller acts on the "rising-then-falling transition" of the strobe (R62, R123),
and sees the strobe only while its pin is an output (log 18). -/
def pinsChange (cfg : Params) (dir old new : Byte) (l : Lcd) : Lcd :=
  if old &&& strobe ≠ 0 ∧ new &&& strobe = 0 ∧ dir &&& strobe = 0 then strobeFall cfg dir old l else l

end Sys2Proof.Machine
end

