-- ==== Sys2Proof/Machine/Expander.lean ====
section
/-! DEFINITION. What a transaction does to the expander (R55 to R58), the spec's reference environment. -/

namespace Sys2Proof.Machine

/-- A byte is stored in register `r`. The pins follow the output latch, which a store to GPIO or to the latch itself sets
(R55, log 16). -/
def storeReg (cfg : Params) (r : Nat) (v : Byte) (e : Env) : Env :=
  { e with
    mem := storeFile cfg r v e.mem
    lcd := if r = cfg.regs.gpio ∨ r = cfg.regs.olat then
        pinsChange cfg (regValue e.mem cfg.regs.dir) (e.latch cfg) v e.lcd
      else e.lcd }

/-- A byte is addressed to register number `a`; past the last register its place is free (log 15). -/
def storeAt (cfg : Params) (a : Nat) (v : Byte) (e : Env) : Env :=
  if a < nregs then storeReg cfg a v e
  else match Config.overrunReg a with
    | some r => storeReg cfg r.val v e
    | none => e

/-- The addressing mode: the bit that CFG_NONSEQ sets in the configuration register disables the increment (R84). -/
def sequentialMode (cfg : Params) (m : Memory) : Bool :=
  decide (regValue m cfg.regs.config &&& cfg.cfgNonseq = 0)

/-- Non-sequential: every byte goes, in order, to the same register (R56). -/
def storeSame (cfg : Params) (r : Nat) : List Byte → Env → Env
  | [], e => e
  | v :: vs, e => storeSame cfg r vs (storeAt cfg r v e)

/-- Sequential: byte `k` goes to register `r + k` (R56). -/
def storeSeq (cfg : Params) (r : Nat) : List Byte → Env → Env
  | [], e => e
  | v :: vs, e => storeSeq cfg (r + 1) vs (storeAt cfg r v e)

/-- A write of `bs` at register `r` reaches the expander, in the mode it is in when the transaction begins (R55, R56, log 14). -/
def deliver (cfg : Params) (r : Nat) (bs : List Byte) (e : Env) : Env :=
  if sequentialMode cfg e.mem then storeSeq cfg r bs { e with ptr := r + bs.length }
  else storeSame cfg r bs { e with ptr := r }

/-- What of a failed write reaches the expander (R60, R111, R112 (c)): nothing, or any first part of it. -/
def deliverPart (cfg : Params) (delivered : Option Nat) (r : Nat) (bs : List Byte) (e : Env) : Env :=
  match delivered with
  | none => e
  | some k => deliver cfg r (bs.take k) e

end Sys2Proof.Machine
end

