-- ==== Sys2Proof/Machine/Ops.lean ====
section
/-! DEFINITION. The operations every meaning is built from: draws, the three bus micro-operations (R111 to R113), the write
primitive with its busy poll (R130 to R137), and the end of an operation (R200, R210). -/

namespace Sys2Proof.Machine

/-- How a piece of an operation ends: it goes on; it waits after a busy poll iteration, its position saved in `seq`; it has
raised an outcome (R10). -/
inductive Run where
  | ok (s : State)
  | wait (s : State)
  | stop (o : OpOutcome) (s : State)
deriving DecidableEq, Repr

/-- Statements run in the order written (R11): go on only from `ok`. -/
def andThen (r : Run) (f : State → Run) : Run :=
  match r with
  | .ok s => f s
  | .wait s => .wait s
  | .stop o s => .stop o s

/-! ## Transactions -/

/-- The environment's next draw (R70): the next one given as an input, else one from the free stream (log 3). -/
def takeDraw (s : State) : Draw × State :=
  match s.draws with
  | d :: ds => (d, { s with draws := ds })
  | [] => (Config.freeDraw s.drawn, { s with drawn := s.drawn + 1 })

/-- Append an event to the history (R110), addressed by the open handle (R71). -/
def record (t : Txn) (e : Ending) (s : State) : State :=
  { s with history := s.history ++ [⟨s.handle, t, e⟩] }

/-- BusWrite1(r, v) (R111). -/
def busWrite1 (r : Nat) (v : Byte) (s : State) : Run :=
  match takeDraw s with
  | (.ok _, s) =>
    .ok (record (.w1 r v) .done { s with env := deliver s.cfg r [v] s.env })
  | (.nack k, s) =>
    .stop (.commError (.w1 r v)) (record (.w1 r v) .failed { s with env := deliverPart s.cfg k r [v] s.env })

/-- One block of BusWriteBlk (R112): one transaction. -/
def busWriteChunk (r : Nat) (bs : List Byte) (s : State) : Run :=
  match takeDraw s with
  | (.ok _, s) =>
    .ok (record (.wb r bs) .done { s with env := deliver s.cfg r bs s.env })
  | (.nack k, s) =>
    .stop (.commError (.wb r bs)) (record (.wb r bs) .failed { s with env := deliverPart s.cfg k r bs s.env })

/-- The blocks in order, up to the first that fails (R112). -/
def busWriteChunks (r : Nat) : List (List Byte) → State → Run
  | [], s => .ok s
  | c :: cs, s => andThen (busWriteChunk r c s) (busWriteChunks r cs)

/-- BusWriteBlk(r, bs) (R112). -/
def busWriteBlk (r : Nat) (bs : List Byte) (s : State) : Run :=
  busWriteChunks r (blockChunks bs) s

/-- BusRead1() (R113), the byte handed to `k`. It has no effect on the expander (R60). -/
def busRead1 (s : State) (k : Byte → State → Run) : Run :=
  match takeDraw s with
  | (.ok b, s) => k b (record .r1 (.byte b) s)
  | (.nack _, s) => .stop (.commError .r1) (record .r1 .failed s)

/-! ## The write primitive -/

/-- One iteration of the poll loop and, when it reads "not busy", the loop's exit (R133). A busy iteration ends the step, its
position saved (log 4), unless the bound is reached (R134). -/
def pollIterate (p : Poll) (s : State) : Run :=
  andThen (busWrite1 s.cfg.regOut p.hi s) fun s =>
    busRead1 { s with gpio := p.hi } fun b s =>
      andThen (busWriteBlk s.cfg.regOut [p.lo, p.hi, p.lo] s) fun s =>
        if busyFlag b then
          if pollGivesUp s.cfg (p.n + 1) then .stop (.deviceUnresponsive (p.n + 1)) { s with gpio := p.lo }
          else .wait { s with gpio := p.lo, seq := .polling { p with n := p.n + 1 } }
        else
          busWrite1 s.cfg.regs.dir (s.ddrb &&& ~~~s.cfg.busyDir)
            { s with gpio := p.lo, ddrb := s.ddrb &&& ~~~s.cfg.busyDir }

/-- POLL() from its first transaction (R133), for the write `job` that starts it and the writes `rest` after it. -/
def pollStart (op : OpKind) (job : Job) (rest : List Job) (s : State) : Run :=
  let lo := pollLo s.cfg s.gpio
  let hi := pollHi s.cfg s.gpio
  andThen (busWrite1 s.cfg.regOut lo s) fun s =>
    pollIterate ⟨0, lo, hi, op, job, rest⟩ { s with gpio := lo }

/-- Step 1 (R131). -/
def pollIfPending (op : OpKind) (job : Job) (rest : List Job) (s : State) : Run :=
  if pollPending s.cfg s.ddrb then pollStart op job rest s else .ok s

/-- One flush of step 3 (R136): a block write to REG_OUT, then its last byte is cached. -/
def flush (buf : List Byte) (s : State) : Run :=
  andThen (busWriteBlk s.cfg.regOut buf s) fun s => .ok { s with gpio := lastByte s.gpio buf }

/-- Step 3 (R136, R140): encode each value in turn, flush when the buffer is full or the input exhausted. -/
def sendValues (mask : Byte) : List Byte → List Byte → State → Run
  | [], _, s => .ok s
  | v :: vs, buf, s =>
    let buf := buf ++ enc s.cfg mask v
    if flushes buf vs then andThen (flush buf s) (sendValues mask vs [])
    else sendValues mask vs buf s

/-- Step 4 (R137): the shadow first, then the hardware. -/
def rearm (j : Job) (s : State) : Run :=
  if rearms s.cfg j then
    busWrite1 s.cfg.regs.dir (s.ddrb ||| s.cfg.busyDir) { s with ddrb := s.ddrb ||| s.cfg.busyDir }
  else .ok s

/-- Steps 2 to 4 of a write (R130). -/
def sendJob (j : Job) (s : State) : Run :=
  andThen (sendValues (controlMask s.cfg s.gpio j.isData) j.vals [] s) (rearm j)

/-- Calls of the write primitive one after another (R130, R192). -/
def runJobs (op : OpKind) : List Job → State → Run
  | [], s => .ok s
  | j :: js, s =>
    andThen (andThen (pollIfPending op j js s) (sendJob j)) (runJobs op js)

/-! ## The end of an operation -/

/-- A failed bring-up leaves no instance (R164): the handle is dropped and the shadows have no readable value again (log 7). -/
def dropInstance (s : State) : State :=
  { s with
    handle := none, gpio := unsetShadow, ddrb := unsetShadow,
    displayshift := unsetShadow, displaymode := unsetShadow, displaycontrol := unsetShadow }

/-- What the end of an operation changes in the lifecycle (R26): INIT that ends `Ok` makes the instance ready, any other end
of INIT drops it (R164), TEARDOWN destroys the handle however it ends (R165). -/
def settle (op : OpKind) (o : OpOutcome) (s : State) : State :=
  match op, o with
  | .plain, _ => s
  | .bringUp, .ok => { s with phase := .ready }
  | .bringUp, .commError _ => dropInstance s
  | .bringUp, .deviceUnresponsive _ => dropInstance s
  | .bringUp, .refused _ => dropInstance s
  | .release, _ => { s with handle := none }

/-- Every way an operation ends, error or not (R200, R210): the outcome goes to the host, the state stands as the pseudocode
left it, the block is idle. There is nothing to return from and nothing to restore (R211). -/
def endOperation (op : OpKind) (o : OpOutcome) (s : State) : State :=
  settle op o { s with seq := .idle, outcomes := s.outcomes ++ [o] }

/-- A run of an operation as a state: ended, or waiting in its poll. -/
def finish (op : OpKind) (r : Run) : State :=
  match r with
  | .ok s => endOperation op .ok s
  | .wait s => s
  | .stop o s => endOperation op o s

/-- `refuse(reason)` (R10, R205): the outcome and nothing else. -/
def refuse (why : RefuseReason) (s : State) : State :=
  { s with outcomes := s.outcomes ++ [.refused why] }

/-- An operation is accepted only when the sequencer is idle (R30, R218, R240); otherwise it waits and nothing changes (log 11). -/
def whenIdle (f : State → State) (s : State) : State :=
  match s.seq with
  | .idle => f s
  | .polling _ => s

/-- `require phase = READY` (R191, R205). -/
def whenReady (f : State → State) (s : State) : State :=
  whenIdle (fun s => if s.phase = .ready then f s else refuse .phase s) s

/-- The body of an operation that is a sequence of writes (R192). -/
def runPlain (jobs : List Job) (s : State) : State := finish .plain (runJobs .plain jobs s)

end Sys2Proof.Machine
end

