-- ==== Sys2Proof/Machine/Bus.lean ====
section
/-! DEFINITION. The bus micro-operations as instructions of their own (40_bus_layer.md R110 to R116). The sequencer issues them,
the host cannot (R214); what never arises in the block is refused (93 U13, log 23). -/

namespace Sys2Proof.Machine

/-- A micro-operation needs an open connection (R25) and a register of the expander (R111, R112). -/
def whenAddressable (r : Nat) (f : State → State) (s : State) : State :=
  match s.handle with
  | none => refuse .noHandle s
  | some _ => if r < nregs then f s else refuse .registerRange s

/-- BUS_WRITE1 (R111). -/
def execBusWrite1 (r : Nat) (v : Byte) (s : State) : Host.Outcome State Fault Refusal :=
  .next (whenIdle (whenAddressable r fun s => finish .plain (busWrite1 r v s)) s)

/-- BUS_WRITEBLK (R112). -/
def execBusWriteBlk (r : Nat) (bs : List Byte) (s : State) : Host.Outcome State Fault Refusal :=
  .next (whenIdle (whenAddressable r fun s =>
    if bs.isEmpty then refuse .emptyBlock s else finish .plain (busWriteBlk r bs s)) s)

/-- BUS_READ1 (R113): the byte is handed back, no shadow is written. -/
def execBusRead1 (s : State) : Host.Outcome State Fault Refusal :=
  .next (whenIdle (whenAddressable 0 fun s =>
    finish .plain (busRead1 s fun b s => .ok { s with result := [b] })) s)

end Sys2Proof.Machine
end

