-- ==== Sys2Proof/Machine/Controller.lean ====
section
/-! DEFINITION. The display controller's commands (30_encoding.md R91): what the controller does when it decodes one. The
block is not involved: it sends every command byte alike (R91, R97). -/

namespace Sys2Proof.Machine

/-- The controller executes a command; nothing of the block changes (R91). -/
def atController (c : LcdCmd) (st : State) : State :=
  { st with env := { st.env with lcd := lcdCommand c st.env.lcd } }

/-- CTL_SET_DDRAM (R91). -/
def execCtlSetDdram (a : BitVec 7) (st : State) : Host.Outcome State Fault Refusal :=
  .next (atController (.setDdram a) st)

/-- CTL_SET_CGRAM (R91). -/
def execCtlSetCgram (a : BitVec 6) (st : State) : Host.Outcome State Fault Refusal :=
  .next (atController (.setCgram a) st)

/-- CTL_FUNCTION_SET (R91). -/
def execCtlFunctionSet (d n f : Bool) (x : BitVec 2) (st : State) : Host.Outcome State Fault Refusal :=
  .next (atController (.functionSet d n f x) st)

/-- CTL_SHIFT (R91). -/
def execCtlShift (s r : Bool) (x : BitVec 2) (st : State) : Host.Outcome State Fault Refusal :=
  .next (atController (.shift s r x) st)

/-- CTL_DISPLAY_CONTROL (R91). -/
def execCtlDisplayControl (d c b : Bool) (st : State) : Host.Outcome State Fault Refusal :=
  .next (atController (.displayControl d c b) st)

/-- CTL_ENTRY_MODE (R91). -/
def execCtlEntryMode (i s : Bool) (st : State) : Host.Outcome State Fault Refusal :=
  .next (atController (.entryMode i s) st)

/-- CTL_HOME (R91). -/
def execCtlHome (x : Bool) (st : State) : Host.Outcome State Fault Refusal :=
  .next (atController (.home x) st)

/-- CTL_CLEAR (R91). -/
def execCtlClear (st : State) : Host.Outcome State Fault Refusal :=
  .next (atController .clear st)

end Sys2Proof.Machine
end

