-- ==== Sys2Proof/Machine/Display.lean ====
section
/-! DEFINITION. The display-control operations (44_display_control.md R170 to R193): each changes at most one mode shadow, then
sends through the write primitive (R191, R192). -/

namespace Sys2Proof.Machine

/-- "first mutates the in-memory field then re-sends the full field as a command byte" (R191): `displaycontrol`. -/
def setDisplaycontrol (v : Byte) (s : State) : State :=
  runPlain [cmdJob (s.cfg.cmdDisplay ||| v)] { s with displaycontrol := v }

/-- The same for `displaymode`. -/
def setDisplaymode (v : Byte) (s : State) : State :=
  runPlain [cmdJob (s.cfg.cmdEntry ||| v)] { s with displaymode := v }

/-- The same for `displayshift`. -/
def setDisplayshift (v : Byte) (s : State) : State :=
  runPlain [cmdJob (s.cfg.cmdShift ||| v)] { s with displayshift := v }

/-- CLEAR (R170). -/
def execClear (s : State) : Host.Outcome State Fault Refusal :=
  .next (whenReady (runPlain [cmdJob cmdClear]) s)

/-- HOME (R171). -/
def execHome (s : State) : Host.Outcome State Fault Refusal :=
  .next (whenReady (fun s => runPlain [cmdJob s.cfg.cmdHome] s) s)

/-- DISPLAY_ON (R172). -/
def execDisplayOn (s : State) : Host.Outcome State Fault Refusal :=
  .next (whenReady (fun s => setDisplaycontrol (s.displaycontrol ||| s.cfg.flagDisplayOn) s) s)

/-- DISPLAY_OFF (R173). -/
def execDisplayOff (s : State) : Host.Outcome State Fault Refusal :=
  .next (whenReady (fun s => setDisplaycontrol (s.displaycontrol &&& ~~~s.cfg.flagDisplayOn) s) s)

/-- CURSOR_ON (R174). -/
def execCursorOn (s : State) : Host.Outcome State Fault Refusal :=
  .next (whenReady (fun s => setDisplaycontrol (s.displaycontrol ||| s.cfg.flagCursorOn) s) s)

/-- CURSOR_OFF (R175). -/
def execCursorOff (s : State) : Host.Outcome State Fault Refusal :=
  .next (whenReady (fun s => setDisplaycontrol (s.displaycontrol &&& ~~~s.cfg.flagCursorOn) s) s)

/-- BLINK_ON (R176). -/
def execBlinkOn (s : State) : Host.Outcome State Fault Refusal :=
  .next (whenReady (fun s => setDisplaycontrol (s.displaycontrol ||| s.cfg.flagBlinkOn) s) s)

/-- BLINK_OFF (R177). -/
def execBlinkOff (s : State) : Host.Outcome State Fault Refusal :=
  .next (whenReady (fun s => setDisplaycontrol (s.displaycontrol &&& ~~~s.cfg.flagBlinkOn) s) s)

/-- TOGGLE_CURSOR (R178): a true flip. -/
def execToggleCursor (s : State) : Host.Outcome State Fault Refusal :=
  .next (whenReady (fun s => setDisplaycontrol (s.displaycontrol ^^^ s.cfg.flagCursorOn) s) s)

/-- TOGGLE_BLINK (R179): a true flip. -/
def execToggleBlink (s : State) : Host.Outcome State Fault Refusal :=
  .next (whenReady (fun s => setDisplaycontrol (s.displaycontrol ^^^ s.cfg.flagBlinkOn) s) s)

/-- SCROLL_LEFT (R180): a whole new value. -/
def execScrollLeft (s : State) : Host.Outcome State Fault Refusal :=
  .next (whenReady (fun s => setDisplayshift (s.cfg.flagDisplayMove) s) s)

/-- SCROLL_RIGHT (R181). -/
def execScrollRight (s : State) : Host.Outcome State Fault Refusal :=
  .next (whenReady (fun s => setDisplayshift (s.cfg.flagDisplayMove ||| s.cfg.flagMoveRight) s) s)

/-- LEFT_TO_RIGHT (R182). -/
def execLeftToRight (s : State) : Host.Outcome State Fault Refusal :=
  .next (whenReady (fun s => setDisplaymode (s.displaymode ||| s.cfg.flagEntryLeft) s) s)

/-- RIGHT_TO_LEFT (R183). -/
def execRightToLeft (s : State) : Host.Outcome State Fault Refusal :=
  .next (whenReady (fun s => setDisplaymode (s.displaymode &&& ~~~s.cfg.flagEntryLeft) s) s)

/-- AUTOSCROLL_ON (R184). -/
def execAutoscrollOn (s : State) : Host.Outcome State Fault Refusal :=
  .next (whenReady (fun s => setDisplaymode (s.displaymode ||| s.cfg.flagEntryShift) s) s)

/-- AUTOSCROLL_OFF (R185). -/
def execAutoscrollOff (s : State) : Host.Outcome State Fault Refusal :=
  .next (whenReady (fun s => setDisplaymode (s.displaymode &&& ~~~s.cfg.flagEntryShift) s) s)

/-- SET_CURSOR (R186, R187): the row is clamped, a sum above 0x7F refused. -/
def execSetCursor (col : Nat) (row : Int) (s : State) : Host.Outcome State Fault Refusal :=
  .next (whenReady (fun s =>
    if ddramAddress s.cfg col row ≤ 0x7F then
      runPlain [cmdJob (setDdramByte s.cfg (ddramAddress s.cfg col row))] s
    else refuse .columnRange s) s)

/-- DEFINE_GLYPH's three writes (R188, R192). -/
def glyphJobs (cfg : Params) (slot : Byte) (bm : List Byte) : List Job :=
  [cmdJob (setCgramByte cfg slot), dataJob bm, cmdJob cfg.cmdSetDdram]

/-- DEFINE_GLYPH (R188). -/
def execDefineGlyph (slot : Byte) (bm : List Byte) (s : State) : Host.Outcome State Fault Refusal :=
  .next (whenReady (fun s =>
    if slot.toNat ≤ 7 ∧ bm.length = 8 then runPlain (glyphJobs s.cfg slot bm) s
    else refuse .glyphRange s) s)

/-- The jump before every line after the first, and the line (R190). -/
def laterLineJobs : List (List Byte) → List Job
  | [] => []
  | l :: ls => cmdJob cmdLine2 :: dataJob l :: laterLineJobs ls

/-- WRITE_TEXT's writes (R190, R192). -/
def textJobs (cfg : Params) (text : List Byte) : List Job :=
  match splitLines cfg.newline text with
  | [] => []
  | l :: ls => dataJob l :: laterLineJobs ls

/-- WRITE_TEXT (R190). -/
def execWriteText (text : List Byte) (s : State) : Host.Outcome State Fault Refusal :=
  .next (whenReady (fun s => runPlain (textJobs s.cfg text) s) s)

end Sys2Proof.Machine
end

