-- ==== Sys2Proof/Machine/Encoder.lean ====
section
/-! DEFINITION. The nybble encoder as an instruction (41_nybble_encoder.md R120 to R124). -/

namespace Sys2Proof.Machine

/-- ENCODE_NYBBLES (R120): pure, for every mask (R121); the four bytes are handed back. -/
def execEncodeNybbles (mask v : Byte) (s : State) : Host.Outcome State Fault Refusal :=
  .next { s with result := enc s.cfg mask v }

end Sys2Proof.Machine
end

