-- ==== Sys2Proof/Machine/Lifecycle.lean ====
section
/-! DEFINITION. Bring-up and teardown (43_lifecycle.md R160 to R167). -/

namespace Sys2Proof.Machine

/-- The shadows of what the register load has just written (R160, R161). -/
def loadShadows (s : State) : State :=
  { s with
    gpio := 0x00, ddrb := s.cfg.ddrInit,
    displayshift := s.cfg.shiftInit, displaymode := s.cfg.modeInit, displaycontrol := s.cfg.ctrlInit }

/-- The eight controller bytes in order (R162). -/
def bringUpJobs (s : State) : List Job :=
  [cmdJob cmdInit1, cmdJob cmdInit2, cmdJob (cmdFunctionInit s.cfg), cmdJob cmdClear,
   cmdJob (s.cfg.cmdShift ||| s.displayshift), cmdJob (s.cfg.cmdEntry ||| s.displaymode),
   cmdJob (s.cfg.cmdDisplay ||| s.displaycontrol), cmdJob s.cfg.cmdHome]

/-- Part 1 of INIT, the register load (R161). -/
def registerLoad (s : State) : Run :=
  andThen (busWrite1 s.cfg.regs.config s.cfg.cfgSeq s) fun s =>
    andThen (busWriteBlk 0 (safeRegs s.cfg) s) fun s =>
      andThen (busWrite1 s.cfg.regs.config s.cfg.cfgNonseq s) fun s => .ok (loadShadows s)

/-- INIT's two parts (R160). -/
def bringUp (s : State) : Run :=
  andThen (registerLoad s) fun s => runJobs .bringUp (bringUpJobs s) s

/-- INIT (R160). -/
def execInit (addr : Byte) (busid : Nat) (s : State) : Host.Outcome State Fault Refusal :=
  .next (whenIdle (fun s =>
    if s.phase = .uninit then
      if addr.toNat ≤ 0x7F then
        finish .bringUp (bringUp { s with handle := some ⟨addr.setWidth 7, busid⟩ })
      else refuse .addrRange s
    else refuse .phase s) s)

/-- TEARDOWN's two transactions (R165): no poll first. -/
def tearDown (s : State) : Run :=
  andThen (busWrite1 s.cfg.regs.config s.cfg.cfgSeq s) fun s => busWriteBlk 0 (safeRegs s.cfg) s

/-- TEARDOWN (R165): released whatever happens next. -/
def execTeardown (s : State) : Host.Outcome State Fault Refusal :=
  .next (whenReady (fun s => finish .release (tearDown { s with phase := .released })) s)

end Sys2Proof.Machine
end

