-- ==== Sys2Proof/Machine/Write.lean ====
section
/-! DEFINITION. The two host operations on the write primitive (42_write_dispatcher.md R138, R139). -/

namespace Sys2Proof.Machine

/-- WRITE_CMD (R138). -/
def execWriteCmd (c : Byte) (s : State) : Host.Outcome State Fault Refusal :=
  .next (whenReady (runPlain [cmdJob c]) s)

/-- WRITE_DATA (R139). -/
def execWriteData (bs : List Byte) (s : State) : Host.Outcome State Fault Refusal :=
  .next (whenReady (runPlain [dataJob bs]) s)

end Sys2Proof.Machine
end

