-- ==== Sys2Proof/Machine/Dispatch.lean ====
section
/-! DEFINITION. One arm per instruction. -/

namespace Sys2Proof.Machine

def exec (i : Instr) (s : State) : Host.Outcome State Fault Refusal :=
  match i with
  | .init addr busid => Sys2Proof.Machine.execInit addr busid s
  | .teardown => Sys2Proof.Machine.execTeardown s
  | .writeCmd c => Sys2Proof.Machine.execWriteCmd c s
  | .writeData bs => Sys2Proof.Machine.execWriteData bs s
  | .clear => Sys2Proof.Machine.execClear s
  | .home => Sys2Proof.Machine.execHome s
  | .displayOn => Sys2Proof.Machine.execDisplayOn s
  | .displayOff => Sys2Proof.Machine.execDisplayOff s
  | .cursorOn => Sys2Proof.Machine.execCursorOn s
  | .cursorOff => Sys2Proof.Machine.execCursorOff s
  | .blinkOn => Sys2Proof.Machine.execBlinkOn s
  | .blinkOff => Sys2Proof.Machine.execBlinkOff s
  | .toggleCursor => Sys2Proof.Machine.execToggleCursor s
  | .toggleBlink => Sys2Proof.Machine.execToggleBlink s
  | .scrollLeft => Sys2Proof.Machine.execScrollLeft s
  | .scrollRight => Sys2Proof.Machine.execScrollRight s
  | .leftToRight => Sys2Proof.Machine.execLeftToRight s
  | .rightToLeft => Sys2Proof.Machine.execRightToLeft s
  | .autoscrollOn => Sys2Proof.Machine.execAutoscrollOn s
  | .autoscrollOff => Sys2Proof.Machine.execAutoscrollOff s
  | .setCursor col row => Sys2Proof.Machine.execSetCursor col row s
  | .defineGlyph slot bm => Sys2Proof.Machine.execDefineGlyph slot bm s
  | .writeText text => Sys2Proof.Machine.execWriteText text s
  | .busWrite1 r v => Sys2Proof.Machine.execBusWrite1 r v s
  | .busWriteBlk r bs => Sys2Proof.Machine.execBusWriteBlk r bs s
  | .busRead1 => Sys2Proof.Machine.execBusRead1 s
  | .encodeNybbles mask v => Sys2Proof.Machine.execEncodeNybbles mask v s
  | .ctlSetDdram a => Sys2Proof.Machine.execCtlSetDdram a s
  | .ctlSetCgram a => Sys2Proof.Machine.execCtlSetCgram a s
  | .ctlFunctionSet d n f x => Sys2Proof.Machine.execCtlFunctionSet d n f x s
  | .ctlShift m r x => Sys2Proof.Machine.execCtlShift m r x s
  | .ctlDisplayControl d c b => Sys2Proof.Machine.execCtlDisplayControl d c b s
  | .ctlEntryMode d m => Sys2Proof.Machine.execCtlEntryMode d m s
  | .ctlHome x => Sys2Proof.Machine.execCtlHome x s
  | .ctlClear => Sys2Proof.Machine.execCtlClear s

end Sys2Proof.Machine
end

