-- ==== Sys2Proof/Machine/Fetch.lean ====
section
/-! DEFINITION. What surrounds an instruction: a running poll goes on before the next request is accepted, and a request that
names no operation is refused. The block fetches no instructions (R30, R53): a program is the host's queue of requests. -/

namespace Sys2Proof.Machine

/-- The operation that waits in its poll makes one more iteration and, when that reads "not busy", goes on (R133, R134). -/
def resumeOperation (p : Poll) (s : State) : State :=
  finish p.op (andThen (andThen (pollIterate p s) (sendJob p.job)) (runJobs p.op p.rest))

/-- A packet that is no instruction. At the host's port, and where micro-operations and quads stand, it is refused (R96,
R205 (b), log 34); at the controller it is no command and does nothing (R91, log 22). -/
def rejectPacket (port : Port) (s : State) : State :=
  match port with
  | .host => refuse .notAnOperation s
  | .bus => refuse .notAnOperation s
  | .quad => refuse .notAnOperation s
  | .ctl => s

/-- The next packet is taken from the queue and run. -/
def runPacket (p : Packet) (s : State) : Host.Outcome State Fault Refusal :=
  match decode s.cfg.order p with
  | .ok i => exec i s
  | .error _ => .next (rejectPacket p.port s)

/-- `s` idle with the packet of a table word at the head of its queue. -/
def placeWord (nbits w : Nat) (s : State) : State :=
  { s with seq := .idle, inbox := tableWordPacket nbits w :: s.inbox }

end Sys2Proof.Machine
end

