-- ==== Sys2Proof/Machine/Step.lean ====
section
/-! DEFINITION. One step of the machine. -/

namespace Sys2Proof.Machine

/-- A waiting poll goes on; an idle block takes the next request; with none it is idle and waits for the host (R30, R230). -/
def step (s : State) : Host.Outcome State Fault Refusal :=
  match s.seq with
  | .polling p => .next (resumeOperation p s)
  | .idle =>
    match s.inbox with
    | [] => .next s
    | p :: rest => runPacket p { s with inbox := rest }

/-- `s` with a word of the opcode table where the next step takes its instruction. -/
def State.withFetchWord (s : State) (nbits w : Nat) : State := placeWord nbits w s

end Sys2Proof.Machine
end

