-- ==== Sys2Proof/Safety.lean ====
section
/-! DEFINITION. The terms in which claims are made: the phase and poll state of a block at rest, the expander in its working
mode, the states the rules give when nothing fails, and the invariants. -/

namespace Sys2Proof.Safety

open Sys2Proof.Machine

/-! ## States an operation starts from -/

/-- The block is at rest and admits every operation but INIT (R26, R30). -/
def Ready (s : State) : Prop := s.phase = .ready ∧ s.seq = .idle

/-- NORMAL: "safe to write immediately" (R33). -/
def InNormal (s : State) : Prop := s.ddrb &&& s.cfg.busyDir = 0

/-- POLL_PENDING: "must poll before next transaction" (R33). -/
def InPending (s : State) : Prop := s.ddrb &&& s.cfg.busyDir ≠ 0

/-- The environment's next draws all complete, with these bytes for those that are reads. -/
def DrawsOk (bytes : List Byte) (rest : List Draw) (s : State) : Prop :=
  s.draws = bytes.map Draw.ok ++ rest

/-- The encodings of R6 and R90 have their default values; NUMLINES and POLL_MAX are any. -/
def DefaultEncodings (cfg : Params) : Prop :=
  cfg = { paramsDefault with numLines := cfg.numLines, pollMax := cfg.pollMax }

/-- The operation code of a host operation, the table of R92; the micro-operations, the encoder and the controller's commands
have none. -/
def hostCode : Instr → Option Byte
  | .init _ _ => some 0x00
  | .teardown => some 0x01
  | .writeCmd _ => some 0x02
  | .writeData _ => some 0x03
  | .clear => some 0x10
  | .home => some 0x11
  | .displayOn => some 0x12
  | .displayOff => some 0x13
  | .cursorOn => some 0x14
  | .cursorOff => some 0x15
  | .blinkOn => some 0x16
  | .blinkOff => some 0x17
  | .toggleCursor => some 0x18
  | .toggleBlink => some 0x19
  | .scrollLeft => some 0x1A
  | .scrollRight => some 0x1B
  | .leftToRight => some 0x1C
  | .rightToLeft => some 0x1D
  | .autoscrollOn => some 0x1E
  | .autoscrollOff => some 0x1F
  | .setCursor _ _ => some 0x20
  | .defineGlyph _ _ => some 0x21
  | .writeText _ => some 0x22
  | .busWrite1 _ _ => none
  | .busWriteBlk _ _ => none
  | .busRead1 => none
  | .encodeNybbles _ _ => none
  | .ctlSetDdram _ => none
  | .ctlSetCgram _ => none
  | .ctlFunctionSet _ _ _ _ => none
  | .ctlShift _ _ _ => none
  | .ctlDisplayControl _ _ _ => none
  | .ctlEntryMode _ _ => none
  | .ctlHome _ => none
  | .ctlClear => none

/-- The micro-operations on the bus (R110). -/
def isBusOp : Instr → Bool
  | .busWrite1 _ _ | .busWriteBlk _ _ | .busRead1 => true
  | _ => false

/-- The phase in which an operation is admitted (R26). -/
def admittingPhase : Instr → Phase
  | .init _ _ => .uninit
  | _ => .ready

/-! ## What a run does when every transaction completes -/

/-- After a completed write: one draw taken, one event, the bytes at the expander (R111, R112). -/
def wrote (t : Txn) (r : Nat) (bs : List Byte) (s : State) : State :=
  { s with draws := s.draws.drop 1, history := s.history ++ [⟨s.handle, t, .done⟩], env := deliver s.cfg r bs s.env }

/-- After a completed read of `b` (R113). -/
def gotByte (b : Byte) (s : State) : State :=
  { s with draws := s.draws.drop 1, history := s.history ++ [⟨s.handle, .r1, .byte b⟩] }

/-- After a byte is written to the output register and cached (R21, R133). -/
def wroteOut (v : Byte) (s : State) : State :=
  { wrote (.w1 s.cfg.regOut v) s.cfg.regOut [v] s with gpio := v }

/-- After a block is written to the output register and its last byte `last` cached (R136). -/
def wroteBlock (bs : List Byte) (last : Byte) (s : State) : State :=
  { wrote (.wb s.cfg.regOut bs) s.cfg.regOut bs s with gpio := last }

/-- After the direction shadow becomes `d` and is written whole (R22). -/
def wroteDir (d : Byte) (s : State) : State :=
  { wrote (.w1 s.cfg.regs.dir d) s.cfg.regs.dir [d] s with ddrb := d }

/-- After one poll iteration that read `b`: strobe up, read, and `[lo, hi, lo]` (R133, R249). -/
def iterated (lo hi b : Byte) (s : State) : State :=
  wroteBlock [lo, hi, lo] lo (gotByte b (wroteOut hi s))

/-- After the entry of a poll and its first iteration, which read `b` (R132, R133): idle pattern, one iteration. -/
def pollEntered (b : Byte) (s : State) : State :=
  let lo := (s.gpio &&& shared) ||| s.cfg.readbackBit
  iterated lo (lo ||| strobe) b (wroteOut lo s)

/-- After a poll whose first read `b` is not busy (R133): entry, one iteration, direction back to output. -/
def polled (b : Byte) (s : State) : State :=
  let t := pollEntered b s
  wroteDir (t.ddrb &&& ~~~t.cfg.busyDir) t

/-- After the quad of `v` under `mask` is sent as a block of its own (R120, R136). -/
def sentQuad (mask v : Byte) (s : State) : State :=
  wroteBlock (enc s.cfg mask v) (mask ||| place4 s.cfg.order (lowNybble v)) s

/-- After a command byte that is not pollable (R135, R136). -/
def sentCommand (c : Byte) (s : State) : State := sentQuad (s.gpio &&& shared) c s

/-- After a pollable command byte: the direction bit set and written (R137). -/
def sentPollable (c : Byte) (s : State) : State :=
  let t := sentCommand c s
  wroteDir (t.ddrb ||| t.cfg.busyDir) t

/-- After blocks are written to the output register one after another, each one's last byte cached (R136). -/
def sentBlocks : List (List Byte) → State → State
  | [], s => s
  | c :: cs, s => sentBlocks cs (wroteBlock c (lastByte s.gpio c) s)

/-- The blocks of a data write: the quads of its bytes in order, cut every 32 bytes (R136). -/
def dataBlocks (s : State) (bs : List Byte) : List (List Byte) :=
  blockChunks (bs.flatMap (enc s.cfg ((s.gpio &&& shared) ||| s.cfg.rsBit)))

/-- After a data write (R136, R140). -/
def sentData (bs : List Byte) (s : State) : State := sentBlocks (dataBlocks s bs) s

/-- After steps 2 to 4 of any call of the write primitive (R135 to R137): the quads of its values in order, in blocks, and the
direction bit set and written if the call was one pollable command. -/
def sentJob (j : Job) (s : State) : State :=
  let t := sentBlocks (blockChunks (j.vals.flatMap (enc s.cfg (controlMask s.cfg s.gpio j.isData)))) s
  if rearms s.cfg j then wroteDir (t.ddrb ||| t.cfg.busyDir) t else t

/-- The transactions of steps 2 to 4 (R141): one block for each eight values begun, and the re-arming direction write. -/
def jobTxns (cfg : Params) (j : Job) : Nat := (j.vals.length + 7) / 8 + if rearms cfg j then 1 else 0

/-- Calls of the write primitive one after another, drawing these bytes, take one state to another, no poll on the way reading
"busy" (R130): each call polls first if it begins in POLL_PENDING. -/
inductive RanQuietly : List Job → List Byte → State → State → Prop where
  | done (s : State) : RanQuietly [] [] s s
  | normal {j : Job} {js : List Job} {own bytes : List Byte} {s t : State} (h : InNormal s)
      (hl : own.length = jobTxns s.cfg j) (hs : RanQuietly js bytes (sentJob j s) t) : RanQuietly (j :: js) (own ++ bytes) s t
  | pending {j : Job} {js : List Job} {own bytes : List Byte} {x0 x1 b x3 x4 : Byte} {s t : State} (h : InPending s)
      (hb : busyFlag b = false) (hl : own.length = jobTxns s.cfg j) (hs : RanQuietly js bytes (sentJob j (polled b s)) t) :
      RanQuietly (j :: js) ([x0, x1, b, x3, x4] ++ (own ++ bytes)) s t

/-- After the lines that follow the first: each is a jump to the second row and a data write (R190). -/
def sentLaterLines : List (List Byte) → State → State
  | [], s => s
  | l :: ls, s => sentLaterLines ls (sentData l (sentCommand cmdLine2 s))

/-- After the lines of a text (R190). -/
def sentLines : List (List Byte) → State → State
  | [], s => s
  | l :: ls, s => sentLaterLines ls (sentData l s)

/-- Transactions of the lines of a text: one block for each eight characters begun, and one jump before each line but the
first (R141, R190). -/
def lineTxns : List (List Byte) → Nat
  | [] => 0
  | l :: ls => (l.length + 7) / 8 + (ls.map fun m => 1 + (m.length + 7) / 8).sum

/-- After the blocks of a payload are written to register `r` (R112). -/
def wroteChunks (r : Nat) : List (List Byte) → State → State
  | [], s => s
  | c :: cs, s => wroteChunks r cs (wrote (.wb r c) r c s)

/-- After a transaction the environment failed (R111 to R113, R201): one draw taken, the event marked, the operation ended. -/
def commFailed (t : Txn) (e : Env) (s : State) : State :=
  { s with
    seq := .idle, draws := s.draws.drop 1, history := s.history ++ [⟨s.handle, t, .failed⟩], env := e,
    outcomes := s.outcomes ++ [.commError t] }

/-- The operation has ended `Ok` (R200): the outcome is reported and the block is idle. -/
def endedOk (s : State) : State := { s with seq := .idle, outcomes := s.outcomes ++ [.ok] }

/-- The state with an outcome of refusal reported and nothing else changed (R205). -/
def refusedAs (why : RefuseReason) (s : State) : State := { s with outcomes := s.outcomes ++ [.refused why] }

/-- The display-control operations that are one command write (R192): the command byte, and the state once the shadow is
changed. -/
def oneCommand (s : State) : Instr → Option (Byte × State)
  | .clear => some (0x01, s)
  | .home => some (s.cfg.cmdHome, s)
  | .displayOn =>
    let v := s.displaycontrol ||| s.cfg.flagDisplayOn
    some (s.cfg.cmdDisplay ||| v, { s with displaycontrol := v })
  | .displayOff =>
    let v := s.displaycontrol &&& ~~~s.cfg.flagDisplayOn
    some (s.cfg.cmdDisplay ||| v, { s with displaycontrol := v })
  | .cursorOn =>
    let v := s.displaycontrol ||| s.cfg.flagCursorOn
    some (s.cfg.cmdDisplay ||| v, { s with displaycontrol := v })
  | .cursorOff =>
    let v := s.displaycontrol &&& ~~~s.cfg.flagCursorOn
    some (s.cfg.cmdDisplay ||| v, { s with displaycontrol := v })
  | .blinkOn =>
    let v := s.displaycontrol ||| s.cfg.flagBlinkOn
    some (s.cfg.cmdDisplay ||| v, { s with displaycontrol := v })
  | .blinkOff =>
    let v := s.displaycontrol &&& ~~~s.cfg.flagBlinkOn
    some (s.cfg.cmdDisplay ||| v, { s with displaycontrol := v })
  | .toggleCursor =>
    let v := s.displaycontrol ^^^ s.cfg.flagCursorOn
    some (s.cfg.cmdDisplay ||| v, { s with displaycontrol := v })
  | .toggleBlink =>
    let v := s.displaycontrol ^^^ s.cfg.flagBlinkOn
    some (s.cfg.cmdDisplay ||| v, { s with displaycontrol := v })
  | .scrollLeft =>
    some (s.cfg.cmdShift ||| s.cfg.flagDisplayMove, { s with displayshift := s.cfg.flagDisplayMove })
  | .scrollRight =>
    let v := s.cfg.flagDisplayMove ||| s.cfg.flagMoveRight
    some (s.cfg.cmdShift ||| v, { s with displayshift := v })
  | .leftToRight =>
    let v := s.displaymode ||| s.cfg.flagEntryLeft
    some (s.cfg.cmdEntry ||| v, { s with displaymode := v })
  | .rightToLeft =>
    let v := s.displaymode &&& ~~~s.cfg.flagEntryLeft
    some (s.cfg.cmdEntry ||| v, { s with displaymode := v })
  | .autoscrollOn =>
    let v := s.displaymode ||| s.cfg.flagEntryShift
    some (s.cfg.cmdEntry ||| v, { s with displaymode := v })
  | .autoscrollOff =>
    let v := s.displaymode &&& ~~~s.cfg.flagEntryShift
    some (s.cfg.cmdEntry ||| v, { s with displaymode := v })
  | _ => none

/-- The expansion of an operation into calls of the write primitive (R192): the state once its shadow is changed, and the calls;
none for operands that are refused, and for instructions that are no such operation. -/
def writesOf (s : State) : Instr → Option (State × List Job)
  | .writeCmd c => some (s, [cmdJob c])
  | .writeData bs => some (s, [dataJob bs])
  | .setCursor col row =>
    if ddramAddress s.cfg col row ≤ 0x7F then some (s, [cmdJob (setDdramByte s.cfg (ddramAddress s.cfg col row))]) else none
  | .defineGlyph slot bm => if slot.toNat ≤ 7 ∧ bm.length = 8 then some (s, glyphJobs s.cfg slot bm) else none
  | .writeText text => some (s, textJobs s.cfg text)
  | i => (oneCommand s i).map fun r => (r.2, [cmdJob r.1])

/-- The operations that only write through the write primitive: all host operations but INIT and TEARDOWN (R192, R215). -/
def writesOnly : Instr → Bool
  | .writeCmd _ | .writeData _ | .clear | .home | .displayOn | .displayOff | .cursorOn | .cursorOff | .blinkOn | .blinkOff
  | .toggleCursor | .toggleBlink | .scrollLeft | .scrollRight | .leftToRight | .rightToLeft | .autoscrollOn | .autoscrollOff
  | .setCursor _ _ | .defineGlyph _ _ | .writeText _ => true
  | _ => false

/-- The shadow each display-control operation may change (R191, R192). -/
def mayChangeControl : Instr → Bool
  | .displayOn | .displayOff | .cursorOn | .cursorOff | .blinkOn | .blinkOff | .toggleCursor | .toggleBlink => true
  | _ => false

def mayChangeMode : Instr → Bool
  | .leftToRight | .rightToLeft | .autoscrollOn | .autoscrollOff => true
  | _ => false

def mayChangeShift : Instr → Bool
  | .scrollLeft | .scrollRight => true
  | _ => false

/-- The operations that end in POLL_PENDING (R39, R143): CLEAR, HOME and WRITE_CMD of a pollable command. -/
def endsPending (cfg : Params) : Instr → Bool
  | .clear | .home => true
  | .writeCmd c => isPollable cfg c
  | _ => false

/-- The 23 transactions of INIT with a device that is not busy at either read (R160 to R162). -/
def initTrace (h : Handle) (b1 b2 : Byte) : List Event :=
  let w1 (r : Nat) (v : Byte) : Event := ⟨some h, .w1 r v, .done⟩
  let wb (r : Nat) (bs : List Byte) : Event := ⟨some h, .wb r bs, .done⟩
  let poll (b : Byte) : List Event :=
    [w1 9 0x40, w1 9 0x60, ⟨some h, .r1, .byte b⟩, wb 9 [0x40, 0x60, 0x40], w1 0 0x00]
  [w1 5 0x00, wb 0 [0x02, 0x00, 0x00, 0x00, 0x00, 0x00, 0x00, 0x00, 0x00, 0x00, 0x00], w1 5 0x20] ++ poll b1 ++
    [wb 9 [0x26, 0x06, 0x26, 0x06], wb 9 [0x26, 0x06, 0x24, 0x04], wb 9 [0x24, 0x04, 0x30, 0x10],
     wb 9 [0x20, 0x00, 0x22, 0x02], w1 0 0x02] ++ poll b2 ++
    [wb 9 [0x22, 0x02, 0x28, 0x08], wb 9 [0x20, 0x00, 0x2C, 0x0C], wb 9 [0x20, 0x00, 0x38, 0x18],
     wb 9 [0x20, 0x00, 0x24, 0x04], w1 0 0x02]

/-- After the register load of INIT under the handle `h` (R160, R161): three transactions, and the shadows of what was loaded. -/
def loaded (h : Handle) (s : State) : State :=
  { wrote (.w1 s.cfg.regs.config s.cfg.cfgNonseq) s.cfg.regs.config [s.cfg.cfgNonseq]
      (wrote (.wb 0 (safeRegs s.cfg)) 0 (safeRegs s.cfg)
        (wrote (.w1 s.cfg.regs.config s.cfg.cfgSeq) s.cfg.regs.config [s.cfg.cfgSeq] { s with handle := some h })) with
    gpio := 0x00, ddrb := s.cfg.ddrInit, displayshift := s.cfg.shiftInit, displaymode := s.cfg.modeInit,
    displaycontrol := s.cfg.ctrlInit }

/-- A device that answers "busy" with these bytes: the draws of one poll iteration each (R133). -/
def busyDraws (bs : List Byte) : List Draw := bs.flatMap fun b => [.ok 0x00, .ok b, .ok 0x00]

/-! ## The environment in its working state -/

/-- The configuration register is known and selects non-sequential addressing (R56, R84). -/
def NonSequential (cfg : Params) (m : Memory) : Prop :=
  ∃ v, memRead cfg.regs.config m = some v ∧ v &&& cfg.cfgNonseq ≠ 0

/-- The configuration register is known and selects sequential addressing (R56, R84). -/
def Sequential (cfg : Params) (m : Memory) : Prop :=
  ∃ v, memRead cfg.regs.config m = some v ∧ v &&& cfg.cfgNonseq = 0

/-- The registers a store to register `r` changes (R55): `r`, and for GPIO the output latch too. -/
def Touches (cfg : Params) (r a : Nat) : Prop := a = r ∨ (r = cfg.regs.gpio ∧ a = cfg.regs.olat)

/-- The expander and the controller as completed operations leave them: non-sequential addressing, the direction register as
the shadow says with no input but the busy pin, the strobe low, the 4-bit interface on a byte boundary (R242, R243, R247,
R248). -/
def Synced (s : State) : Prop :=
  NonSequential s.cfg s.env.mem ∧ memRead s.cfg.regs.dir s.env.mem = some s.ddrb ∧ (s.ddrb = 0x00 ∨ s.ddrb = 0x02) ∧
    (∃ v, memRead s.cfg.regs.olat s.env.mem = some v ∧ v &&& strobe = 0) ∧ s.env.lcd.eight = false ∧ s.env.lcd.half = .even

/-- A write of `n` transactions completes from `s` at once (R141): its draws complete, and in POLL_PENDING those of a poll before
it that reads "not busy" at its first read. -/
def CompletesAtOnce (n : Nat) (s : State) : Prop :=
  ∃ bytes rest, bytes.length = n ∧
    ((InNormal s ∧ DrawsOk bytes rest s) ∨
     (InPending s ∧ ∃ x0 x1 b x3 x4, busyFlag b = false ∧ DrawsOk ([x0, x1, b, x3, x4] ++ bytes) rest s))

/-! ## Invariants -/

/-- The expander's register file is canonical and holds no register but the eleven, the output latch being one of them (R50). -/
def MemoryOk (s : State) : Prop := Memory.wf s.env.mem ∧ memInRange s.env.mem ∧ s.cfg.regs.olat < nregs

/-- The shadows have readable values: the instance is ready, or INIT waits in a poll (R37, R38). -/
def ShadowsLive (s : State) : Prop := s.phase = .ready ∨ ∃ p, s.seq = .polling p

/-- The ranges of the shadows (R22, R41, R83, R193). -/
def ShadowsInRange (s : State) : Prop :=
  s.gpio &&& shared = 0 ∧ (s.ddrb = 0x00 ∨ s.ddrb = 0x02) ∧ s.displaycontrol ≤ 0x07 ∧ s.displaymode ≤ 0x03 ∧
    (s.displayshift = 0x04 ∨ s.displayshift = 0x08 ∨ s.displayshift = 0x0C)

/-- The sequencer's position fits the phase (R26, R30, R133): a poll waits with its two patterns, the idle one cached, the busy
pin an input and a handle open, for INIT before the instance is ready and for other operations after. -/
def PositionOk (s : State) : Prop :=
  ∀ p, s.seq = .polling p →
    p.lo = 0x40 ∧ p.hi = 0x60 ∧ s.gpio = p.lo ∧ s.ddrb = 0x02 ∧ s.handle ≠ none ∧
      ((p.op = .bringUp ∧ s.phase = .uninit) ∨ (p.op = .plain ∧ s.phase = .ready))

/-- The handle is open exactly from INIT to TEARDOWN (R25, R26). -/
def HandleOk (s : State) : Prop := s.seq = .idle → (s.handle ≠ none ↔ s.phase = .ready)

/-- The invariant of the block (R22, R25, R26, R41, R83, R193) under the default encodings. -/
def BlockOk (s : State) : Prop :=
  DefaultEncodings s.cfg ∧ (ShadowsLive s → ShadowsInRange s) ∧ PositionOk s ∧ HandleOk s

/-- Only the host's port is used (R214). -/
def HostOnly (s : State) : Prop := ∀ p ∈ s.inbox, p.port = .host

/-- The transactions the block ever issues, by register, value and size (R51, R59, R98, R116). -/
def AllowedTxn : Txn → Prop
  | .w1 r v =>
    (r = 5 ∧ (v = 0x00 ∨ v = 0x20)) ∨ (r = 0 ∧ (v = 0x00 ∨ v = 0x02)) ∨ (r = 9 ∧ (v = 0x40 ∨ v = 0x60))
  | .wb r bs =>
    (r = 0 ∧ bs = safeRegs paramsDefault) ∨ (r = 9 ∧ bs = [0x40, 0x60, 0x40]) ∨
      (r = 9 ∧ ∃ (mask : Byte) (vals : List Byte), (mask = 0x00 ∨ mask = 0x80) ∧ vals ≠ [] ∧ vals.length ≤ 8 ∧
        bs = vals.flatMap (enc paramsDefault mask))
  | .r1 => True

/-- Every transaction so far is one the spec allows. -/
def HistoryOk (s : State) : Prop := ∀ e ∈ s.history, AllowedTxn e.txn

/-- With a bounded poll the sequencer never waits after as many iterations as the bound (R134). -/
def PollCountOk (s : State) : Prop := ∀ p m, s.seq = .polling p → s.cfg.pollMax = some m → p.n < m

/-- `DeviceUnresponsive(n)` was reported only with `POLL_MAX = some n` (R203, R209). -/
def GiveUpOk (s : State) : Prop := ∀ n, OpOutcome.deviceUnresponsive n ∈ s.outcomes → s.cfg.pollMax = some n

/-- What one step adds to the history and to the outcomes fits together (R200, R201, R210): a failed transaction is the last
event of its operation and its outcome names it; with every other outcome, or none yet, no new event failed; a refusal adds no
event. -/
def Reported (s t : State) : Prop :=
  ∃ new : List Event, t.history = s.history ++ new ∧
    ((t.outcomes = s.outcomes ∧ ∀ e ∈ new, e.ended ≠ .failed) ∨
     (t.outcomes = s.outcomes ++ [.ok] ∧ ∀ e ∈ new, e.ended ≠ .failed) ∨
     (∃ n, t.outcomes = s.outcomes ++ [.deviceUnresponsive n] ∧ ∀ e ∈ new, e.ended ≠ .failed) ∨
     (∃ why, t.outcomes = s.outcomes ++ [.refused why] ∧ new = []) ∨
     (∃ x d before, t.outcomes = s.outcomes ++ [.commError x] ∧ new = before ++ [⟨d, x, .failed⟩] ∧
       ∀ e ∈ before, e.ended ≠ .failed))

end Sys2Proof.Safety
end

