-- ==== Sys2Proof/Certificates/Slice0/Obligations.lean ====
section
/-! DEFINITION. The statements for the provers. Each docstring names the rules of spec/ it follows; a clause that is the model's
own choice names its log entry. -/

open Sys2Proof Sys2Proof.Machine Sys2Proof.Safety

/-! ## Requests, words and the step -/

/-- Words written out from the tables of R92, R95, R81 and R91 decode to their instructions (operand layouts: log 1), a quad in
either order of the data lines (log 33). -/
def Obligations.SpecWordsDecode : Prop :=
  decode .straight ⟨.host, [0x00, 0x20, 0x01]⟩ = .ok (.init 0x20 1) ∧
  decode .straight ⟨.host, [0x02, 0x01]⟩ = .ok (.writeCmd 0x01) ∧
  decode .straight ⟨.host, [0x03, 0x02, 0x41, 0x42]⟩ = .ok (.writeData [0x41, 0x42]) ∧
  decode .straight ⟨.host, [0x12]⟩ = .ok .displayOn ∧
  decode .straight ⟨.host, [0x20, 0x05, 0x01]⟩ = .ok (.setCursor 5 1) ∧
  decode .straight ⟨.bus, [0x00, 0x09, 0x40]⟩ = .ok (.busWrite1 9 0x40) ∧
  decode .straight ⟨.bus, [0x02]⟩ = .ok .busRead1 ∧
  decode .straight ⟨.quad, [0xA8, 0x88, 0xA2, 0x82]⟩ = .ok (.encodeNybbles 0x80 0x41) ∧
  decode .reversed ⟨.quad, [0xA4, 0x84, 0xB0, 0x90]⟩ = .ok (.encodeNybbles 0x80 0x41) ∧
  decode .straight ⟨.ctl, [0x0C]⟩ = .ok (.ctlDisplayControl true false false)

/-- Decoding the packet of a well-formed instruction gives the instruction back, every operand at every value it admits, in either
order of the data lines. -/
def Obligations.DecodeOfEncode : Prop :=
  ∀ (o : NybbleOrder) (i : Instr), i.wellFormed = true → decode o (encode o i) = .ok i

/-- A request at the host's port names a host operation, and the one its code stands for in R92: the host reaches no bus
micro-operation, no quad and no controller command of its own (R214). -/
def Obligations.HostPortDecodesByCode : Prop :=
  ∀ (o : NybbleOrder) (bytes : List Byte) (i : Instr), decode o ⟨.host, bytes⟩ = .ok i →
    ∃ code, bytes.head? = some code ∧ hostCode i = some code

/-- The controller decodes a command byte by its highest set bit, and `00000000` is no command (R91). -/
def Obligations.CommandByteMap : Prop :=
  (∀ a : BitVec 7, decodeCmd8 (1#1 ++ a : BitVec 8) = some (.setDdram a)) ∧
  (∀ a : BitVec 6, decodeCmd8 (0b01#2 ++ a : BitVec 8) = some (.setCgram a)) ∧
  (∀ (d n f : Bool) (x : BitVec 2), decodeCmd8 (0b001#3 ++ BitVec.ofBool d ++ BitVec.ofBool n ++ BitVec.ofBool f ++ x : BitVec 8)
    = some (.functionSet d n f x)) ∧
  (∀ (s r : Bool) (x : BitVec 2), decodeCmd8 (0b0001#4 ++ BitVec.ofBool s ++ BitVec.ofBool r ++ x : BitVec 8)
    = some (.shift s r x)) ∧
  (∀ d c b : Bool, decodeCmd8 (0b00001#5 ++ BitVec.ofBool d ++ BitVec.ofBool c ++ BitVec.ofBool b : BitVec 8)
    = some (.displayControl d c b)) ∧
  (∀ i s : Bool, decodeCmd8 (0b000001#6 ++ BitVec.ofBool i ++ BitVec.ofBool s : BitVec 8) = some (.entryMode i s)) ∧
  (∀ x : Bool, decodeCmd8 (0b0000001#7 ++ BitVec.ofBool x : BitVec 8) = some (.home x)) ∧
  decodeCmd8 0x01 = some .clear ∧ decodeCmd8 0x00 = none

/-- What a step is: a waiting poll goes on; an idle block takes the next request off the queue and runs the instruction its
bytes decode to; with none it waits (R30, R230; the queue: log 1). No step stops the machine (R207, R211). -/
def Obligations.StepRunsDecodedRequest : Prop :=
  (∀ (s : State) (p : Packet) (rest : List Packet) (i : Instr),
    s.seq = .idle → s.inbox = p :: rest → decode s.cfg.order p = .ok i → step s = exec i { s with inbox := rest }) ∧
  (∀ (s : State) (p : Poll), s.seq = .polling p → step s = .next (resumeOperation p s)) ∧
  (∀ s : State, s.seq = .idle → s.inbox = [] → step s = .next s) ∧
  (∀ s : State, ∃ t, step s = .next t)

/-- Bytes at the host's port that name no operation are refused: the request is used up, the refusal reported, nothing else
changes (R96, R205 (b); bytes that are an operation's code but not one whole request: log 34). -/
def Obligations.UnknownRequestRefused : Prop :=
  ∀ (s : State) (bytes : List Byte) (rest : List Packet) (e : DecodeError),
    s.seq = .idle → s.inbox = ⟨.host, bytes⟩ :: rest → decode s.cfg.order ⟨.host, bytes⟩ = .error e →
    step s = .next (refusedAs .notAnOperation { s with inbox := rest })

/-- The state at reset (R37, R230, R231): phase UNINIT, no handle, idle, nothing done and nothing reported; the configuration
is the defaults of R6; no expander register has a known value. -/
def Obligations.ResetState : Prop :=
  State.reset.phase = .uninit ∧ State.reset.handle = none ∧ State.reset.seq = .idle ∧ State.reset.inbox = [] ∧
    State.reset.history = [] ∧ State.reset.outcomes = [] ∧ State.reset.cfg = paramsDefault ∧
    ∀ r, memRead r State.reset.env.mem = none

/-! ## The nybble encoder -/

/-- R120: the four bytes, for every mask and value, in the decided order of the data lines (D7) and in any (R124, log 33); nothing
but the answer is written, and where it goes is the model's choice (log 9). -/
def Obligations.EncodeNybblesResult : Prop :=
  ∀ (mask v : Byte) (s : State),
    exec (.encodeNybbles mask v) s = .next { s with result :=
      [mask ||| place4 s.cfg.order (highNybble v) ||| 0x20, mask ||| place4 s.cfg.order (highNybble v),
       mask ||| place4 s.cfg.order (lowNybble v) ||| 0x20, mask ||| place4 s.cfg.order (lowNybble v)] } ∧
    (s.cfg.order = .straight → exec (.encodeNybbles mask v) s = .next { s with result :=
      [mask ||| ((v >>> 4) <<< 1) ||| 0x20, mask ||| ((v >>> 4) <<< 1),
       mask ||| ((v &&& 0x0F) <<< 1) ||| 0x20, mask ||| ((v &&& 0x0F) <<< 1)] })

/-- R122: what the source requires of a quad under a mask that leaves data and strobe positions alone. -/
def Obligations.EncoderProperties : Prop :=
  ∀ (cfg : Params) (mask v : Byte), cfg.order = .straight → mask &&& 0x3E = 0 →
    ∃ q0 q1 q2 q3, enc cfg mask v = [q0, q1, q2, q3] ∧
      q0 &&& 0x20 = 0x20 ∧ q2 &&& 0x20 = 0x20 ∧ q1 &&& 0x20 = 0 ∧ q3 &&& 0x20 = 0 ∧
      (q0 &&& 0x1E) >>> 1 = v >>> 4 ∧ (q1 &&& 0x1E) >>> 1 = v >>> 4 ∧
      (q2 &&& 0x1E) >>> 1 = v &&& 0x0F ∧ (q3 &&& 0x1E) >>> 1 = v &&& 0x0F ∧
      q0 &&& 0xC1 = mask ∧ q1 &&& 0xC1 = mask ∧ q2 &&& 0xC1 = mask ∧ q3 &&& 0xC1 = mask ∧
      v = (((q1 &&& 0x1E) >>> 1) <<< 4) ||| ((q3 &&& 0x1E) >>> 1)

/-! ## The bus micro-operations and the expander -/

/-- BUS_WRITE1 (R111, R55, R60): completed, the event is recorded, the register holds the byte, and the pointer stands at the
register, in sequential mode at the next; failed, the event is marked, the error names the transaction at once, what the draw
says arrived, and of the byte that is nothing or everything. An open handle and `r ≤ 10`: log 23. -/
def Obligations.BusWrite1Completes : Prop :=
  ∀ (r : Nat) (v : Byte) (s : State) (ds : List Draw), s.seq = .idle → s.handle ≠ none → r ≤ 10 →
    (∀ b, s.draws = .ok b :: ds →
      exec (.busWrite1 r v) s = .next (endedOk (wrote (.w1 r v) r [v] s)) ∧
      memRead r (wrote (.w1 r v) r [v] s).env.mem = some v ∧
      (NonSequential s.cfg s.env.mem → (wrote (.w1 r v) r [v] s).env.ptr = r) ∧
      (Sequential s.cfg s.env.mem → (wrote (.w1 r v) r [v] s).env.ptr = r + 1)) ∧
    (∀ k, s.draws = .nack k :: ds →
      let e := deliverPart s.cfg k r [v] s.env
      exec (.busWrite1 r v) s = .next (commFailed (.w1 r v) e s) ∧
      (memRead r e.mem = memRead r s.env.mem ∨ memRead r e.mem = some v) ∧
      ∀ a, ¬ Touches s.cfg r a → memRead a e.mem = memRead a s.env.mem)

/-- BUS_WRITEBLK (R112): one transaction for each 32 bytes begun, in order, all to the same start register. -/
def Obligations.BusWriteBlkCompletes : Prop :=
  ∀ (r : Nat) (bs bytes : List Byte) (s : State) (rest : List Draw),
    s.seq = .idle → s.handle ≠ none → r ≤ 10 → bs ≠ [] →
    DrawsOk bytes rest s → bytes.length = (bs.length + 31) / 32 →
    exec (.busWriteBlk r bs) s = .next (endedOk (wroteChunks r (blockChunks bs) s))

/-- BUS_WRITEBLK, the environment failing a block (R112, R60): the blocks before it are sent, it is marked, of its bytes that
first part has arrived which the draw says, and no later block is sent. -/
def Obligations.BusWriteBlkStopsAtFailure : Prop :=
  ∀ (r : Nat) (sent unsent : List (List Byte)) (c bs bytes : List Byte) (k : Option Nat) (s : State) (rest : List Draw),
    s.seq = .idle → s.handle ≠ none → r ≤ 10 → blockChunks bs = sent ++ c :: unsent →
    DrawsOk bytes (.nack k :: rest) s → bytes.length = sent.length →
    let u := wroteChunks r sent s
    exec (.busWriteBlk r bs) s = .next (commFailed (.wb r c) (deliverPart s.cfg k r c u.env) u)

/-- BUS_READ1 (R113): the drawn byte is recorded and handed back (its place: log 9), or the read fails; no shadow is written. -/
def Obligations.BusRead1Completes : Prop :=
  ∀ (s : State) (ds : List Draw), s.seq = .idle → s.handle ≠ none →
    (∀ b, s.draws = .ok b :: ds → exec .busRead1 s = .next (endedOk { gotByte b s with result := [b] })) ∧
    (∀ k, s.draws = .nack k :: ds → exec .busRead1 s = .next (commFailed .r1 s.env s))

/-- What never arises in the block is refused and changes nothing: a register above 10, a block of no bytes, no open connection
(93 U13, R112 (b); the model's choice, log 23). -/
def Obligations.MicroOperationRefused : Prop :=
  (∀ (r : Nat) (v : Byte) (bs : List Byte) (s : State), s.seq = .idle → s.handle = none →
    exec (.busWrite1 r v) s = .next (refusedAs .noHandle s) ∧ exec (.busWriteBlk r bs) s = .next (refusedAs .noHandle s) ∧
    exec .busRead1 s = .next (refusedAs .noHandle s)) ∧
  (∀ (r : Nat) (v : Byte) (bs : List Byte) (s : State), s.seq = .idle → s.handle ≠ none → 10 < r →
    exec (.busWrite1 r v) s = .next (refusedAs .registerRange s) ∧
    exec (.busWriteBlk r bs) s = .next (refusedAs .registerRange s)) ∧
  (∀ (r : Nat) (s : State), s.seq = .idle → s.handle ≠ none → r ≤ 10 →
    exec (.busWriteBlk r []) s = .next (refusedAs .emptyBlock s))

/-- Blocks (R112, R136, R141): they make up the payload, in order; each holds 1 to 32 bytes, all but the last 32; there are as
many as 32-byte pieces begun; for `m` quads that is one for each 8 begun, and `4m` bytes in all. -/
def Obligations.BlocksOfAPayload : Prop :=
  ∀ bs : List Byte,
    (blockChunks bs).flatten = bs ∧ (∀ c ∈ blockChunks bs, 1 ≤ c.length ∧ c.length ≤ 32) ∧
    (∀ c ∈ (blockChunks bs).dropLast, c.length = 32) ∧ (blockChunks bs).length = (bs.length + 31) / 32 ∧
    ∀ (cfg : Params) (mask : Byte), (bs.flatMap (enc cfg mask)).length = 4 * bs.length ∧
      (blockChunks (bs.flatMap (enc cfg mask))).length = (bs.length + 7) / 8

/-- Non-sequential mode (R55, R56): every byte goes to the same register, which ends with the last one; a store to GPIO sets the
output latch too; every other register and the pointer's place are as the rule says. -/
def Obligations.NonSequentialBlockStaysInRegister : Prop :=
  ∀ (cfg : Params) (r : Nat) (bs : List Byte) (b : Byte) (e : Env),
    NonSequential cfg e.mem → r ≤ 10 →
    memRead r (deliver cfg r (bs ++ [b]) e).mem = some b ∧
    (r = cfg.regs.gpio → (deliver cfg r (bs ++ [b]) e).latch cfg = b) ∧
    (∀ a, ¬ Touches cfg r a → memRead a (deliver cfg r (bs ++ [b]) e).mem = memRead a e.mem) ∧
    (deliver cfg r (bs ++ [b]) e).ptr = r

/-- Sequential mode (R55, R56, R57): byte `k` goes to register `r + k`, a byte for GPIO sets the output latch unless a later byte
goes there, and nothing else changes. The mode is the one the transaction began in (log 14). The pointer stands behind the last
byte: the rule for one byte, the model's reading for more (log 13). -/
def Obligations.SequentialBlockFillsRegisters : Prop :=
  ∀ (cfg : Params) (r : Nat) (bs : List Byte) (e : Env),
    Sequential cfg e.mem → r + bs.length ≤ 11 → cfg.regs.gpio < cfg.regs.olat →
    (∀ (k : Nat) (h : k < bs.length), memRead (r + k) (deliver cfg r bs e).mem = some bs[k]) ∧
    (∀ (k : Nat) (h : k < bs.length), r + k = cfg.regs.gpio → r + bs.length ≤ cfg.regs.olat →
      (deliver cfg r bs e).latch cfg = bs[k]) ∧
    (∀ a, (∀ k, k < bs.length → ¬ Touches cfg (r + k) a) → memRead a (deliver cfg r bs e).mem = memRead a e.mem) ∧
    (deliver cfg r bs e).ptr = r + bs.length

/-! ## The write primitive -/

/-- WRITE_CMD in NORMAL (R138, R143): the quad as one block, and after a pollable command the direction bit, shadow and
register. -/
def Obligations.WriteCmdInNormal : Prop :=
  ∀ (c : Byte) (bytes : List Byte) (rest : List Draw) (s : State), Ready s → InNormal s → DrawsOk bytes rest s →
    (isPollable s.cfg c = false → bytes.length = 1 → exec (.writeCmd c) s = .next (endedOk (sentCommand c s))) ∧
    (isPollable s.cfg c = true → bytes.length = 2 → exec (.writeCmd c) s = .next (endedOk (sentPollable c s)))

/-- WRITE_CMD in POLL_PENDING with a device that is not busy (R131, R133, R138, R143): the poll's five transactions first. -/
def Obligations.WriteCmdInPending : Prop :=
  ∀ (c x0 x1 b x3 x4 : Byte) (bytes : List Byte) (rest : List Draw) (s : State),
    Ready s → InPending s → busyFlag b = false → DrawsOk ([x0, x1, b, x3, x4] ++ bytes) rest s →
    (isPollable s.cfg c = false → bytes.length = 1 →
      exec (.writeCmd c) s = .next (endedOk (sentCommand c (polled b s)))) ∧
    (isPollable s.cfg c = true → bytes.length = 2 →
      exec (.writeCmd c) s = .next (endedOk (sentPollable c (polled b s))))

/-- WRITE_DATA in NORMAL (R136, R139, R140): the quads of all bytes in order, a block for each eight begun, the last byte of
each block cached; no bytes, no block. -/
def Obligations.WriteDataInNormal : Prop :=
  ∀ (bs bytes : List Byte) (rest : List Draw) (s : State), Ready s → InNormal s →
    DrawsOk bytes rest s → bytes.length = (bs.length + 7) / 8 →
    exec (.writeData bs) s = .next (endedOk (sentData bs s))

/-- WRITE_DATA in POLL_PENDING with a device that is not busy (R131, R133, R139, R140): the poll runs first, for no bytes
too. -/
def Obligations.WriteDataInPending : Prop :=
  ∀ (bs bytes : List Byte) (x0 x1 b x3 x4 : Byte) (rest : List Draw) (s : State),
    Ready s → InPending s → busyFlag b = false → DrawsOk ([x0, x1, b, x3, x4] ++ bytes) rest s →
    bytes.length = (bs.length + 7) / 8 →
    exec (.writeData bs) s = .next (endedOk (sentData bs (polled b s)))

/-- A busy read keeps the poll going (R131 to R134): three transactions, the count one higher, `gpio = lo`, nothing reported; the
step ends there (log 4). So also at the entry of a poll, after its idle pattern: an operation that begins in POLL_PENDING waits
with count 1, its shadow already changed (R191), the writes still to do saved; INIT waits at the poll of any of its writes, those
before it sent; and an operation that has waited once waits again at the poll of a later write. -/
def Obligations.BusyPollIterationWaits : Prop :=
  (∀ (p : Poll) (x0 b x2 : Byte) (rest : List Draw) (s : State),
    s.seq = .polling p → busyFlag b = true → (∀ m, s.cfg.pollMax = some m → p.n + 1 < m) →
    DrawsOk [x0, b, x2] rest s →
    step s = .next { iterated p.lo p.hi b s with seq := .polling { p with n := p.n + 1 } }) ∧
  (∀ (i : Instr) (j : Job) (js : List Job) (x0 x1 b x3 : Byte) (rest : List Draw) (s s' : State),
    Ready s → InPending s → writesOf s i = some (s', j :: js) → busyFlag b = true →
    (∀ m, s.cfg.pollMax = some m → 1 < m) → DrawsOk [x0, x1, b, x3] rest s →
    let lo := (s.gpio &&& 0x01) ||| s.cfg.readbackBit
    exec i s = .next { pollEntered b s' with seq := .polling ⟨1, lo, lo ||| 0x20, .plain, j, js⟩ }) ∧
  (∀ (addr : Byte) (busid : Nat) (sent js : List Job) (j : Job) (x0 x1 x2 y0 y1 b y3 : Byte) (bytes : List Byte)
      (rest : List Draw) (s v : State),
    s.seq = .idle → s.phase = .uninit → DefaultEncodings s.cfg → addr.toNat ≤ 0x7F →
    [cmdJob 0x33, cmdJob 0x32, cmdJob 0x28, cmdJob 0x01, cmdJob 0x14, cmdJob 0x06, cmdJob 0x0C, cmdJob 0x02] = sent ++ j :: js →
    RanQuietly sent bytes (loaded ⟨addr.setWidth 7, busid⟩ s) v → InPending v → busyFlag b = true →
    (∀ m, s.cfg.pollMax = some m → 1 < m) → DrawsOk ([x0, x1, x2] ++ (bytes ++ [y0, y1, b, y3])) rest s →
    let lo := (v.gpio &&& 0x01) ||| 0x40
    exec (.init addr busid) s = .next { pollEntered b v with seq := .polling ⟨1, lo, lo ||| 0x20, .bringUp, j, js⟩ }) ∧
  (∀ (p : Poll) (sent js : List Job) (j : Job) (x0 b x2 x3 y0 y1 c y3 : Byte) (own bytes : List Byte) (rest : List Draw)
      (s v : State),
    s.seq = .polling p → busyFlag b = false → own.length = jobTxns s.cfg p.job → p.rest = sent ++ j :: js →
    DrawsOk ([x0, b, x2, x3] ++ (own ++ (bytes ++ [y0, y1, c, y3]))) rest s →
    let t := iterated p.lo p.hi b s
    let u := wroteDir (t.ddrb &&& ~~~t.cfg.busyDir) t
    RanQuietly sent bytes (sentJob p.job u) v → InPending v → busyFlag c = true → (∀ m, s.cfg.pollMax = some m → 1 < m) →
    let lo := (v.gpio &&& 0x01) ||| v.cfg.readbackBit
    step s = .next { pollEntered c v with seq := .polling ⟨1, lo, lo ||| 0x20, p.op, j, js⟩ })

/-- A read that is not busy ends the poll (R133, R135 to R137): the three transactions, the direction bit cleared in shadow and
register, then the write that waited, then the writes after it, and the operation ends `Ok`, INIT with phase READY (R160). The
first clause is the case of one waiting command, the second any waiting write and any writes after it, each polling once if it
begins in POLL_PENDING. -/
def Obligations.PollExitSendsWaitingCommand : Prop :=
  (∀ (p : Poll) (c x0 b x2 x3 : Byte) (bytes : List Byte) (rest : List Draw) (s : State),
    s.seq = .polling p → p.op = .plain → p.job = ⟨[c], false⟩ → p.rest = [] → busyFlag b = false →
    DrawsOk ([x0, b, x2, x3] ++ bytes) rest s →
    let t := iterated p.lo p.hi b s
    let u := wroteDir (t.ddrb &&& ~~~t.cfg.busyDir) t
    (isPollable s.cfg c = false → bytes.length = 1 → step s = .next (endedOk (sentCommand c u))) ∧
    (isPollable s.cfg c = true → bytes.length = 2 → step s = .next (endedOk (sentPollable c u)))) ∧
  (∀ (p : Poll) (x0 b x2 x3 : Byte) (own bytes : List Byte) (rest : List Draw) (s v : State),
    s.seq = .polling p → busyFlag b = false → DrawsOk ([x0, b, x2, x3] ++ (own ++ bytes)) rest s →
    own.length = jobTxns s.cfg p.job →
    let t := iterated p.lo p.hi b s
    let u := wroteDir (t.ddrb &&& ~~~t.cfg.busyDir) t
    RanQuietly p.rest bytes (sentJob p.job u) v →
    (p.op = .plain → step s = .next (endedOk v)) ∧
    (p.op = .bringUp → step s = .next { endedOk v with phase := .ready }))

/-- DeviceUnresponsive (R134, R203): after the `N`-th busy iteration's block; `gpio = lo`, the direction shadow as it was, no
direction write. With `N = 1` an operation that begins in POLL_PENDING gives up in its first step, its shadow already changed
(R191). INIT that gives up leaves no instance (R164; its shadows: log 7). -/
def Obligations.BoundedPollGivesUp : Prop :=
  (∀ (p : Poll) (x0 b x2 : Byte) (rest : List Draw) (s : State) (m : Nat),
    s.seq = .polling p → s.cfg.pollMax = some m → p.n + 1 = m → busyFlag b = true → DrawsOk [x0, b, x2] rest s →
    let t : State := { iterated p.lo p.hi b s with seq := .idle, outcomes := s.outcomes ++ [.deviceUnresponsive m] }
    (p.op = .plain → step s = .next t) ∧ (p.op = .bringUp → step s = .next (dropInstance t))) ∧
  (∀ (i : Instr) (j : Job) (js : List Job) (x0 x1 b x3 : Byte) (rest : List Draw) (s s' : State),
    Ready s → InPending s → writesOf s i = some (s', j :: js) → busyFlag b = true → s.cfg.pollMax = some 1 →
    DrawsOk [x0, x1, b, x3] rest s →
    exec i s = .next { pollEntered b s' with seq := .idle, outcomes := s.outcomes ++ [.deviceUnresponsive 1] }) ∧
  (∀ (addr : Byte) (busid : Nat) (x0 x1 x2 x3 x4 b x6 : Byte) (rest : List Draw) (s : State),
    s.seq = .idle → s.phase = .uninit → DefaultEncodings s.cfg → addr.toNat ≤ 0x7F → busyFlag b = true →
    s.cfg.pollMax = some 1 → DrawsOk [x0, x1, x2, x3, x4, b, x6] rest s →
    exec (.init addr busid) s = .next (dropInstance { pollEntered b (loaded ⟨addr.setWidth 7, busid⟩ s) with
      seq := .idle, outcomes := s.outcomes ++ [.deviceUnresponsive 1] }))

/-- R204: with no bound, a device that is busy at every read keeps the operation polling for as many steps as one likes, one
iteration a step (log 4): strobe up, read, `[lo, hi, lo]` each time; nothing is reported and no request is taken. -/
def Obligations.UnboundedPollRunsOn : Prop :=
  ∀ (bs : List Byte) (rest : List Draw) (p : Poll) (s : State),
    s.seq = .polling p → s.cfg.pollMax = none → (∀ b ∈ bs, busyFlag b = true) → s.draws = busyDraws bs ++ rest →
    ∃ t, Sys2Proof.core.run bs.length s = .next t ∧ t.seq = .polling { p with n := p.n + bs.length } ∧
      t.outcomes = s.outcomes ∧ t.inbox = s.inbox ∧ t.ddrb = s.ddrb ∧
      t.history = s.history ++ bs.flatMap fun b =>
        [⟨s.handle, .w1 s.cfg.regOut p.hi, .done⟩, ⟨s.handle, .r1, .byte b⟩,
         ⟨s.handle, .wb s.cfg.regOut [p.lo, p.hi, p.lo], .done⟩]

/-- The poll ends when the device does (R70, R134, R141): after as many busy reads as one likes, one iteration a step (log 4),
and one that is not busy, the write that waited is sent, and an operation of one write ends `Ok`; three transactions an
iteration, one direction write, then those of the write. The block is then in NORMAL unless the write was a pollable command. -/
def Obligations.PollEndsWhenDeviceIsReady : Prop :=
  ∀ (bs own : List Byte) (x0 b x2 x3 : Byte) (rest : List Draw) (p : Poll) (s : State),
    s.seq = .polling p → s.cfg.pollMax = none → p.op = .plain → p.rest = [] → s.cfg.busyDir ≠ 0 →
    (∀ y ∈ bs, busyFlag y = true) → busyFlag b = false → own.length = jobTxns s.cfg p.job →
    s.draws = busyDraws bs ++ (([x0, b, x2, x3] ++ own).map Draw.ok ++ rest) →
    ∃ t, Sys2Proof.core.run (bs.length + 1) s = .next t ∧ t.seq = .idle ∧ t.outcomes = s.outcomes ++ [.ok] ∧
      (t.ddrb &&& t.cfg.busyDir = 0 ↔ rearms s.cfg p.job = false) ∧ t.draws = rest ∧
      t.history.length = s.history.length + (3 * (bs.length + 1) + 1 + jobTxns s.cfg p.job)

/-- R142, the rows of the first iteration and after it, for WRITE_CMD in POLL_PENDING, and the two rows of WRITE_CMD in NORMAL:
which transaction the error names, what `gpio` and `ddrb` are, how many transactions were made. -/
def Obligations.FailureStateOfCommandWrite : Prop :=
  ∀ (c x0 x1 b x3 x4 x5 : Byte) (k : Option Nat) (rest : List Draw) (s : State),
    Ready s → DefaultEncodings s.cfg → busyFlag b = false →
    let lo := (s.gpio &&& 0x01) ||| 0x40
    let hi := lo ||| 0x20
    let quad := enc s.cfg (s.gpio &&& 0x01) c
    let last := (s.gpio &&& 0x01) ||| place4 s.cfg.order (lowNybble c)
    let cleared := s.ddrb &&& ~~~s.cfg.busyDir
    let endsIn (n : Nat) (x : Txn) (gpio ddrb : Byte) : Prop :=
      ∃ t, exec (.writeCmd c) s = .next t ∧ t.gpio = gpio ∧ t.ddrb = ddrb ∧ t.seq = .idle ∧
        t.outcomes = s.outcomes ++ [.commError x] ∧ t.history.length = s.history.length + n + 1
    (InPending s →
      (DrawsOk [] (.nack k :: rest) s → endsIn 0 (.w1 s.cfg.regOut lo) s.gpio s.ddrb) ∧
      (DrawsOk [x0] (.nack k :: rest) s → endsIn 1 (.w1 s.cfg.regOut hi) lo s.ddrb) ∧
      (DrawsOk [x0, x1] (.nack k :: rest) s → endsIn 2 .r1 hi s.ddrb) ∧
      (DrawsOk [x0, x1, b] (.nack k :: rest) s → endsIn 3 (.wb s.cfg.regOut [lo, hi, lo]) hi s.ddrb) ∧
      (DrawsOk [x0, x1, b, x3] (.nack k :: rest) s → endsIn 4 (.w1 s.cfg.regs.dir cleared) lo cleared) ∧
      (DrawsOk [x0, x1, b, x3, x4] (.nack k :: rest) s → endsIn 5 (.wb s.cfg.regOut quad) lo cleared) ∧
      (DrawsOk [x0, x1, b, x3, x4, x5] (.nack k :: rest) s → isPollable s.cfg c = true →
        endsIn 6 (.w1 s.cfg.regs.dir (cleared ||| s.cfg.busyDir)) last (cleared ||| s.cfg.busyDir))) ∧
    (InNormal s →
      (DrawsOk [] (.nack k :: rest) s → endsIn 0 (.wb s.cfg.regOut quad) s.gpio s.ddrb) ∧
      (DrawsOk [x0] (.nack k :: rest) s → isPollable s.cfg c = true →
        endsIn 1 (.w1 s.cfg.regs.dir (s.ddrb ||| s.cfg.busyDir)) last (s.ddrb ||| s.cfg.busyDir)))

/-- R142, the rows of a later iteration: the poll that waits fails at its next `W1`, at its read, or at its block. -/
def Obligations.FailureStateOfLaterIteration : Prop :=
  ∀ (p : Poll) (x0 b : Byte) (k : Option Nat) (rest : List Draw) (s : State),
    s.seq = .polling p → p.op = .plain → s.gpio = p.lo →
    let endsIn (n : Nat) (x : Txn) (gpio : Byte) : Prop :=
      ∃ t, step s = .next t ∧ t.gpio = gpio ∧ t.ddrb = s.ddrb ∧ t.seq = .idle ∧
        t.outcomes = s.outcomes ++ [.commError x] ∧ t.history.length = s.history.length + n + 1
    (DrawsOk [] (.nack k :: rest) s → endsIn 0 (.w1 s.cfg.regOut p.hi) p.lo) ∧
    (DrawsOk [x0] (.nack k :: rest) s → endsIn 1 .r1 p.hi) ∧
    (DrawsOk [x0, b] (.nack k :: rest) s → endsIn 2 (.wb s.cfg.regOut [p.lo, p.hi, p.lo]) p.hi)

/-- R136, R142: a data write whose block `j` fails has sent and cached the blocks before it, and only those; of the failing block
that first part has arrived which the draw says (R60). -/
def Obligations.FailureStateOfDataBlock : Prop :=
  ∀ (bs bytes c : List Byte) (sent unsent : List (List Byte)) (k : Option Nat) (rest : List Draw) (s : State),
    Ready s → InNormal s → dataBlocks s bs = sent ++ c :: unsent →
    DrawsOk bytes (.nack k :: rest) s → bytes.length = sent.length →
    let u := sentBlocks sent s
    exec (.writeData bs) s = .next (commFailed (.wb s.cfg.regOut c) (deliverPart s.cfg k s.cfg.regOut c u.env) u)

/-! ## Bring-up and teardown -/

/-- INIT with a device that is not busy at either read (R160 to R163, R37): the 23 transactions, and the end state of the
block. -/
def Obligations.InitCompletes : Prop :=
  ∀ (addr : Byte) (busid : Nat) (bytes : List Byte) (b1 b2 : Byte) (rest : List Draw) (s : State),
    s.seq = .idle → s.phase = .uninit → DefaultEncodings s.cfg → addr.toNat ≤ 0x7F →
    DrawsOk bytes rest s → bytes.length = 23 → bytes[5]? = some b1 → bytes[15]? = some b2 →
    busyFlag b1 = false → busyFlag b2 = false →
    ∃ e, exec (.init addr busid) s = .next { s with
      phase := .ready, handle := some ⟨addr.setWidth 7, busid⟩,
      gpio := 0x04, ddrb := 0x02, displayshift := 0x04, displaymode := 0x02, displaycontrol := 0x04,
      env := e, draws := rest,
      history := s.history ++ initTrace ⟨addr.setWidth 7, busid⟩ b1 b2,
      outcomes := s.outcomes ++ [.ok] }

/-- INIT works from any state of the expander and the controller (R231, R232, R233, R161): afterwards every register is known,
addressing is non-sequential, the output register and the output latch are at the last byte (log 16), the controller has its
4-bit interface on a byte boundary, and its modes are the defaults the shadows hold. That no byte meets a busy controller: log 29
(R245). -/
def Obligations.InitBringsUpAnyEnvironment : Prop :=
  ∀ (addr : Byte) (busid : Nat) (bytes : List Byte) (b1 b2 : Byte) (rest : List Draw) (s t : State),
    s.seq = .idle → s.phase = .uninit → DefaultEncodings s.cfg → addr.toNat ≤ 0x7F →
    DrawsOk bytes rest s → bytes.length = 23 → bytes[5]? = some b1 → bytes[15]? = some b2 →
    busyFlag b1 = false → busyFlag b2 = false → exec (.init addr busid) s = .next t →
    memRead 0 t.env.mem = some 0x02 ∧ memRead 5 t.env.mem = some 0x20 ∧ memRead 9 t.env.mem = some 0x04 ∧
    (∀ r, r ≤ 8 → r ≠ 0 → r ≠ 5 → memRead r t.env.mem = some 0x00) ∧
    memRead 10 t.env.mem = some 0x04 ∧ t.env.latch t.cfg = 0x04 ∧ Synced t ∧ t.env.lcd.eight = false ∧
    t.env.lcd.half = .even ∧ t.env.lcd.exec = .variable ∧ t.env.lcd.twoLine = true ∧ t.env.lcd.font10 = false ∧
    t.env.lcd.moveDisplay = false ∧ t.env.lcd.moveRight = true ∧ t.env.lcd.entryLeft = true ∧
    t.env.lcd.entryShift = false ∧ t.env.lcd.displayOn = true ∧ t.env.lcd.cursorOn = false ∧ t.env.lcd.blinkOn = false

/-- The nybbles 3, 3, 3, 2 bring the controller's interface to a known state from any half-byte phase and either width, and the
next two nybbles are one byte (R233; the pairs half read and half write, and those of two register-select levels: logs 19, 37). -/
def Obligations.InitNybblesResynchronise : Prop :=
  ∀ (l : Lcd) (k1 k2 k3 k4 k5 k6 : Nat) (v : Byte),
    let u := lcdNybble k4 false 2 (lcdNybble k3 false 3 (lcdNybble k2 false 3 (lcdNybble k1 false 3 l)))
    u.eight = false ∧ u.half = .even ∧
      (lcdNybble k6 false (lowNybble v) (lcdNybble k5 false (highNybble v) u)).received = u.received ++ [(false, v)]

/-- A bring-up that ends with an error leaves no instance (R164): whether it ends at once or after polls, either it ends `Ok`
with phase READY, or the phase is as before and the handle is dropped. -/
def Obligations.FailedInitLeavesNoInstance : Prop :=
  (∀ (addr : Byte) (busid : Nat) (s t : State), s.seq = .idle → s.phase = .uninit → addr.toNat ≤ 0x7F →
    exec (.init addr busid) s = .next t → t.seq = .idle →
    (t.outcomes = s.outcomes ++ [.ok] ∧ t.phase = .ready ∧ t.handle = some ⟨addr.setWidth 7, busid⟩) ∨
    ∃ o, o ≠ .ok ∧ t.outcomes = s.outcomes ++ [o] ∧ t.phase = .uninit ∧ t.handle = none) ∧
  (∀ (p : Poll) (s t : State), s.seq = .polling p → p.op = .bringUp → step s = .next t → t.seq = .idle →
    (t.outcomes = s.outcomes ++ [.ok] ∧ t.phase = .ready ∧ t.handle = s.handle) ∨
    ∃ o, o ≠ .ok ∧ t.outcomes = s.outcomes ++ [o] ∧ t.phase = s.phase ∧ t.handle = none)

/-- TEARDOWN (R165): two transactions, no poll first, the instance released and its handle destroyed, the shadows as they were.
If a transaction fails the instance is released all the same. -/
def Obligations.TeardownCompletes : Prop :=
  ∀ (s : State), Ready s →
    (∀ (x0 x1 : Byte) (rest : List Draw), DrawsOk [x0, x1] rest s →
      exec .teardown s = .next { endedOk (wrote (.wb 0 (safeRegs s.cfg)) 0 (safeRegs s.cfg)
        (wrote (.w1 s.cfg.regs.config s.cfg.cfgSeq) s.cfg.regs.config [s.cfg.cfgSeq] s))
        with phase := .released, handle := none }) ∧
    (∀ t, exec .teardown s = .next t →
      t.phase = .released ∧ t.handle = none ∧ t.seq = .idle ∧ t.gpio = s.gpio ∧ t.ddrb = s.ddrb ∧
      t.displayshift = s.displayshift ∧ t.displaymode = s.displaymode ∧ t.displaycontrol = s.displaycontrol)

/-- When an operation is accepted (R26, R30, R166, R191, R205 (a), (c), R209): in a phase that does not admit it, it is refused
before anything is changed and before any transaction, so after TEARDOWN every one is; INIT is refused for an address above 7
bits, the phase being looked at first; and while an operation waits in its poll nothing else happens (the form of that: log 11). -/
def Obligations.AcceptanceGate : Prop :=
  (∀ (i : Instr) (s : State), (hostCode i).isSome = true → s.seq = .idle → s.phase ≠ admittingPhase i →
    exec i s = .next (refusedAs .phase s)) ∧
  (∀ (addr : Byte) (busid : Nat) (s : State), s.seq = .idle → s.phase = .uninit → 0x7F < addr.toNat →
    exec (.init addr busid) s = .next (refusedAs .addrRange s)) ∧
  (∀ (i : Instr) (s : State) (p : Poll), (hostCode i).isSome = true ∨ isBusOp i = true → s.seq = .polling p →
    exec i s = .next s)

/-! ## Display control -/

/-- CLEAR, HOME, DISPLAY_ON/OFF, CURSOR_ON/OFF, BLINK_ON/OFF, TOGGLE_CURSOR, TOGGLE_BLINK, SCROLL_LEFT/RIGHT, LEFT_TO_RIGHT,
RIGHT_TO_LEFT, AUTOSCROLL_ON/OFF in NORMAL (R170 to R185, R191, R192): the shadow takes its new value, then the command is
written. `oneCommand` is the table of R192. -/
def Obligations.OneCommandOperationsInNormal : Prop :=
  ∀ (i : Instr) (c : Byte) (s s' : State) (bytes : List Byte) (rest : List Draw),
    oneCommand s i = some (c, s') → Ready s → InNormal s → DrawsOk bytes rest s →
    (isPollable s.cfg c = false → bytes.length = 1 → exec i s = .next (endedOk (sentCommand c s'))) ∧
    (isPollable s.cfg c = true → bytes.length = 2 → exec i s = .next (endedOk (sentPollable c s')))

/-- The same sixteen operations in POLL_PENDING with a device that is not busy (R170 to R185, R191, R192, R131). -/
def Obligations.OneCommandOperationsInPending : Prop :=
  ∀ (i : Instr) (c x0 x1 b x3 x4 : Byte) (s s' : State) (bytes : List Byte) (rest : List Draw),
    oneCommand s i = some (c, s') → Ready s → InPending s → busyFlag b = false →
    DrawsOk ([x0, x1, b, x3, x4] ++ bytes) rest s →
    (isPollable s.cfg c = false → bytes.length = 1 → exec i s = .next (endedOk (sentCommand c (polled b s')))) ∧
    (isPollable s.cfg c = true → bytes.length = 2 → exec i s = .next (endedOk (sentPollable c (polled b s'))))

/-- The table of R192 in numbers, under the default encodings: shadow and command byte of each of the sixteen operations, and
which of the commands is pollable. -/
def Obligations.ExpansionTable : Prop :=
  ∀ s : State, DefaultEncodings s.cfg →
    oneCommand s .clear = some (0x01, s) ∧
    oneCommand s .home = some (0x02, s) ∧
    oneCommand s .displayOn = some (0x08 ||| (s.displaycontrol ||| 0x04), { s with displaycontrol := s.displaycontrol ||| 0x04 }) ∧
    oneCommand s .displayOff = some (0x08 ||| (s.displaycontrol &&& 0xFB), { s with displaycontrol := s.displaycontrol &&& 0xFB }) ∧
    oneCommand s .cursorOn = some (0x08 ||| (s.displaycontrol ||| 0x02), { s with displaycontrol := s.displaycontrol ||| 0x02 }) ∧
    oneCommand s .cursorOff = some (0x08 ||| (s.displaycontrol &&& 0xFD), { s with displaycontrol := s.displaycontrol &&& 0xFD }) ∧
    oneCommand s .blinkOn = some (0x08 ||| (s.displaycontrol ||| 0x01), { s with displaycontrol := s.displaycontrol ||| 0x01 }) ∧
    oneCommand s .blinkOff = some (0x08 ||| (s.displaycontrol &&& 0xFE), { s with displaycontrol := s.displaycontrol &&& 0xFE }) ∧
    oneCommand s .toggleCursor = some (0x08 ||| (s.displaycontrol ^^^ 0x02), { s with displaycontrol := s.displaycontrol ^^^ 0x02 }) ∧
    oneCommand s .toggleBlink = some (0x08 ||| (s.displaycontrol ^^^ 0x01), { s with displaycontrol := s.displaycontrol ^^^ 0x01 }) ∧
    oneCommand s .scrollLeft = some (0x18, { s with displayshift := 0x08 }) ∧
    oneCommand s .scrollRight = some (0x1C, { s with displayshift := 0x0C }) ∧
    oneCommand s .leftToRight = some (0x04 ||| (s.displaymode ||| 0x02), { s with displaymode := s.displaymode ||| 0x02 }) ∧
    oneCommand s .rightToLeft = some (0x04 ||| (s.displaymode &&& 0xFD), { s with displaymode := s.displaymode &&& 0xFD }) ∧
    oneCommand s .autoscrollOn = some (0x04 ||| (s.displaymode ||| 0x01), { s with displaymode := s.displaymode ||| 0x01 }) ∧
    oneCommand s .autoscrollOff = some (0x04 ||| (s.displaymode &&& 0xFE), { s with displaymode := s.displaymode &&& 0xFE }) ∧
    isPollable s.cfg 0x01 = true ∧ isPollable s.cfg 0x02 = true ∧ isPollable s.cfg 0x03 = false

/-- SET_CURSOR (R186): the address is the column plus the row's base; up to 0x7F the set-address command is written, in NORMAL
and, after the poll, in POLL_PENDING; above it the operation is refused. -/
def Obligations.SetCursorResult : Prop :=
  ∀ (col : Nat) (row : Int) (s : State), Ready s → DefaultEncodings s.cfg → s.cfg.wellFormed = true →
    let r := if row < 0 then 0 else if (s.cfg.numLines : Int) ≤ row then s.cfg.numLines - 1 else row.toNat
    let a := col + [0x00, 0x40, 0x14, 0x54].getD r 0
    (a ≤ 0x7F → InNormal s → ∀ (x : Byte) (rest : List Draw), DrawsOk [x] rest s →
      exec (.setCursor col row) s = .next (endedOk (sentCommand (0x80 ||| BitVec.ofNat 8 a) s))) ∧
    (a ≤ 0x7F → InPending s → ∀ (x0 x1 b x3 x4 x5 : Byte) (rest : List Draw), busyFlag b = false →
      DrawsOk [x0, x1, b, x3, x4, x5] rest s →
      exec (.setCursor col row) s = .next (endedOk (sentCommand (0x80 ||| BitVec.ofNat 8 a) (polled b s)))) ∧
    (0x7F < a → exec (.setCursor col row) s = .next (refusedAs .columnRange s))

/-- R187: a row at or above the line count does what the last row does, a negative one what row 0 does, for every column and
in every state; the row used is one of the table's four; and the rule's own examples, as the command each one writes. -/
def Obligations.RowIsClamped : Prop :=
  (∀ (col : Nat) (row : Int) (s : State), s.cfg.wellFormed = true →
    ((s.cfg.numLines : Int) ≤ row → exec (.setCursor col row) s = exec (.setCursor col ((s.cfg.numLines : Int) - 1)) s) ∧
    (row < 0 → exec (.setCursor col row) s = exec (.setCursor col 0) s) ∧ clampRow s.cfg row < 4) ∧
  (∀ s : State, DefaultEncodings s.cfg → s.cfg.numLines = 2 →
    exec (.setCursor 3 7) s = exec (.writeCmd 0xC3) s ∧ exec (.setCursor 3 (-2)) s = exec (.writeCmd 0x83) s ∧
    ∀ col, exec (.setCursor col 2) s = exec (.setCursor col 1) s) ∧
  (∀ s : State, DefaultEncodings s.cfg → s.cfg.numLines = 4 →
    exec (.setCursor 0 2) s = exec (.writeCmd 0x94) s ∧ exec (.setCursor 0 3) s = exec (.writeCmd 0xD4) s ∧
    exec (.setCursor 2 9) s = exec (.writeCmd 0xD6) s ∧ ∀ col, exec (.setCursor col 9) s = exec (.setCursor col 3) s)

/-- DEFINE_GLYPH (R188, R189): the CGRAM address, the eight bytes as one block, DDRAM address 0; in NORMAL and, after the poll,
in POLL_PENDING. A slot above 7 or a bitmap that is not 8 bytes is refused (R205 (c)). -/
def Obligations.DefineGlyphResult : Prop :=
  ∀ (slot : Byte) (bm : List Byte) (s : State), Ready s → DefaultEncodings s.cfg →
    let sent (t : State) : State := sentCommand 0x80 (sentData bm (sentCommand (0x40#8 ||| (slot <<< 3)) t))
    (slot.toNat ≤ 7 → bm.length = 8 → InNormal s → ∀ (x0 x1 x2 : Byte) (rest : List Draw), DrawsOk [x0, x1, x2] rest s →
      exec (.defineGlyph slot bm) s = .next (endedOk (sent s))) ∧
    (slot.toNat ≤ 7 → bm.length = 8 → InPending s → ∀ (x0 x1 b x3 x4 x5 x6 x7 : Byte) (rest : List Draw),
      busyFlag b = false → DrawsOk [x0, x1, b, x3, x4, x5, x6, x7] rest s →
      exec (.defineGlyph slot bm) s = .next (endedOk (sent (polled b s)))) ∧
    ((7 < slot.toNat ∨ bm.length ≠ 8) → exec (.defineGlyph slot bm) s = .next (refusedAs .glyphRange s))

/-- WRITE_TEXT in NORMAL and in POLL_PENDING (R190): the first line as data, then for each further line the jump to the second
row and the line as data. -/
def Obligations.WriteTextResult : Prop :=
  ∀ (text bytes : List Byte) (rest : List Draw) (s : State), Ready s → DefaultEncodings s.cfg →
    bytes.length = lineTxns (splitLines 0x0A text) →
    (InNormal s → DrawsOk bytes rest s → exec (.writeText text) s = .next (endedOk (sentLines (splitLines 0x0A text) s))) ∧
    (InPending s → ∀ x0 x1 b x3 x4 : Byte, busyFlag b = false → DrawsOk ([x0, x1, b, x3, x4] ++ bytes) rest s →
      exec (.writeText text) s = .next (endedOk (sentLines (splitLines 0x0A text) (polled b s))))

/-- The lines of a text (R190): `k` newlines give `k + 1` lines, none holds a newline, and joined by newlines they are the
text. -/
def Obligations.LinesOfAText : Prop :=
  ∀ (nl : Byte) (text : List Byte),
    (splitLines nl text).length = text.count nl + 1 ∧ (∀ l ∈ splitLines nl text, nl ∉ l) ∧
    [nl].intercalate (splitLines nl text) = text

/-! ## The controller -/

/-- The eight commands at the controller (R91): each writes the registers of its kind and nothing else, of the controller or of
the block (what is kept of a command: log 21). -/
def Obligations.ControllerCommands : Prop :=
  ∀ s : State,
    let at_ (l : Lcd) : State := { s with env := { s.env with lcd := l } }
    (∀ a, exec (.ctlSetDdram a) s = .next (at_ { s.env.lcd with addr := .ddram a, exec := .fixed })) ∧
    (∀ a, exec (.ctlSetCgram a) s = .next (at_ { s.env.lcd with addr := .cgram a, exec := .fixed })) ∧
    (∀ d n f x, exec (.ctlFunctionSet d n f x) s =
      .next (at_ { s.env.lcd with eight := d, twoLine := n, font10 := f, exec := .fixed })) ∧
    (∀ m r x, exec (.ctlShift m r x) s = .next (at_ { s.env.lcd with moveDisplay := m, moveRight := r, exec := .fixed })) ∧
    (∀ d c b, exec (.ctlDisplayControl d c b) s =
      .next (at_ { s.env.lcd with displayOn := d, cursorOn := c, blinkOn := b, exec := .fixed })) ∧
    (∀ i m, exec (.ctlEntryMode i m) s = .next (at_ { s.env.lcd with entryLeft := i, entryShift := m, exec := .fixed })) ∧
    (∀ x, exec (.ctlHome x) s = .next (at_ { s.env.lcd with exec := .variable })) ∧
    exec .ctlClear s = .next (at_ { s.env.lcd with exec := .variable })

/-- A command written to a controller that is in step is the command it takes (R62, R91, R123): the quad's two strobe falls
give it exactly that byte, and it does what the byte says, from NORMAL and, after the poll, from POLL_PENDING; expander and
controller stay in step unless the byte itself selects the 8-bit interface. That no byte meets a busy controller: log 29
(R245, R246). -/
def Obligations.ControllerTakesTheCommand : Prop :=
  ∀ (c : Byte) (s t : State),
    Ready s → DefaultEncodings s.cfg → Synced s → CompletesAtOnce (if isPollable s.cfg c then 2 else 1) s →
    exec (.writeCmd c) s = .next t →
    let l : Lcd := { s.env.lcd with
      received := s.env.lcd.received ++ [(false, c)], samples := t.env.lcd.samples, exec := .fixed }
    t.env.lcd = (match decodeCmd8 c with
      | some cmd => lcdCommand cmd l
      | none => l) ∧
    ((∀ n f y, decodeCmd8 c ≠ some (.functionSet true n f y)) → Synced t)

/-- Data written to a controller that is in step arrives whole and in order (R54, R62, R136), from NORMAL and, after the poll,
from POLL_PENDING: every byte once, as data, and the controller stays in step. That no byte meets a busy controller: log 29
(R245). -/
def Obligations.ControllerTakesTheData : Prop :=
  ∀ (bs : List Byte) (s t : State),
    Ready s → DefaultEncodings s.cfg → Synced s → CompletesAtOnce ((bs.length + 7) / 8) s →
    exec (.writeData bs) s = .next t →
    t.env.lcd.received = s.env.lcd.received ++ bs.map (fun b => (true, b)) ∧ Synced t

/-- The shadows are what the controller holds (R23, R40): after an operation on a display-mode shadow that reached a controller
in step, from NORMAL or, after the poll, from POLL_PENDING, the bits of its kind in the controller are the bits of the shadow.
That no byte meets a busy controller: log 29 (R245, R246). -/
def Obligations.DisplayShadowMatchesController : Prop :=
  ∀ (i : Instr) (s t : State), Ready s → DefaultEncodings s.cfg → Synced s → CompletesAtOnce 1 s → exec i s = .next t →
    (mayChangeControl i = true → s.displaycontrol ≤ 0x07 →
      t.env.lcd.displayOn = t.displaycontrol.getLsbD 2 ∧ t.env.lcd.cursorOn = t.displaycontrol.getLsbD 1 ∧
      t.env.lcd.blinkOn = t.displaycontrol.getLsbD 0 ∧ Synced t) ∧
    (mayChangeMode i = true → s.displaymode ≤ 0x03 →
      t.env.lcd.entryLeft = t.displaymode.getLsbD 1 ∧ t.env.lcd.entryShift = t.displaymode.getLsbD 0 ∧ Synced t) ∧
    (mayChangeShift i = true →
      t.env.lcd.moveDisplay = t.displayshift.getLsbD 3 ∧ t.env.lcd.moveRight = t.displayshift.getLsbD 2 ∧ Synced t)

/-! ## Frames -/

/-- What a host operation other than INIT and TEARDOWN leaves unchanged, however it ends (R191, R138, R139, R25, R26): the
configuration, the phase, the handle, the queue, and each display-mode shadow that is not its own; the history and the outcomes
only grow. In READY its own shadow has the new value however it ends: `Ok`, waiting in a poll, given up or failed (R191, R250 (a)). -/
def Obligations.FrameOfWritingOperations : Prop :=
  ∀ (i : Instr) (s t : State), writesOnly i = true → exec i s = .next t →
    t.cfg = s.cfg ∧ t.phase = s.phase ∧ t.handle = s.handle ∧ t.inbox = s.inbox ∧ t.result = s.result ∧
    (mayChangeControl i = false → t.displaycontrol = s.displaycontrol) ∧
    (mayChangeMode i = false → t.displaymode = s.displaymode) ∧
    (mayChangeShift i = false → t.displayshift = s.displayshift) ∧
    (∀ c s', oneCommand s i = some (c, s') → Ready s →
      t.displaycontrol = s'.displaycontrol ∧ t.displaymode = s'.displaymode ∧ t.displayshift = s'.displayshift) ∧
    s.history <+: t.history ∧ s.outcomes <+: t.outcomes

/-- The registers of the expander such an operation leaves unchanged in non-sequential mode, however it ends (R51, R116): all
but the output register, where its bytes go, the output latch with it (R55), and the direction register; in NORMAL, an operation
that does not end in POLL_PENDING changes the output register and the latch only. -/
def Obligations.ExpanderFrameOfWritingOperations : Prop :=
  ∀ (i : Instr) (s t : State), writesOnly i = true → DefaultEncodings s.cfg → NonSequential s.cfg s.env.mem →
    exec i s = .next t →
    (∀ a, ¬ Touches s.cfg s.cfg.regOut a → a ≠ s.cfg.regs.dir → memRead a t.env.mem = memRead a s.env.mem) ∧
    (InNormal s → endsPending s.cfg i = false →
      ∀ a, ¬ Touches s.cfg s.cfg.regOut a → memRead a t.env.mem = memRead a s.env.mem)

/-- What the step of a waiting operation leaves unchanged (R133, R137, R191), for every operation but INIT, whose failure clears
the shadows (R164); and what INIT and TEARDOWN leave unchanged, however they end (R160, R165). -/
def Obligations.FrameOfResumedAndLifecycle : Prop :=
  (∀ (p : Poll) (s t : State), s.seq = .polling p → p.op = .plain → step s = .next t →
    t.cfg = s.cfg ∧ t.phase = s.phase ∧ t.handle = s.handle ∧ t.inbox = s.inbox ∧ t.result = s.result ∧
    t.displaycontrol = s.displaycontrol ∧ t.displaymode = s.displaymode ∧ t.displayshift = s.displayshift ∧
    (DefaultEncodings s.cfg → NonSequential s.cfg s.env.mem →
      ∀ a, ¬ Touches s.cfg s.cfg.regOut a → a ≠ s.cfg.regs.dir → memRead a t.env.mem = memRead a s.env.mem)) ∧
  (∀ (addr : Byte) (busid : Nat) (s t : State), exec (.init addr busid) s = .next t →
    t.cfg = s.cfg ∧ t.inbox = s.inbox ∧ t.result = s.result ∧ s.history <+: t.history ∧ s.outcomes <+: t.outcomes) ∧
  (∀ s t : State, exec .teardown s = .next t →
    t.cfg = s.cfg ∧ t.inbox = s.inbox ∧ t.result = s.result ∧ s.history <+: t.history ∧ s.outcomes <+: t.outcomes ∧
    t.gpio = s.gpio ∧ t.ddrb = s.ddrb ∧ t.displayshift = s.displayshift ∧ t.displaymode = s.displaymode ∧
    t.displaycontrol = s.displaycontrol)

/-! ## Rules about the whole block -/

/-- The direction bit (R39, R143): a host operation that ends `Ok` in one step leaves POLL_PENDING exactly if it is CLEAR, HOME
or WRITE_CMD of a pollable command; one that had to wait, INIT among them, exactly if its last write is one pollable command
byte. -/
def Obligations.DirectionBitTellsTheLastWrite : Prop :=
  (∀ (i : Instr) (s t : State), writesOnly i = true → Ready s → DefaultEncodings s.cfg → exec i s = .next t →
    t.outcomes = s.outcomes ++ [.ok] →
    (t.ddrb &&& t.cfg.busyDir ≠ 0 ↔ endsPending s.cfg i = true)) ∧
  (∀ (p : Poll) (s t : State), s.seq = .polling p → DefaultEncodings s.cfg → step s = .next t →
    t.outcomes = s.outcomes ++ [.ok] →
    (t.ddrb &&& t.cfg.busyDir ≠ 0 ↔ ∃ c, (p.job :: p.rest).getLast? = some ⟨[c], false⟩ ∧ isPollable s.cfg c = true))

/-- The expander's register file stays canonical and within the eleven registers (R50), whatever step is made. -/
def Obligations.MemoryStaysCanonical : Prop :=
  ∀ s t : State, MemoryOk s → step s = .next t → MemoryOk t

/-- The block's invariant (R22, R25, R26, R41, R83, R193) is kept by every step: the shared bit is 0, the direction shadow is
0x00 or 0x02, the mode shadows stay in their ranges, a poll runs with 0x40 and 0x60, the handle is open exactly while READY. -/
def Obligations.BlockInvariantKept : Prop :=
  ∀ s t : State, BlockOk s → step s = .next t → BlockOk t

/-- Every transaction the host's requests can cause is one the spec lists (R51, R59, R98, R116): registers 5, 0 and 9 with these
values, blocks of whole quads, at most eight. -/
def Obligations.OnlyAllowedTransactions : Prop :=
  ∀ s t : State, BlockOk s → HostOnly s → HistoryOk s → step s = .next t → HostOnly t ∧ HistoryOk t

/-- The bounded poll (R134, R203): the block never waits after as many iterations as the bound, and DeviceUnresponsive carries
the bound. -/
def Obligations.PollBoundKept : Prop :=
  ∀ s t : State, s.cfg.wellFormed = true → PollCountOk s → GiveUpOk s → step s = .next t →
    t.cfg = s.cfg ∧ PollCountOk t ∧ GiveUpOk t

/-- The invariants above hold at reset. -/
def Obligations.InvariantsAtReset : Prop :=
  MemoryOk State.reset ∧ BlockOk State.reset ∧ HostOnly State.reset ∧ HistoryOk State.reset ∧
    State.reset.cfg.wellFormed = true ∧ PollCountOk State.reset ∧ GiveUpOk State.reset

/-- What a step reports (R200, R201, R210): a failed transaction is the last event of its operation and the outcome names it;
otherwise no event failed; a refusal comes before any transaction; at most one outcome is added. -/
def Obligations.OutcomesFitTheHistory : Prop :=
  ∀ s t : State, step s = .next t → Reported s t

/-- Every transaction is addressed to the open handle, those of INIT to its own operands, and what an open handle names stays
until it is dropped (R71): all events of an instance carry one address and one bus. -/
def Obligations.TransactionsAddressTheHandle : Prop :=
  (∀ (i : Instr) (s t : State), (∀ addr busid, i ≠ .init addr busid) → exec i s = .next t →
    (t.handle = s.handle ∨ t.handle = none) ∧ ∃ new, t.history = s.history ++ new ∧ ∀ e ∈ new, e.dest = s.handle) ∧
  (∀ (addr : Byte) (busid : Nat) (s t : State), exec (.init addr busid) s = .next t →
    (t.handle = s.handle ∨ t.handle = some ⟨addr.setWidth 7, busid⟩ ∨ t.handle = none) ∧
    ∃ new, t.history = s.history ++ new ∧ ∀ e ∈ new, e.dest = some ⟨addr.setWidth 7, busid⟩) ∧
  (∀ (p : Poll) (s t : State), s.seq = .polling p → step s = .next t →
    (t.handle = s.handle ∨ t.handle = none) ∧ ∃ new, t.history = s.history ++ new ∧ ∀ e ∈ new, e.dest = s.handle)

/-- The block sees the environment only through its draws (R35, R67, R70): whatever the expander and the controller hold, the
same step is made and only they end differently. -/
def Obligations.BlockIsBlindToTheEnvironment : Prop :=
  ∀ (s t : State) (e : Env), step s = .next t → ∃ e', step { s with env := e } = .next { t with env := e' }

/-- Only bit 0 of `gpio` matters (R21, R212): two states that agree but for bits 7:1 of it make the same step, and agree again
but for those bits. -/
def Obligations.OnlySharedBitOfGpioMatters : Prop :=
  ∀ (s t : State) (g : Byte), g &&& 0x01 = s.gpio &&& 0x01 → step s = .next t →
    ∃ g', step { s with gpio := g } = .next { t with gpio := g' } ∧ g' &&& 0x01 = t.gpio &&& 0x01
end

