-- ==== Sys2Proof/Laws/Codec.lean ====
section
/-! SUPPORT. The operand layouts read back what they write: numbers, signed numbers, byte strings, quads, command bytes. -/

namespace Sys2Proof.Laws

theorem toNat_small (n : Nat) (h : n < 256) : (BitVec.ofNat 8 n).toNat = n := by
  rw [BitVec.toNat_ofNat]; omega

theorem decNat_encNatFuel (fuel n : Nat) (h : n ≤ fuel) (rest : List Byte) :
    decNat (encNatFuel fuel n ++ rest) = .ok (n, rest) := by
  induction fuel generalizing n with
  | zero =>
    obtain rfl : n = 0 := by omega
    simp [encNatFuel, decNat]
  | succ fuel ih =>
    unfold encNatFuel
    split
    · rename_i hn
      have := toNat_small n (by omega)
      simp [decNat, this, hn]
    · rename_i hn
      have := toNat_small (n % 128 + 128) (by omega)
      rw [List.cons_append, decNat, this, if_neg (by omega), ih (n / 128) (by omega)]
      have : n % 128 + 128 - 128 + 128 * (n / 128) = n := by omega
      simp only [this]

theorem decNat_encNat (n : Nat) (rest : List Byte) : decNat (encNat n ++ rest) = .ok (n, rest) :=
  decNat_encNatFuel n n (Nat.le_refl n) rest

theorem decInt_encIntFuel (fuel : Nat) (i : Int) (h : i.natAbs ≤ fuel) (rest : List Byte) :
    decInt (encIntFuel fuel i ++ rest) = .ok (i, rest) := by
  induction fuel generalizing i with
  | zero =>
    obtain rfl : i = 0 := by omega
    simp [encIntFuel, decInt]
  | succ fuel ih =>
    unfold encIntFuel
    split
    · rename_i hi
      have := toNat_small i.toNat (by omega)
      rw [List.singleton_append, decInt, this, if_pos (by omega), Int.toNat_of_nonneg hi.1]
    · split
      · rename_i _ hi
        have := toNat_small (i + 128).toNat (by omega)
        rw [List.singleton_append, decInt, this, if_neg (by omega), if_pos (by omega), Int.toNat_of_nonneg (by omega)]
        have : i + 128 - 128 = i := by omega
        rw [this]
      · rename_i h1 h2
        have := toNat_small ((i % 128).toNat + 128) (by omega)
        rw [List.cons_append, decInt, this, if_neg (by omega), if_neg (by omega), ih (i / 128) (by omega)]
        have : (((i % 128).toNat + 128 : Nat) : Int) - 128 + 128 * (i / 128) = i := by omega
        simp only [this]

theorem decInt_encInt (i : Int) (rest : List Byte) : decInt (encInt i ++ rest) = .ok (i, rest) :=
  decInt_encIntFuel i.natAbs i (Nat.le_refl _) rest

theorem decBytes_append (bs rest : List Byte) : decBytes bs.length (bs ++ rest) = .ok (bs, rest) := by
  simp [decBytes]

theorem decCounted_encCounted (bs rest : List Byte) : decCounted (encCounted bs ++ rest) = .ok (bs, rest) := by
  rw [encCounted, List.append_assoc, decCounted, decNat_encNat]
  exact decBytes_append bs rest

/-- A packet whose decoder takes all its bytes. -/
theorem decode_whole {o : NybbleOrder} {port : Port} {bytes : List Byte} {i : Instr} (h : decodeAt o port bytes = .ok (i, [])) :
    decode o ⟨port, bytes⟩ = .ok i := by
  simp [decode, h]

theorem decNat_encNat_end (n : Nat) : decNat (encNat n) = .ok (n, []) := by
  simpa using decNat_encNat n []

theorem decInt_encInt_end (i : Int) : decInt (encInt i) = .ok (i, []) := by
  simpa using decInt_encInt i []

theorem decCounted_encCounted_end (bs : List Byte) : decCounted (encCounted bs) = .ok (bs, []) := by
  simpa using decCounted_encCounted bs []

/-- The controller's decoding of a command byte undoes the encoding. -/
theorem decodeCmd8_encodeCmd8 (c : LcdCmd) : decodeCmd8 (encodeCmd8 c) = some c := by
  cases c with
  | setDdram a => revert a; decide
  | setCgram a => revert a; decide
  | functionSet d n f x => revert d n f x; decide
  | shift s r x => revert s r x; decide
  | displayControl d c b => revert d c b; decide
  | entryMode i s => revert i s; decide
  | home x => revert x; decide
  | clear => rfl

/-- A byte of a quad, strobe clear, gives back its mask (of bits 7 and 0) and its nybble. -/
theorem quad_byte (o : NybbleOrder) (mask : Byte) (n : Nybble) (h : mask &&& 0x7E = 0) :
    (mask ||| Machine.place4 o n) &&& 0x81 = mask ∧ nybbleOfByte o (mask ||| Machine.place4 o n) = n := by
  have hm : mask = 0x00 ∨ mask = 0x01 ∨ mask = 0x80 ∨ mask = 0x81 := by
    revert h; revert mask; decide
  rcases hm with rfl | rfl | rfl | rfl <;> cases o <;> (revert n; decide)

theorem nybbles_of_byte (v : Byte) : (Machine.highNybble v ++ Machine.lowNybble v : BitVec 8) = v := by
  revert v; decide

theorem decodeQuad_quadWord (o : NybbleOrder) (mask v : Byte) (h : mask &&& 0x7E = 0) (rest : List Byte) :
    decodeQuad o (quadWord o mask v ++ rest) = .ok (.encodeNybbles mask v, rest) := by
  have h1 := quad_byte o mask (Machine.highNybble v) h
  have h2 := quad_byte o mask (Machine.lowNybble v) h
  simp only [quadWord, List.cons_append, List.nil_append, decodeQuad, h1.1, h1.2, h2.2, nybbles_of_byte, if_true]

end Sys2Proof.Laws
end

