-- ==== Sys2Proof/Laws/Defaults.lean ====
section
/-! SUPPORT. The parameters of a configuration with the default encodings. -/

namespace Sys2Proof.Laws

open Sys2Proof.Machine Sys2Proof.Safety

theorem default_regs {cfg : Params} (h : DefaultEncodings cfg) : cfg.regs = regNumbersDefault := by rw [h]; rfl

theorem default_regOut {cfg : Params} (h : DefaultEncodings cfg) : cfg.regOut = 9 := by rw [h]; rfl

theorem default_cfgSeq {cfg : Params} (h : DefaultEncodings cfg) : cfg.cfgSeq = 0x00 := by rw [h]; rfl

theorem default_cfgNonseq {cfg : Params} (h : DefaultEncodings cfg) : cfg.cfgNonseq = 0x20 := by rw [h]; rfl

theorem default_rsBit {cfg : Params} (h : DefaultEncodings cfg) : cfg.rsBit = 0x80 := by rw [h]; rfl

theorem default_readbackBit {cfg : Params} (h : DefaultEncodings cfg) : cfg.readbackBit = 0x40 := by rw [h]; rfl

theorem default_order {cfg : Params} (h : DefaultEncodings cfg) : cfg.order = .straight := by rw [h]; rfl

theorem default_busyDir {cfg : Params} (h : DefaultEncodings cfg) : cfg.busyDir = 0x02 := by rw [h]; rfl

theorem default_ddrInit {cfg : Params} (h : DefaultEncodings cfg) : cfg.ddrInit = 0x02 := by rw [h]; rfl

theorem default_pollable {cfg : Params} (h : DefaultEncodings cfg) : cfg.pollable = [0x01, 0x02] := by rw [h]; rfl

theorem default_cmdHome {cfg : Params} (h : DefaultEncodings cfg) : cfg.cmdHome = 0x02 := by rw [h]; rfl

theorem default_cmdEntry {cfg : Params} (h : DefaultEncodings cfg) : cfg.cmdEntry = 0x04 := by rw [h]; rfl

theorem default_flagEntryLeft {cfg : Params} (h : DefaultEncodings cfg) : cfg.flagEntryLeft = 0x02 := by rw [h]; rfl

theorem default_flagEntryShift {cfg : Params} (h : DefaultEncodings cfg) : cfg.flagEntryShift = 0x01 := by rw [h]; rfl

theorem default_cmdDisplay {cfg : Params} (h : DefaultEncodings cfg) : cfg.cmdDisplay = 0x08 := by rw [h]; rfl

theorem default_flagDisplayOn {cfg : Params} (h : DefaultEncodings cfg) : cfg.flagDisplayOn = 0x04 := by rw [h]; rfl

theorem default_flagCursorOn {cfg : Params} (h : DefaultEncodings cfg) : cfg.flagCursorOn = 0x02 := by rw [h]; rfl

theorem default_flagBlinkOn {cfg : Params} (h : DefaultEncodings cfg) : cfg.flagBlinkOn = 0x01 := by rw [h]; rfl

theorem default_cmdShift {cfg : Params} (h : DefaultEncodings cfg) : cfg.cmdShift = 0x10 := by rw [h]; rfl

theorem default_flagDisplayMove {cfg : Params} (h : DefaultEncodings cfg) : cfg.flagDisplayMove = 0x08 := by rw [h]; rfl

theorem default_flagMoveRight {cfg : Params} (h : DefaultEncodings cfg) : cfg.flagMoveRight = 0x04 := by rw [h]; rfl

theorem default_cmdFunction {cfg : Params} (h : DefaultEncodings cfg) : cfg.cmdFunction = 0x20 := by rw [h]; rfl

theorem default_flag8Bit {cfg : Params} (h : DefaultEncodings cfg) : cfg.flag8Bit = 0x10 := by rw [h]; rfl

theorem default_flag2Line {cfg : Params} (h : DefaultEncodings cfg) : cfg.flag2Line = 0x08 := by rw [h]; rfl

theorem default_flag5x10 {cfg : Params} (h : DefaultEncodings cfg) : cfg.flag5x10 = 0x04 := by rw [h]; rfl

theorem default_cmdSetCgram {cfg : Params} (h : DefaultEncodings cfg) : cfg.cmdSetCgram = 0x40 := by rw [h]; rfl

theorem default_cmdSetDdram {cfg : Params} (h : DefaultEncodings cfg) : cfg.cmdSetDdram = 0x80 := by rw [h]; rfl

theorem default_shiftInit {cfg : Params} (h : DefaultEncodings cfg) : cfg.shiftInit = 0x04 := by rw [h]; rfl

theorem default_modeInit {cfg : Params} (h : DefaultEncodings cfg) : cfg.modeInit = 0x02 := by rw [h]; rfl

theorem default_ctrlInit {cfg : Params} (h : DefaultEncodings cfg) : cfg.ctrlInit = 0x04 := by rw [h]; rfl

theorem default_newline {cfg : Params} (h : DefaultEncodings cfg) : cfg.newline = 0x0A := by rw [h]; rfl

theorem default_safeRegs {cfg : Params} (h : DefaultEncodings cfg) : safeRegs cfg = safeRegs paramsDefault := by
  rw [safeRegs, default_ddrInit h]; rfl

theorem default_enc {cfg : Params} (h : DefaultEncodings cfg) (mask v : Byte) : enc cfg mask v = enc paramsDefault mask v := by
  simp only [enc, default_order h]; rfl

end Sys2Proof.Laws
end

