-- ==== Sys2Proof/Laws/Memory.lean ====
section
/-! SUPPORT. The register file as a canonical list: read after write, other registers, the canonical form kept. -/

namespace Sys2Proof.Laws

open Sys2Proof.Machine Sys2Proof.Safety

theorem memRead_memWrite_same (a : Nat) (v : Byte) (m : Memory) : memRead a (memWrite a v m) = some v := by
  induction m with
  | nil => simp [memWrite, memRead]
  | cons c m ih =>
    unfold memWrite
    split
    · simp [memRead]
    · split
      · simp [memRead]
      · rename_i h1 h2
        have : c.1 ≠ a := fun h => h2 h.symm
        simp [memRead, this, ih]

theorem memRead_memWrite_other (a b : Nat) (v : Byte) (m : Memory) (h : b ≠ a) :
    memRead b (memWrite a v m) = memRead b m := by
  induction m with
  | nil => simp [memWrite, memRead, h.symm]
  | cons c m ih =>
    unfold memWrite
    split
    · simp [memRead, h.symm]
    · split
      · rename_i h1 h2
        have : c.1 ≠ b := fun e => h (by omega)
        simp [memRead, h.symm, this]
      · simp only [memRead, ih]

/-- A write lists nothing but the register written and what was listed. -/
theorem mem_memWrite {a : Nat} {v : Byte} {m : Memory} {c : Host.Cell} (h : c ∈ memWrite a v m) :
    c = (a, v) ∨ c ∈ m := by
  induction m with
  | nil => simpa [memWrite] using h
  | cons d m ih =>
    unfold memWrite at h
    split at h
    · simpa using h
    · split at h
      · rcases List.mem_cons.1 h with h | h
        · exact .inl h
        · exact .inr (List.mem_cons_of_mem _ h)
      · rcases List.mem_cons.1 h with h | h
        · exact .inr (h ▸ List.mem_cons_self)
        · exact (ih h).imp id (List.mem_cons_of_mem _)

theorem memWrite_wf (a : Nat) (v : Byte) (m : Memory) (h : Memory.wf m) : Memory.wf (memWrite a v m) := by
  induction m with
  | nil => simp [memWrite, Memory.wf]
  | cons d m ih =>
    have hd := List.pairwise_cons.1 h
    unfold memWrite
    split
    · rename_i hlt
      refine List.pairwise_cons.2 ⟨fun c hc => ?_, h⟩
      rcases List.mem_cons.1 hc with rfl | hc
      · exact hlt
      · exact Nat.lt_trans hlt (hd.1 c hc)
    · split
      · rename_i _ he
        refine List.pairwise_cons.2 ⟨fun c hc => ?_, hd.2⟩
        have := hd.1 c hc
        simp only; omega
      · rename_i h1 h2
        refine List.pairwise_cons.2 ⟨fun c hc => ?_, ih hd.2⟩
        rcases mem_memWrite hc with rfl | hc
        · simp only; omega
        · exact hd.1 c hc

theorem memWrite_inRange (a : Nat) (v : Byte) (m : Memory) (ha : a < nregs) (h : memInRange m) :
    memInRange (memWrite a v m) := by
  intro c hc
  rcases mem_memWrite hc with rfl | hc
  · exact ha
  · exact h c hc

/-! ## A store -/

/-- A store lands in its register. -/
theorem memRead_storeFile_same (cfg : Params) (r : Nat) (v : Byte) (m : Memory) : memRead r (storeFile cfg r v m) = some v := by
  unfold storeFile
  split
  · by_cases h : r = cfg.regs.olat
    · rw [← h, memRead_memWrite_same]
    · rw [memRead_memWrite_other _ _ _ _ h, memRead_memWrite_same]
  · exact memRead_memWrite_same r v m

/-- A store to GPIO sets the output latch. -/
theorem memRead_storeFile_latch (cfg : Params) (r : Nat) (v : Byte) (m : Memory) (h : r = cfg.regs.gpio ∨ r = cfg.regs.olat) :
    memRead cfg.regs.olat (storeFile cfg r v m) = some v := by
  by_cases hg : r = cfg.regs.gpio
  · rw [storeFile, if_pos hg, memRead_memWrite_same]
  · rw [storeFile, if_neg hg, h.resolve_left hg, memRead_memWrite_same]

/-- A store leaves every register it does not touch. -/
theorem memRead_storeFile_other (cfg : Params) (r a : Nat) (v : Byte) (m : Memory) (h : ¬ Touches cfg r a) :
    memRead a (storeFile cfg r v m) = memRead a m := by
  have hr : a ≠ r := fun e => h (.inl e)
  unfold storeFile
  split
  · rename_i hg
    rw [memRead_memWrite_other _ _ _ _ (fun e => h (.inr ⟨hg, e⟩)), memRead_memWrite_other _ _ _ _ hr]
  · exact memRead_memWrite_other r a v m hr

theorem storeFile_wf (cfg : Params) (r : Nat) (v : Byte) (m : Memory) (h : Memory.wf m) : Memory.wf (storeFile cfg r v m) := by
  unfold storeFile
  split
  · exact memWrite_wf _ _ _ (memWrite_wf r v m h)
  · exact memWrite_wf r v m h

theorem storeFile_inRange (cfg : Params) (r : Nat) (v : Byte) (m : Memory) (hr : r < nregs) (ho : cfg.regs.olat < nregs)
    (h : memInRange m) : memInRange (storeFile cfg r v m) := by
  unfold storeFile
  split
  · exact memWrite_inRange _ _ _ ho (memWrite_inRange r v m hr h)
  · exact memWrite_inRange r v m hr h

/-- The latch is what register OLAT is known to hold. -/
theorem latch_known {cfg : Params} {e : Env} {v : Byte} (h : memRead cfg.regs.olat e.mem = some v) : e.latch cfg = v := by
  simp [Env.latch, regValue, h]

end Sys2Proof.Laws
end

