-- ==== Sys2Proof/Laws/Expander.lean ====
section
/-! SUPPORT. What a delivery to the expander can do. -/

namespace Sys2Proof.Laws

open Sys2Proof.Machine Sys2Proof.Safety

/-- What is asked of the register file by `MemoryOk`. -/
def FileOk (cfg : Params) (m : Memory) : Prop := Memory.wf m ∧ memInRange m ∧ cfg.regs.olat < nregs

@[simp] theorem storeReg_mem (cfg : Params) (r : Nat) (v : Byte) (e : Env) : (storeReg cfg r v e).mem = storeFile cfg r v e.mem := rfl

@[simp] theorem storeReg_ptr (cfg : Params) (r : Nat) (v : Byte) (e : Env) : (storeReg cfg r v e).ptr = e.ptr := rfl

theorem storeAt_inside (cfg : Params) (a : Nat) (v : Byte) (e : Env) (h : a < nregs) :
    storeAt cfg a v e = storeReg cfg a v e := by
  simp [storeAt, h]

@[simp] theorem storeAt_ptr (cfg : Params) (a : Nat) (v : Byte) (e : Env) : (storeAt cfg a v e).ptr = e.ptr := by
  unfold storeAt; split
  · simp
  · split <;> simp

theorem storeReg_fileOk (cfg : Params) (r : Nat) (v : Byte) (e : Env) (hr : r < nregs) (h : FileOk cfg e.mem) :
    FileOk cfg (storeReg cfg r v e).mem := by
  exact ⟨storeFile_wf cfg r v _ h.1, storeFile_inRange cfg r v _ hr h.2.2 h.2.1, h.2.2⟩

theorem storeAt_fileOk (cfg : Params) (a : Nat) (v : Byte) (e : Env) (h : FileOk cfg e.mem) : FileOk cfg (storeAt cfg a v e).mem := by
  unfold storeAt; split
  · exact storeReg_fileOk cfg a v e ‹_› h
  · split
    · rename_i r _; exact storeReg_fileOk cfg r.val v e r.isLt h
    · exact h

theorem storeSame_fileOk (cfg : Params) (r : Nat) (vs : List Byte) (e : Env) (h : FileOk cfg e.mem) :
    FileOk cfg (storeSame cfg r vs e).mem := by
  induction vs generalizing e with
  | nil => exact h
  | cons v vs ih => exact ih _ (storeAt_fileOk cfg r v e h)

theorem storeSeq_fileOk (cfg : Params) (r : Nat) (vs : List Byte) (e : Env) (h : FileOk cfg e.mem) :
    FileOk cfg (storeSeq cfg r vs e).mem := by
  induction vs generalizing e r with
  | nil => exact h
  | cons v vs ih => exact ih _ _ (storeAt_fileOk cfg r v e h)

/-- Any delivery keeps the register file canonical and in range. -/
theorem deliver_fileOk (cfg : Params) (r : Nat) (bs : List Byte) (e : Env) (h : FileOk cfg e.mem) :
    FileOk cfg (deliver cfg r bs e).mem := by
  unfold deliver; split
  · exact storeSeq_fileOk cfg r bs _ h
  · exact storeSame_fileOk cfg r bs _ h

/-- A failed delivery is no delivery or the delivery of a first part. -/
theorem deliverPart_cases (cfg : Params) (k : Option Nat) (r : Nat) (bs : List Byte) (e : Env) :
    deliverPart cfg k r bs e = e ∨ ∃ n, deliverPart cfg k r bs e = deliver cfg r (bs.take n) e := by
  cases k with
  | none => exact .inl rfl
  | some n => exact .inr ⟨n, rfl⟩

theorem deliverPart_fileOk (cfg : Params) (k : Option Nat) (r : Nat) (bs : List Byte) (e : Env) (h : FileOk cfg e.mem) :
    FileOk cfg (deliverPart cfg k r bs e).mem := by
  rcases deliverPart_cases cfg k r bs e with he | ⟨n, he⟩ <;> rw [he]
  · exact h
  · exact deliver_fileOk cfg r _ e h

/-! ## Non-sequential mode -/

theorem sequentialMode_nonseq {cfg : Params} {m : Memory} (h : NonSequential cfg m) : sequentialMode cfg m = false := by
  obtain ⟨v, hv, hn⟩ := h
  simpa [sequentialMode, regValue, hv] using hn

theorem sequentialMode_seq {cfg : Params} {m : Memory} (h : Sequential cfg m) : sequentialMode cfg m = true := by
  obtain ⟨v, hv, hn⟩ := h
  simpa [sequentialMode, regValue, hv] using hn

@[simp] theorem storeSame_ptr (cfg : Params) (r : Nat) (vs : List Byte) (e : Env) : (storeSame cfg r vs e).ptr = e.ptr := by
  induction vs generalizing e with
  | nil => rfl
  | cons v vs ih => simp [storeSame, ih]

theorem storeSame_append (cfg : Params) (r : Nat) (vs ws : List Byte) (e : Env) :
    storeSame cfg r (vs ++ ws) e = storeSame cfg r ws (storeSame cfg r vs e) := by
  induction vs generalizing e with
  | nil => rfl
  | cons v vs ih => simp [storeSame, ih]

theorem storeSame_other (cfg : Params) (r : Nat) (vs : List Byte) (e : Env) (hr : r < nregs) (a : Nat) (h : ¬ Touches cfg r a) :
    memRead a (storeSame cfg r vs e).mem = memRead a e.mem := by
  induction vs generalizing e with
  | nil => rfl
  | cons v vs ih =>
    rw [storeSame, ih, storeAt_inside cfg r v e hr, storeReg_mem, memRead_storeFile_other cfg r a v _ h]

theorem deliver_nonseq (cfg : Params) (r : Nat) (bs : List Byte) (e : Env) (h : NonSequential cfg e.mem) :
    deliver cfg r bs e = storeSame cfg r bs { e with ptr := r } := by
  simp [deliver, sequentialMode_nonseq h]

/-- In non-sequential mode a delivery to `r` leaves every register that a store to `r` does not touch. -/
theorem deliver_nonseq_other (cfg : Params) (r : Nat) (bs : List Byte) (e : Env) (h : NonSequential cfg e.mem)
    (hr : r < nregs) (a : Nat) (ha : ¬ Touches cfg r a) : memRead a (deliver cfg r bs e).mem = memRead a e.mem := by
  rw [deliver_nonseq cfg r bs e h, storeSame_other cfg r bs _ hr a ha]

/-- A delivery to another register leaves the addressing mode. -/
theorem deliver_nonseq_mode (cfg : Params) (r : Nat) (bs : List Byte) (e : Env) (h : NonSequential cfg e.mem)
    (hr : r < nregs) (hc : ¬ Touches cfg r cfg.regs.config) : NonSequential cfg (deliver cfg r bs e).mem := by
  obtain ⟨v, hv, hn⟩ := h
  exact ⟨v, by rw [deliver_nonseq_other cfg r bs e ⟨v, hv, hn⟩ hr _ hc, hv], hn⟩

theorem deliverPart_nonseq_other (cfg : Params) (k : Option Nat) (r : Nat) (bs : List Byte) (e : Env)
    (h : NonSequential cfg e.mem) (hr : r < nregs) (a : Nat) (ha : ¬ Touches cfg r a) :
    memRead a (deliverPart cfg k r bs e).mem = memRead a e.mem := by
  rcases deliverPart_cases cfg k r bs e with he | ⟨n, he⟩ <;> rw [he]
  exact deliver_nonseq_other cfg r _ e h hr a ha

/-! ## Sequential mode -/

theorem storeSeq_other (cfg : Params) (r : Nat) (vs : List Byte) (e : Env) (hr : r + vs.length ≤ nregs) (a : Nat)
    (h : ∀ k, k < vs.length → ¬ Touches cfg (r + k) a) : memRead a (storeSeq cfg r vs e).mem = memRead a e.mem := by
  induction vs generalizing e r with
  | nil => rfl
  | cons v vs ih =>
    simp only [List.length_cons] at hr h
    rw [storeSeq, ih (r + 1) _ (by omega) (fun k hk => by rw [Nat.add_assoc, Nat.add_comm 1]; exact h (k + 1) (by omega)),
      storeAt_inside cfg r v e (by omega), storeReg_mem, memRead_storeFile_other cfg r a v _ (h 0 (by omega))]

@[simp] theorem storeSeq_ptr (cfg : Params) (r : Nat) (vs : List Byte) (e : Env) : (storeSeq cfg r vs e).ptr = e.ptr := by
  induction vs generalizing e r with
  | nil => rfl
  | cons v vs ih => simp [storeSeq, ih]

theorem deliver_seq (cfg : Params) (r : Nat) (bs : List Byte) (e : Env) (h : Sequential cfg e.mem) :
    deliver cfg r bs e = storeSeq cfg r bs { e with ptr := r + bs.length } := by
  simp [deliver, sequentialMode_seq h]

/-! ## One byte -/

/-- A single byte goes to its register in either mode. -/
theorem deliver_one_mem (cfg : Params) (r : Nat) (v : Byte) (e : Env) (h : r < nregs) :
    (deliver cfg r [v] e).mem = storeFile cfg r v e.mem := by
  unfold deliver; split <;> simp [storeSeq, storeSame, storeAt_inside cfg r v _ h]

end Sys2Proof.Laws
end

