-- ==== Sys2Proof/Laws/State.lean ====
section
/-! SUPPORT. One lemma per field per state update, so that no proof unfolds a record update. -/

namespace Sys2Proof.Laws

open Sys2Proof.Machine Sys2Proof.Safety

/-! `record` -/

@[simp] theorem record_cfg (t : Txn) (e : Ending) (s : State) : (record t e s).cfg = s.cfg := rfl
@[simp] theorem record_phase (t : Txn) (e : Ending) (s : State) : (record t e s).phase = s.phase := rfl
@[simp] theorem record_handle (t : Txn) (e : Ending) (s : State) : (record t e s).handle = s.handle := rfl
@[simp] theorem record_gpio (t : Txn) (e : Ending) (s : State) : (record t e s).gpio = s.gpio := rfl
@[simp] theorem record_ddrb (t : Txn) (e : Ending) (s : State) : (record t e s).ddrb = s.ddrb := rfl
@[simp] theorem record_displayshift (t : Txn) (e : Ending) (s : State) : (record t e s).displayshift = s.displayshift := rfl
@[simp] theorem record_displaymode (t : Txn) (e : Ending) (s : State) : (record t e s).displaymode = s.displaymode := rfl
@[simp] theorem record_displaycontrol (t : Txn) (e : Ending) (s : State) : (record t e s).displaycontrol = s.displaycontrol := rfl
@[simp] theorem record_seq (t : Txn) (e : Ending) (s : State) : (record t e s).seq = s.seq := rfl
@[simp] theorem record_env (t : Txn) (e : Ending) (s : State) : (record t e s).env = s.env := rfl
@[simp] theorem record_inbox (t : Txn) (e : Ending) (s : State) : (record t e s).inbox = s.inbox := rfl
@[simp] theorem record_draws (t : Txn) (e : Ending) (s : State) : (record t e s).draws = s.draws := rfl
@[simp] theorem record_drawn (t : Txn) (e : Ending) (s : State) : (record t e s).drawn = s.drawn := rfl
@[simp] theorem record_history (t : Txn) (e : Ending) (s : State) : (record t e s).history = s.history ++ [⟨s.handle, t, e⟩] := rfl
@[simp] theorem record_outcomes (t : Txn) (e : Ending) (s : State) : (record t e s).outcomes = s.outcomes := rfl
@[simp] theorem record_result (t : Txn) (e : Ending) (s : State) : (record t e s).result = s.result := rfl

/-! `refuse` -/

@[simp] theorem refuse_cfg (why : RefuseReason) (s : State) : (refuse why s).cfg = s.cfg := rfl
@[simp] theorem refuse_phase (why : RefuseReason) (s : State) : (refuse why s).phase = s.phase := rfl
@[simp] theorem refuse_handle (why : RefuseReason) (s : State) : (refuse why s).handle = s.handle := rfl
@[simp] theorem refuse_gpio (why : RefuseReason) (s : State) : (refuse why s).gpio = s.gpio := rfl
@[simp] theorem refuse_ddrb (why : RefuseReason) (s : State) : (refuse why s).ddrb = s.ddrb := rfl
@[simp] theorem refuse_displayshift (why : RefuseReason) (s : State) : (refuse why s).displayshift = s.displayshift := rfl
@[simp] theorem refuse_displaymode (why : RefuseReason) (s : State) : (refuse why s).displaymode = s.displaymode := rfl
@[simp] theorem refuse_displaycontrol (why : RefuseReason) (s : State) : (refuse why s).displaycontrol = s.displaycontrol := rfl
@[simp] theorem refuse_seq (why : RefuseReason) (s : State) : (refuse why s).seq = s.seq := rfl
@[simp] theorem refuse_env (why : RefuseReason) (s : State) : (refuse why s).env = s.env := rfl
@[simp] theorem refuse_inbox (why : RefuseReason) (s : State) : (refuse why s).inbox = s.inbox := rfl
@[simp] theorem refuse_draws (why : RefuseReason) (s : State) : (refuse why s).draws = s.draws := rfl
@[simp] theorem refuse_drawn (why : RefuseReason) (s : State) : (refuse why s).drawn = s.drawn := rfl
@[simp] theorem refuse_history (why : RefuseReason) (s : State) : (refuse why s).history = s.history := rfl
@[simp] theorem refuse_outcomes (why : RefuseReason) (s : State) : (refuse why s).outcomes = s.outcomes ++ [.refused why] := rfl
@[simp] theorem refuse_result (why : RefuseReason) (s : State) : (refuse why s).result = s.result := rfl

/-! `dropInstance` -/

@[simp] theorem dropInstance_cfg (s : State) : (dropInstance s).cfg = s.cfg := rfl
@[simp] theorem dropInstance_phase (s : State) : (dropInstance s).phase = s.phase := rfl
@[simp] theorem dropInstance_handle (s : State) : (dropInstance s).handle = none := rfl
@[simp] theorem dropInstance_gpio (s : State) : (dropInstance s).gpio = unsetShadow := rfl
@[simp] theorem dropInstance_ddrb (s : State) : (dropInstance s).ddrb = unsetShadow := rfl
@[simp] theorem dropInstance_displayshift (s : State) : (dropInstance s).displayshift = unsetShadow := rfl
@[simp] theorem dropInstance_displaymode (s : State) : (dropInstance s).displaymode = unsetShadow := rfl
@[simp] theorem dropInstance_displaycontrol (s : State) : (dropInstance s).displaycontrol = unsetShadow := rfl
@[simp] theorem dropInstance_seq (s : State) : (dropInstance s).seq = s.seq := rfl
@[simp] theorem dropInstance_env (s : State) : (dropInstance s).env = s.env := rfl
@[simp] theorem dropInstance_inbox (s : State) : (dropInstance s).inbox = s.inbox := rfl
@[simp] theorem dropInstance_draws (s : State) : (dropInstance s).draws = s.draws := rfl
@[simp] theorem dropInstance_drawn (s : State) : (dropInstance s).drawn = s.drawn := rfl
@[simp] theorem dropInstance_history (s : State) : (dropInstance s).history = s.history := rfl
@[simp] theorem dropInstance_outcomes (s : State) : (dropInstance s).outcomes = s.outcomes := rfl
@[simp] theorem dropInstance_result (s : State) : (dropInstance s).result = s.result := rfl

/-! `loadShadows` -/

@[simp] theorem loadShadows_cfg (s : State) : (loadShadows s).cfg = s.cfg := rfl
@[simp] theorem loadShadows_phase (s : State) : (loadShadows s).phase = s.phase := rfl
@[simp] theorem loadShadows_handle (s : State) : (loadShadows s).handle = s.handle := rfl
@[simp] theorem loadShadows_gpio (s : State) : (loadShadows s).gpio = 0x00 := rfl
@[simp] theorem loadShadows_ddrb (s : State) : (loadShadows s).ddrb = s.cfg.ddrInit := rfl
@[simp] theorem loadShadows_displayshift (s : State) : (loadShadows s).displayshift = s.cfg.shiftInit := rfl
@[simp] theorem loadShadows_displaymode (s : State) : (loadShadows s).displaymode = s.cfg.modeInit := rfl
@[simp] theorem loadShadows_displaycontrol (s : State) : (loadShadows s).displaycontrol = s.cfg.ctrlInit := rfl
@[simp] theorem loadShadows_seq (s : State) : (loadShadows s).seq = s.seq := rfl
@[simp] theorem loadShadows_env (s : State) : (loadShadows s).env = s.env := rfl
@[simp] theorem loadShadows_inbox (s : State) : (loadShadows s).inbox = s.inbox := rfl
@[simp] theorem loadShadows_draws (s : State) : (loadShadows s).draws = s.draws := rfl
@[simp] theorem loadShadows_drawn (s : State) : (loadShadows s).drawn = s.drawn := rfl
@[simp] theorem loadShadows_history (s : State) : (loadShadows s).history = s.history := rfl
@[simp] theorem loadShadows_outcomes (s : State) : (loadShadows s).outcomes = s.outcomes := rfl
@[simp] theorem loadShadows_result (s : State) : (loadShadows s).result = s.result := rfl

/-! `atController` -/

@[simp] theorem atController_cfg (c : LcdCmd) (s : State) : (atController c s).cfg = s.cfg := rfl
@[simp] theorem atController_phase (c : LcdCmd) (s : State) : (atController c s).phase = s.phase := rfl
@[simp] theorem atController_handle (c : LcdCmd) (s : State) : (atController c s).handle = s.handle := rfl
@[simp] theorem atController_gpio (c : LcdCmd) (s : State) : (atController c s).gpio = s.gpio := rfl
@[simp] theorem atController_ddrb (c : LcdCmd) (s : State) : (atController c s).ddrb = s.ddrb := rfl
@[simp] theorem atController_displayshift (c : LcdCmd) (s : State) : (atController c s).displayshift = s.displayshift := rfl
@[simp] theorem atController_displaymode (c : LcdCmd) (s : State) : (atController c s).displaymode = s.displaymode := rfl
@[simp] theorem atController_displaycontrol (c : LcdCmd) (s : State) : (atController c s).displaycontrol = s.displaycontrol := rfl
@[simp] theorem atController_seq (c : LcdCmd) (s : State) : (atController c s).seq = s.seq := rfl
@[simp] theorem atController_env (c : LcdCmd) (s : State) : (atController c s).env = { s.env with lcd := lcdCommand c s.env.lcd } := rfl
@[simp] theorem atController_inbox (c : LcdCmd) (s : State) : (atController c s).inbox = s.inbox := rfl
@[simp] theorem atController_draws (c : LcdCmd) (s : State) : (atController c s).draws = s.draws := rfl
@[simp] theorem atController_drawn (c : LcdCmd) (s : State) : (atController c s).drawn = s.drawn := rfl
@[simp] theorem atController_history (c : LcdCmd) (s : State) : (atController c s).history = s.history := rfl
@[simp] theorem atController_outcomes (c : LcdCmd) (s : State) : (atController c s).outcomes = s.outcomes := rfl
@[simp] theorem atController_result (c : LcdCmd) (s : State) : (atController c s).result = s.result := rfl

/-! `placeWord` -/

@[simp] theorem placeWord_cfg (n w : Nat) (s : State) : (placeWord n w s).cfg = s.cfg := rfl
@[simp] theorem placeWord_phase (n w : Nat) (s : State) : (placeWord n w s).phase = s.phase := rfl
@[simp] theorem placeWord_handle (n w : Nat) (s : State) : (placeWord n w s).handle = s.handle := rfl
@[simp] theorem placeWord_gpio (n w : Nat) (s : State) : (placeWord n w s).gpio = s.gpio := rfl
@[simp] theorem placeWord_ddrb (n w : Nat) (s : State) : (placeWord n w s).ddrb = s.ddrb := rfl
@[simp] theorem placeWord_displayshift (n w : Nat) (s : State) : (placeWord n w s).displayshift = s.displayshift := rfl
@[simp] theorem placeWord_displaymode (n w : Nat) (s : State) : (placeWord n w s).displaymode = s.displaymode := rfl
@[simp] theorem placeWord_displaycontrol (n w : Nat) (s : State) : (placeWord n w s).displaycontrol = s.displaycontrol := rfl
@[simp] theorem placeWord_seq (n w : Nat) (s : State) : (placeWord n w s).seq = .idle := rfl
@[simp] theorem placeWord_env (n w : Nat) (s : State) : (placeWord n w s).env = s.env := rfl
@[simp] theorem placeWord_inbox (n w : Nat) (s : State) : (placeWord n w s).inbox = tableWordPacket n w :: s.inbox := rfl
@[simp] theorem placeWord_draws (n w : Nat) (s : State) : (placeWord n w s).draws = s.draws := rfl
@[simp] theorem placeWord_drawn (n w : Nat) (s : State) : (placeWord n w s).drawn = s.drawn := rfl
@[simp] theorem placeWord_history (n w : Nat) (s : State) : (placeWord n w s).history = s.history := rfl
@[simp] theorem placeWord_outcomes (n w : Nat) (s : State) : (placeWord n w s).outcomes = s.outcomes := rfl
@[simp] theorem placeWord_result (n w : Nat) (s : State) : (placeWord n w s).result = s.result := rfl

/-! `wrote` -/

@[simp] theorem wrote_cfg (t : Txn) (r : Nat) (bs : List Byte) (s : State) : (wrote t r bs s).cfg = s.cfg := rfl
@[simp] theorem wrote_phase (t : Txn) (r : Nat) (bs : List Byte) (s : State) : (wrote t r bs s).phase = s.phase := rfl
@[simp] theorem wrote_handle (t : Txn) (r : Nat) (bs : List Byte) (s : State) : (wrote t r bs s).handle = s.handle := rfl
@[simp] theorem wrote_gpio (t : Txn) (r : Nat) (bs : List Byte) (s : State) : (wrote t r bs s).gpio = s.gpio := rfl
@[simp] theorem wrote_ddrb (t : Txn) (r : Nat) (bs : List Byte) (s : State) : (wrote t r bs s).ddrb = s.ddrb := rfl
@[simp] theorem wrote_displayshift (t : Txn) (r : Nat) (bs : List Byte) (s : State) : (wrote t r bs s).displayshift = s.displayshift := rfl
@[simp] theorem wrote_displaymode (t : Txn) (r : Nat) (bs : List Byte) (s : State) : (wrote t r bs s).displaymode = s.displaymode := rfl
@[simp] theorem wrote_displaycontrol (t : Txn) (r : Nat) (bs : List Byte) (s : State) : (wrote t r bs s).displaycontrol = s.displaycontrol := rfl
@[simp] theorem wrote_seq (t : Txn) (r : Nat) (bs : List Byte) (s : State) : (wrote t r bs s).seq = s.seq := rfl
@[simp] theorem wrote_env (t : Txn) (r : Nat) (bs : List Byte) (s : State) : (wrote t r bs s).env = deliver s.cfg r bs s.env := rfl
@[simp] theorem wrote_inbox (t : Txn) (r : Nat) (bs : List Byte) (s : State) : (wrote t r bs s).inbox = s.inbox := rfl
@[simp] theorem wrote_draws (t : Txn) (r : Nat) (bs : List Byte) (s : State) : (wrote t r bs s).draws = s.draws.drop 1 := rfl
@[simp] theorem wrote_drawn (t : Txn) (r : Nat) (bs : List Byte) (s : State) : (wrote t r bs s).drawn = s.drawn := rfl
@[simp] theorem wrote_history (t : Txn) (r : Nat) (bs : List Byte) (s : State) : (wrote t r bs s).history = s.history ++ [⟨s.handle, t, .done⟩] := rfl
@[simp] theorem wrote_outcomes (t : Txn) (r : Nat) (bs : List Byte) (s : State) : (wrote t r bs s).outcomes = s.outcomes := rfl
@[simp] theorem wrote_result (t : Txn) (r : Nat) (bs : List Byte) (s : State) : (wrote t r bs s).result = s.result := rfl

/-! `gotByte` -/

@[simp] theorem gotByte_cfg (b : Byte) (s : State) : (gotByte b s).cfg = s.cfg := rfl
@[simp] theorem gotByte_phase (b : Byte) (s : State) : (gotByte b s).phase = s.phase := rfl
@[simp] theorem gotByte_handle (b : Byte) (s : State) : (gotByte b s).handle = s.handle := rfl
@[simp] theorem gotByte_gpio (b : Byte) (s : State) : (gotByte b s).gpio = s.gpio := rfl
@[simp] theorem gotByte_ddrb (b : Byte) (s : State) : (gotByte b s).ddrb = s.ddrb := rfl
@[simp] theorem gotByte_displayshift (b : Byte) (s : State) : (gotByte b s).displayshift = s.displayshift := rfl
@[simp] theorem gotByte_displaymode (b : Byte) (s : State) : (gotByte b s).displaymode = s.displaymode := rfl
@[simp] theorem gotByte_displaycontrol (b : Byte) (s : State) : (gotByte b s).displaycontrol = s.displaycontrol := rfl
@[simp] theorem gotByte_seq (b : Byte) (s : State) : (gotByte b s).seq = s.seq := rfl
@[simp] theorem gotByte_env (b : Byte) (s : State) : (gotByte b s).env = s.env := rfl
@[simp] theorem gotByte_inbox (b : Byte) (s : State) : (gotByte b s).inbox = s.inbox := rfl
@[simp] theorem gotByte_draws (b : Byte) (s : State) : (gotByte b s).draws = s.draws.drop 1 := rfl
@[simp] theorem gotByte_drawn (b : Byte) (s : State) : (gotByte b s).drawn = s.drawn := rfl
@[simp] theorem gotByte_history (b : Byte) (s : State) : (gotByte b s).history = s.history ++ [⟨s.handle, .r1, .byte b⟩] := rfl
@[simp] theorem gotByte_outcomes (b : Byte) (s : State) : (gotByte b s).outcomes = s.outcomes := rfl
@[simp] theorem gotByte_result (b : Byte) (s : State) : (gotByte b s).result = s.result := rfl

/-! `wroteOut` -/

@[simp] theorem wroteOut_cfg (v : Byte) (s : State) : (wroteOut v s).cfg = s.cfg := rfl
@[simp] theorem wroteOut_phase (v : Byte) (s : State) : (wroteOut v s).phase = s.phase := rfl
@[simp] theorem wroteOut_handle (v : Byte) (s : State) : (wroteOut v s).handle = s.handle := rfl
@[simp] theorem wroteOut_gpio (v : Byte) (s : State) : (wroteOut v s).gpio = v := rfl
@[simp] theorem wroteOut_ddrb (v : Byte) (s : State) : (wroteOut v s).ddrb = s.ddrb := rfl
@[simp] theorem wroteOut_displayshift (v : Byte) (s : State) : (wroteOut v s).displayshift = s.displayshift := rfl
@[simp] theorem wroteOut_displaymode (v : Byte) (s : State) : (wroteOut v s).displaymode = s.displaymode := rfl
@[simp] theorem wroteOut_displaycontrol (v : Byte) (s : State) : (wroteOut v s).displaycontrol = s.displaycontrol := rfl
@[simp] theorem wroteOut_seq (v : Byte) (s : State) : (wroteOut v s).seq = s.seq := rfl
@[simp] theorem wroteOut_env (v : Byte) (s : State) : (wroteOut v s).env = deliver s.cfg s.cfg.regOut [v] s.env := rfl
@[simp] theorem wroteOut_inbox (v : Byte) (s : State) : (wroteOut v s).inbox = s.inbox := rfl
@[simp] theorem wroteOut_draws (v : Byte) (s : State) : (wroteOut v s).draws = s.draws.drop 1 := rfl
@[simp] theorem wroteOut_drawn (v : Byte) (s : State) : (wroteOut v s).drawn = s.drawn := rfl
@[simp] theorem wroteOut_history (v : Byte) (s : State) : (wroteOut v s).history = s.history ++ [⟨s.handle, .w1 s.cfg.regOut v, .done⟩] := rfl
@[simp] theorem wroteOut_outcomes (v : Byte) (s : State) : (wroteOut v s).outcomes = s.outcomes := rfl
@[simp] theorem wroteOut_result (v : Byte) (s : State) : (wroteOut v s).result = s.result := rfl

/-! `wroteBlock` -/

@[simp] theorem wroteBlock_cfg (bs : List Byte) (v : Byte) (s : State) : (wroteBlock bs v s).cfg = s.cfg := rfl
@[simp] theorem wroteBlock_phase (bs : List Byte) (v : Byte) (s : State) : (wroteBlock bs v s).phase = s.phase := rfl
@[simp] theorem wroteBlock_handle (bs : List Byte) (v : Byte) (s : State) : (wroteBlock bs v s).handle = s.handle := rfl
@[simp] theorem wroteBlock_gpio (bs : List Byte) (v : Byte) (s : State) : (wroteBlock bs v s).gpio = v := rfl
@[simp] theorem wroteBlock_ddrb (bs : List Byte) (v : Byte) (s : State) : (wroteBlock bs v s).ddrb = s.ddrb := rfl
@[simp] theorem wroteBlock_displayshift (bs : List Byte) (v : Byte) (s : State) : (wroteBlock bs v s).displayshift = s.displayshift := rfl
@[simp] theorem wroteBlock_displaymode (bs : List Byte) (v : Byte) (s : State) : (wroteBlock bs v s).displaymode = s.displaymode := rfl
@[simp] theorem wroteBlock_displaycontrol (bs : List Byte) (v : Byte) (s : State) : (wroteBlock bs v s).displaycontrol = s.displaycontrol := rfl
@[simp] theorem wroteBlock_seq (bs : List Byte) (v : Byte) (s : State) : (wroteBlock bs v s).seq = s.seq := rfl
@[simp] theorem wroteBlock_env (bs : List Byte) (v : Byte) (s : State) : (wroteBlock bs v s).env = deliver s.cfg s.cfg.regOut bs s.env := rfl
@[simp] theorem wroteBlock_inbox (bs : List Byte) (v : Byte) (s : State) : (wroteBlock bs v s).inbox = s.inbox := rfl
@[simp] theorem wroteBlock_draws (bs : List Byte) (v : Byte) (s : State) : (wroteBlock bs v s).draws = s.draws.drop 1 := rfl
@[simp] theorem wroteBlock_drawn (bs : List Byte) (v : Byte) (s : State) : (wroteBlock bs v s).drawn = s.drawn := rfl
@[simp] theorem wroteBlock_history (bs : List Byte) (v : Byte) (s : State) : (wroteBlock bs v s).history = s.history ++ [⟨s.handle, .wb s.cfg.regOut bs, .done⟩] := rfl
@[simp] theorem wroteBlock_outcomes (bs : List Byte) (v : Byte) (s : State) : (wroteBlock bs v s).outcomes = s.outcomes := rfl
@[simp] theorem wroteBlock_result (bs : List Byte) (v : Byte) (s : State) : (wroteBlock bs v s).result = s.result := rfl

/-! `wroteDir` -/

@[simp] theorem wroteDir_cfg (d : Byte) (s : State) : (wroteDir d s).cfg = s.cfg := rfl
@[simp] theorem wroteDir_phase (d : Byte) (s : State) : (wroteDir d s).phase = s.phase := rfl
@[simp] theorem wroteDir_handle (d : Byte) (s : State) : (wroteDir d s).handle = s.handle := rfl
@[simp] theorem wroteDir_gpio (d : Byte) (s : State) : (wroteDir d s).gpio = s.gpio := rfl
@[simp] theorem wroteDir_ddrb (d : Byte) (s : State) : (wroteDir d s).ddrb = d := rfl
@[simp] theorem wroteDir_displayshift (d : Byte) (s : State) : (wroteDir d s).displayshift = s.displayshift := rfl
@[simp] theorem wroteDir_displaymode (d : Byte) (s : State) : (wroteDir d s).displaymode = s.displaymode := rfl
@[simp] theorem wroteDir_displaycontrol (d : Byte) (s : State) : (wroteDir d s).displaycontrol = s.displaycontrol := rfl
@[simp] theorem wroteDir_seq (d : Byte) (s : State) : (wroteDir d s).seq = s.seq := rfl
@[simp] theorem wroteDir_env (d : Byte) (s : State) : (wroteDir d s).env = deliver s.cfg s.cfg.regs.dir [d] s.env := rfl
@[simp] theorem wroteDir_inbox (d : Byte) (s : State) : (wroteDir d s).inbox = s.inbox := rfl
@[simp] theorem wroteDir_draws (d : Byte) (s : State) : (wroteDir d s).draws = s.draws.drop 1 := rfl
@[simp] theorem wroteDir_drawn (d : Byte) (s : State) : (wroteDir d s).drawn = s.drawn := rfl
@[simp] theorem wroteDir_history (d : Byte) (s : State) : (wroteDir d s).history = s.history ++ [⟨s.handle, .w1 s.cfg.regs.dir d, .done⟩] := rfl
@[simp] theorem wroteDir_outcomes (d : Byte) (s : State) : (wroteDir d s).outcomes = s.outcomes := rfl
@[simp] theorem wroteDir_result (d : Byte) (s : State) : (wroteDir d s).result = s.result := rfl

/-! `endedOk` -/

@[simp] theorem endedOk_cfg (s : State) : (endedOk s).cfg = s.cfg := rfl
@[simp] theorem endedOk_phase (s : State) : (endedOk s).phase = s.phase := rfl
@[simp] theorem endedOk_handle (s : State) : (endedOk s).handle = s.handle := rfl
@[simp] theorem endedOk_gpio (s : State) : (endedOk s).gpio = s.gpio := rfl
@[simp] theorem endedOk_ddrb (s : State) : (endedOk s).ddrb = s.ddrb := rfl
@[simp] theorem endedOk_displayshift (s : State) : (endedOk s).displayshift = s.displayshift := rfl
@[simp] theorem endedOk_displaymode (s : State) : (endedOk s).displaymode = s.displaymode := rfl
@[simp] theorem endedOk_displaycontrol (s : State) : (endedOk s).displaycontrol = s.displaycontrol := rfl
@[simp] theorem endedOk_seq (s : State) : (endedOk s).seq = .idle := rfl
@[simp] theorem endedOk_env (s : State) : (endedOk s).env = s.env := rfl
@[simp] theorem endedOk_inbox (s : State) : (endedOk s).inbox = s.inbox := rfl
@[simp] theorem endedOk_draws (s : State) : (endedOk s).draws = s.draws := rfl
@[simp] theorem endedOk_drawn (s : State) : (endedOk s).drawn = s.drawn := rfl
@[simp] theorem endedOk_history (s : State) : (endedOk s).history = s.history := rfl
@[simp] theorem endedOk_outcomes (s : State) : (endedOk s).outcomes = s.outcomes ++ [.ok] := rfl
@[simp] theorem endedOk_result (s : State) : (endedOk s).result = s.result := rfl

/-! `refusedAs` -/

@[simp] theorem refusedAs_cfg (why : RefuseReason) (s : State) : (refusedAs why s).cfg = s.cfg := rfl
@[simp] theorem refusedAs_phase (why : RefuseReason) (s : State) : (refusedAs why s).phase = s.phase := rfl
@[simp] theorem refusedAs_handle (why : RefuseReason) (s : State) : (refusedAs why s).handle = s.handle := rfl
@[simp] theorem refusedAs_gpio (why : RefuseReason) (s : State) : (refusedAs why s).gpio = s.gpio := rfl
@[simp] theorem refusedAs_ddrb (why : RefuseReason) (s : State) : (refusedAs why s).ddrb = s.ddrb := rfl
@[simp] theorem refusedAs_displayshift (why : RefuseReason) (s : State) : (refusedAs why s).displayshift = s.displayshift := rfl
@[simp] theorem refusedAs_displaymode (why : RefuseReason) (s : State) : (refusedAs why s).displaymode = s.displaymode := rfl
@[simp] theorem refusedAs_displaycontrol (why : RefuseReason) (s : State) : (refusedAs why s).displaycontrol = s.displaycontrol := rfl
@[simp] theorem refusedAs_seq (why : RefuseReason) (s : State) : (refusedAs why s).seq = s.seq := rfl
@[simp] theorem refusedAs_env (why : RefuseReason) (s : State) : (refusedAs why s).env = s.env := rfl
@[simp] theorem refusedAs_inbox (why : RefuseReason) (s : State) : (refusedAs why s).inbox = s.inbox := rfl
@[simp] theorem refusedAs_draws (why : RefuseReason) (s : State) : (refusedAs why s).draws = s.draws := rfl
@[simp] theorem refusedAs_drawn (why : RefuseReason) (s : State) : (refusedAs why s).drawn = s.drawn := rfl
@[simp] theorem refusedAs_history (why : RefuseReason) (s : State) : (refusedAs why s).history = s.history := rfl
@[simp] theorem refusedAs_outcomes (why : RefuseReason) (s : State) : (refusedAs why s).outcomes = s.outcomes ++ [.refused why] := rfl
@[simp] theorem refusedAs_result (why : RefuseReason) (s : State) : (refusedAs why s).result = s.result := rfl

/-! `commFailed` -/

@[simp] theorem commFailed_cfg (t : Txn) (e : Env) (s : State) : (commFailed t e s).cfg = s.cfg := rfl
@[simp] theorem commFailed_phase (t : Txn) (e : Env) (s : State) : (commFailed t e s).phase = s.phase := rfl
@[simp] theorem commFailed_handle (t : Txn) (e : Env) (s : State) : (commFailed t e s).handle = s.handle := rfl
@[simp] theorem commFailed_gpio (t : Txn) (e : Env) (s : State) : (commFailed t e s).gpio = s.gpio := rfl
@[simp] theorem commFailed_ddrb (t : Txn) (e : Env) (s : State) : (commFailed t e s).ddrb = s.ddrb := rfl
@[simp] theorem commFailed_displayshift (t : Txn) (e : Env) (s : State) : (commFailed t e s).displayshift = s.displayshift := rfl
@[simp] theorem commFailed_displaymode (t : Txn) (e : Env) (s : State) : (commFailed t e s).displaymode = s.displaymode := rfl
@[simp] theorem commFailed_displaycontrol (t : Txn) (e : Env) (s : State) : (commFailed t e s).displaycontrol = s.displaycontrol := rfl
@[simp] theorem commFailed_seq (t : Txn) (e : Env) (s : State) : (commFailed t e s).seq = .idle := rfl
@[simp] theorem commFailed_env (t : Txn) (e : Env) (s : State) : (commFailed t e s).env = e := rfl
@[simp] theorem commFailed_inbox (t : Txn) (e : Env) (s : State) : (commFailed t e s).inbox = s.inbox := rfl
@[simp] theorem commFailed_draws (t : Txn) (e : Env) (s : State) : (commFailed t e s).draws = s.draws.drop 1 := rfl
@[simp] theorem commFailed_drawn (t : Txn) (e : Env) (s : State) : (commFailed t e s).drawn = s.drawn := rfl
@[simp] theorem commFailed_history (t : Txn) (e : Env) (s : State) : (commFailed t e s).history = s.history ++ [⟨s.handle, t, .failed⟩] := rfl
@[simp] theorem commFailed_outcomes (t : Txn) (e : Env) (s : State) : (commFailed t e s).outcomes = s.outcomes ++ [.commError t] := rfl
@[simp] theorem commFailed_result (t : Txn) (e : Env) (s : State) : (commFailed t e s).result = s.result := rfl

/-! `takeDraw`: only the source of draws changes. -/

@[simp] theorem takeDraw_cfg (s : State) : (takeDraw s).2.cfg = s.cfg := by
  unfold takeDraw; split <;> rfl
@[simp] theorem takeDraw_phase (s : State) : (takeDraw s).2.phase = s.phase := by
  unfold takeDraw; split <;> rfl
@[simp] theorem takeDraw_handle (s : State) : (takeDraw s).2.handle = s.handle := by
  unfold takeDraw; split <;> rfl
@[simp] theorem takeDraw_gpio (s : State) : (takeDraw s).2.gpio = s.gpio := by
  unfold takeDraw; split <;> rfl
@[simp] theorem takeDraw_ddrb (s : State) : (takeDraw s).2.ddrb = s.ddrb := by
  unfold takeDraw; split <;> rfl
@[simp] theorem takeDraw_displayshift (s : State) : (takeDraw s).2.displayshift = s.displayshift := by
  unfold takeDraw; split <;> rfl
@[simp] theorem takeDraw_displaymode (s : State) : (takeDraw s).2.displaymode = s.displaymode := by
  unfold takeDraw; split <;> rfl
@[simp] theorem takeDraw_displaycontrol (s : State) : (takeDraw s).2.displaycontrol = s.displaycontrol := by
  unfold takeDraw; split <;> rfl
@[simp] theorem takeDraw_seq (s : State) : (takeDraw s).2.seq = s.seq := by
  unfold takeDraw; split <;> rfl
@[simp] theorem takeDraw_env (s : State) : (takeDraw s).2.env = s.env := by
  unfold takeDraw; split <;> rfl
@[simp] theorem takeDraw_inbox (s : State) : (takeDraw s).2.inbox = s.inbox := by
  unfold takeDraw; split <;> rfl
@[simp] theorem takeDraw_history (s : State) : (takeDraw s).2.history = s.history := by
  unfold takeDraw; split <;> rfl
@[simp] theorem takeDraw_outcomes (s : State) : (takeDraw s).2.outcomes = s.outcomes := by
  unfold takeDraw; split <;> rfl
@[simp] theorem takeDraw_result (s : State) : (takeDraw s).2.result = s.result := by
  unfold takeDraw; split <;> rfl

/-! `settle` and `endOperation`: what the end of an operation changes beside the lifecycle. -/

@[simp] theorem settle_cfg (op : OpKind) (o : OpOutcome) (s : State) : (settle op o s).cfg = s.cfg := by
  cases op <;> cases o <;> rfl
@[simp] theorem settle_seq (op : OpKind) (o : OpOutcome) (s : State) : (settle op o s).seq = s.seq := by
  cases op <;> cases o <;> rfl
@[simp] theorem settle_env (op : OpKind) (o : OpOutcome) (s : State) : (settle op o s).env = s.env := by
  cases op <;> cases o <;> rfl
@[simp] theorem settle_inbox (op : OpKind) (o : OpOutcome) (s : State) : (settle op o s).inbox = s.inbox := by
  cases op <;> cases o <;> rfl
@[simp] theorem settle_draws (op : OpKind) (o : OpOutcome) (s : State) : (settle op o s).draws = s.draws := by
  cases op <;> cases o <;> rfl
@[simp] theorem settle_drawn (op : OpKind) (o : OpOutcome) (s : State) : (settle op o s).drawn = s.drawn := by
  cases op <;> cases o <;> rfl
@[simp] theorem settle_history (op : OpKind) (o : OpOutcome) (s : State) : (settle op o s).history = s.history := by
  cases op <;> cases o <;> rfl
@[simp] theorem settle_outcomes (op : OpKind) (o : OpOutcome) (s : State) : (settle op o s).outcomes = s.outcomes := by
  cases op <;> cases o <;> rfl
@[simp] theorem settle_result (op : OpKind) (o : OpOutcome) (s : State) : (settle op o s).result = s.result := by
  cases op <;> cases o <;> rfl
@[simp] theorem endOperation_cfg (op : OpKind) (o : OpOutcome) (s : State) : (endOperation op o s).cfg = s.cfg := by
  simp [endOperation]
@[simp] theorem endOperation_seq (op : OpKind) (o : OpOutcome) (s : State) : (endOperation op o s).seq = .idle := by
  simp [endOperation]
@[simp] theorem endOperation_env (op : OpKind) (o : OpOutcome) (s : State) : (endOperation op o s).env = s.env := by
  simp [endOperation]
@[simp] theorem endOperation_inbox (op : OpKind) (o : OpOutcome) (s : State) : (endOperation op o s).inbox = s.inbox := by
  simp [endOperation]
@[simp] theorem endOperation_draws (op : OpKind) (o : OpOutcome) (s : State) : (endOperation op o s).draws = s.draws := by
  simp [endOperation]
@[simp] theorem endOperation_drawn (op : OpKind) (o : OpOutcome) (s : State) : (endOperation op o s).drawn = s.drawn := by
  simp [endOperation]
@[simp] theorem endOperation_history (op : OpKind) (o : OpOutcome) (s : State) : (endOperation op o s).history = s.history := by
  simp [endOperation]
@[simp] theorem endOperation_outcomes (op : OpKind) (o : OpOutcome) (s : State) : (endOperation op o s).outcomes = s.outcomes ++ [o] := by
  simp [endOperation]
@[simp] theorem endOperation_result (op : OpKind) (o : OpOutcome) (s : State) : (endOperation op o s).result = s.result := by
  simp [endOperation]

theorem endOperation_plain (o : OpOutcome) (s : State) :
    endOperation .plain o s = { s with seq := .idle, outcomes := s.outcomes ++ [o] } := rfl

theorem endOperation_release (o : OpOutcome) (s : State) :
    endOperation .release o s = { s with seq := .idle, outcomes := s.outcomes ++ [o], handle := none } := by
  cases o <;> rfl

theorem endOperation_bringUp_ok (s : State) :
    endOperation .bringUp .ok s = { s with seq := .idle, outcomes := s.outcomes ++ [.ok], phase := .ready } := rfl

theorem endOperation_bringUp_failed (o : OpOutcome) (h : o ≠ .ok) (s : State) :
    endOperation .bringUp o s = dropInstance { s with seq := .idle, outcomes := s.outcomes ++ [o] } := by
  cases o <;> first | rfl | exact absurd rfl h

end Sys2Proof.Laws
end

