-- ==== Sys2Proof/Laws/Ops.lean ====
section
/-! SUPPORT. One lemma for each shared operation, saying what it does: when the next draws complete, when one fails, and, whatever
is drawn, what it can change and what it adds to the history. -/

namespace Sys2Proof.Laws

open Sys2Proof.Machine Sys2Proof.Safety

/-! ## Runs -/

@[simp] theorem andThen_ok (s : State) (f : State → Run) : andThen (.ok s) f = f s := rfl
@[simp] theorem andThen_wait (s : State) (f : State → Run) : andThen (.wait s) f = .wait s := rfl
@[simp] theorem andThen_stop (o : OpOutcome) (s : State) (f : State → Run) : andThen (.stop o s) f = .stop o s := rfl

theorem andThen_assoc (r : Run) (f g : State → Run) : andThen (andThen r f) g = andThen r (fun s => andThen (f s) g) := by
  cases r <;> rfl

@[simp] theorem finish_ok (op : OpKind) (s : State) : finish op (.ok s) = endOperation op .ok s := rfl
@[simp] theorem finish_wait (op : OpKind) (s : State) : finish op (.wait s) = s := rfl
@[simp] theorem finish_stop (op : OpKind) (o : OpOutcome) (s : State) : finish op (.stop o s) = endOperation op o s := rfl

theorem refuse_eq (why : RefuseReason) (s : State) : refuse why s = refusedAs why s := rfl

theorem whenIdle_idle (f : State → State) (s : State) (h : s.seq = .idle) : whenIdle f s = f s := by
  simp [whenIdle, h]

theorem whenIdle_polling (f : State → State) (s : State) (p : Poll) (h : s.seq = .polling p) : whenIdle f s = s := by
  simp [whenIdle, h]

theorem whenReady_ready (f : State → State) (s : State) (h : Ready s) : whenReady f s = f s := by
  simp [whenReady, whenIdle_idle _ s h.2, h.1]

theorem whenReady_refused (f : State → State) (s : State) (h : s.seq = .idle) (hp : s.phase ≠ .ready) :
    whenReady f s = refusedAs .phase s := by
  simp [whenReady, whenIdle_idle _ s h, hp, refuse_eq]

/-- A gated operation does nothing, refuses, or runs. -/
theorem whenReady_cases (f : State → State) (s : State) :
    ((∃ p, s.seq = .polling p) ∧ whenReady f s = s) ∨
    (s.seq = .idle ∧ s.phase ≠ .ready ∧ whenReady f s = refusedAs .phase s) ∨ (Ready s ∧ whenReady f s = f s) := by
  rcases hs : s.seq with _ | p
  · by_cases hp : s.phase = .ready
    · exact .inr (.inr ⟨⟨hp, hs⟩, whenReady_ready f s ⟨hp, hs⟩⟩)
    · exact .inr (.inl ⟨rfl, hp, whenReady_refused f s hs hp⟩)
  · exact .inl ⟨⟨p, rfl⟩, by simp [whenReady, whenIdle_polling _ s p hs]⟩

/-! ## Transactions that complete -/

theorem takeDraw_cons {s : State} {d : Draw} {ds : List Draw} (h : s.draws = d :: ds) :
    takeDraw s = (d, { s with draws := ds }) := by
  simp [takeDraw, h]

theorem busWrite1_done {s : State} {b : Byte} {ds : List Draw} (h : s.draws = .ok b :: ds) (r : Nat) (v : Byte) :
    busWrite1 r v s = .ok (wrote (.w1 r v) r [v] s) := by
  simp [busWrite1, takeDraw_cons h, wrote, record, h]

theorem busWrite1_failed {s : State} {k : Option Nat} {ds : List Draw} (h : s.draws = .nack k :: ds) (r : Nat) (v : Byte) :
    busWrite1 r v s = .stop (.commError (.w1 r v))
      { s with draws := ds, history := s.history ++ [⟨s.handle, .w1 r v, .failed⟩], env := deliverPart s.cfg k r [v] s.env } := by
  simp [busWrite1, takeDraw_cons h, record]

theorem busWriteChunk_done {s : State} {b : Byte} {ds : List Draw} (h : s.draws = .ok b :: ds) (r : Nat) (bs : List Byte) :
    busWriteChunk r bs s = .ok (wrote (.wb r bs) r bs s) := by
  simp [busWriteChunk, takeDraw_cons h, wrote, record, h]

theorem busWriteChunk_failed {s : State} {k : Option Nat} {ds : List Draw} (h : s.draws = .nack k :: ds) (r : Nat)
    (bs : List Byte) :
    busWriteChunk r bs s = .stop (.commError (.wb r bs))
      { s with draws := ds, history := s.history ++ [⟨s.handle, .wb r bs, .failed⟩], env := deliverPart s.cfg k r bs s.env } := by
  simp [busWriteChunk, takeDraw_cons h, record]

theorem busRead1_done {s : State} {b : Byte} {ds : List Draw} (h : s.draws = .ok b :: ds) (k : Byte → State → Run) :
    busRead1 s k = k b (gotByte b s) := by
  simp [busRead1, takeDraw_cons h, gotByte, record, h]

theorem busRead1_failed {s : State} {k : Option Nat} {ds : List Draw} (h : s.draws = .nack k :: ds) (f : Byte → State → Run) :
    busRead1 s f = .stop (.commError .r1)
      { s with draws := ds, history := s.history ++ [⟨s.handle, .r1, .failed⟩] } := by
  simp [busRead1, takeDraw_cons h, record]

/-! ## Blocks -/

theorem chunksFuel_enough (n : Nat) (bs : List Byte) (h : bs.length ≤ n) : chunksFuel n bs = blockChunks bs := by
  unfold blockChunks
  induction n using Nat.strong_induction_on generalizing bs with
  | _ n ih =>
    match n, h with
    | 0, h => simp [List.length_eq_zero_iff.1 (Nat.le_zero.1 h), chunksFuel]
    | n + 1, h =>
      cases bs with
      | nil => simp [chunksFuel]
      | cons b bs =>
        have hd : ((b :: bs).drop blockMax).length ≤ bs.length := by
          simp only [List.length_drop, List.length_cons, blockMax]; omega
        have hn : bs.length ≤ n := by simpa using h
        simp only [chunksFuel, List.length_cons, Nat.add_one_ne_zero, if_false]
        rw [ih n (by omega) _ (by omega), ih bs.length (by omega) _ hd]

@[simp] theorem blockChunks_nil : blockChunks [] = [] := rfl

/-- The first block, and the blocks of the rest. -/
theorem blockChunks_cons (bs : List Byte) (h : bs ≠ []) :
    blockChunks bs = bs.take blockMax :: blockChunks (bs.drop blockMax) := by
  cases bs with
  | nil => exact absurd rfl h
  | cons b bs =>
    rw [← chunksFuel_enough bs.length ((b :: bs).drop blockMax)
      (by simp only [List.length_drop, List.length_cons, blockMax]; omega)]
    simp [blockChunks, chunksFuel]

/-- A payload of 1 to 32 bytes is one block. -/
theorem blockChunks_one (bs : List Byte) (h : bs ≠ []) (hl : bs.length ≤ blockMax) : blockChunks bs = [bs] := by
  rw [blockChunks_cons bs h, List.take_of_length_le hl, List.drop_eq_nil_of_le hl]; rfl

/-- A full block in front of more. -/
theorem blockChunks_full (bs cs : List Byte) (hl : bs.length = blockMax) :
    blockChunks (bs ++ cs) = bs :: blockChunks cs := by
  have hne : bs ++ cs ≠ [] := by intro h; rw [List.append_eq_nil_iff] at h; simp [h.1, blockMax] at hl
  rw [blockChunks_cons _ hne, ← hl, List.take_left, List.drop_left]

theorem busWriteBlk_one (r : Nat) (bs : List Byte) (s : State) (h : bs ≠ []) (hl : bs.length ≤ blockMax) :
    busWriteBlk r bs s = busWriteChunk r bs s := by
  rw [busWriteBlk, blockChunks_one bs h hl, busWriteChunks]
  cases busWriteChunk r bs s <;> rfl

theorem busWriteChunks_done (r : Nat) (cs : List (List Byte)) (bytes : List Byte) (rest : List Draw) (s : State)
    (h : DrawsOk bytes rest s) (hl : bytes.length = cs.length) :
    busWriteChunks r cs s = .ok (wroteChunks r cs s) := by
  induction cs generalizing bytes s with
  | nil => rfl
  | cons c cs ih =>
    cases bytes with
    | nil => simp at hl
    | cons b bytes =>
      rw [busWriteChunks, busWriteChunk_done (b := b) (ds := bytes.map Draw.ok ++ rest) (by simpa [DrawsOk] using h)]
      exact ih bytes _ (by simp [DrawsOk] at h ⊢; simp [h]) (by simpa using hl)

/-! ## The write primitive's blocks -/

/-- Flushes one after another. -/
def flushAll : List (List Byte) → State → Run
  | [], s => .ok s
  | c :: cs, s => andThen (flush c s) (flushAll cs)

@[simp] theorem enc_length (cfg : Params) (mask v : Byte) : (enc cfg mask v).length = 4 := rfl

theorem quads_length (cfg : Params) (mask : Byte) (vs : List Byte) :
    (vs.flatMap (enc cfg mask)).length = 4 * vs.length := by
  induction vs with
  | nil => rfl
  | cons v vs ih => simp [List.flatMap_cons, ih]; omega

/-- However a flush that goes on was drawn, the configuration is as it was. -/
theorem busWriteChunk_cfg {r : Nat} {bs : List Byte} {s t : State} (h : busWriteChunk r bs s = .ok t) : t.cfg = s.cfg := by
  unfold busWriteChunk at h
  split at h
  · rename_i hd; cases h; have := takeDraw_cfg s; rw [hd] at this; simpa using this
  · cases h

theorem busWriteChunks_cfg {r : Nat} {cs : List (List Byte)} {s t : State} (h : busWriteChunks r cs s = .ok t) :
    t.cfg = s.cfg := by
  induction cs generalizing s with
  | nil => cases h; rfl
  | cons c cs ih =>
    rw [busWriteChunks] at h
    cases hc : busWriteChunk r c s with
    | ok u => rw [hc] at h; exact (ih h).trans (busWriteChunk_cfg hc)
    | wait u => rw [hc] at h; cases h
    | stop o u => rw [hc] at h; cases h

theorem flush_cfg {buf : List Byte} {s t : State} (h : flush buf s = .ok t) : t.cfg = s.cfg := by
  unfold flush at h
  cases hc : busWriteBlk s.cfg.regOut buf s with
  | ok u => rw [hc] at h; cases h; exact (busWriteChunks_cfg hc :)
  | wait u => rw [hc] at h; cases h
  | stop o u => rw [hc] at h; cases h

/-- Two runs agree if they agree on what the first part can go on with. -/
theorem andThen_congr (r : Run) (f g : State → Run) (h : ∀ t, r = .ok t → f t = g t) : andThen r f = andThen r g := by
  cases r with
  | ok t => exact h t rfl
  | wait t => rfl
  | stop o t => rfl

theorem sendValues_buffered (mask : Byte) (vs buf : List Byte) (s : State) (hvs : vs ≠ []) (hb : buf.length < 32)
    (h4 : buf.length % 4 = 0) :
    sendValues mask vs buf s = flushAll (blockChunks (buf ++ vs.flatMap (enc s.cfg mask))) s := by
  induction vs generalizing buf s with
  | nil => exact absurd rfl hvs
  | cons v vs ih =>
    simp only [sendValues, List.flatMap_cons, ← List.append_assoc]
    have hlen : (buf ++ enc s.cfg mask v).length = buf.length + 4 := by simp
    by_cases hf : 32 ≤ buf.length + 4
    · have h32 : (buf ++ enc s.cfg mask v).length = blockMax := by rw [hlen, blockMax]; omega
      rw [if_pos (by simp [flushes, h32]), blockChunks_full _ _ h32, flushAll]
      refine andThen_congr _ _ _ fun t ht => ?_
      cases vs with
      | nil => rfl
      | cons w ws =>
        rw [← flush_cfg ht]
        exact ih [] t (by simp) (by simp) (by simp)
    · cases vs with
      | nil =>
        have hle : (buf ++ enc s.cfg mask v).length ≤ blockMax := by rw [hlen, blockMax]; omega
        rw [if_pos (by simp [flushes]), List.flatMap_nil, List.append_nil,
          blockChunks_one _ (by simp [enc]) hle, flushAll]
        rfl
      | cons w ws =>
        rw [if_neg (by simp [flushes, blockMax]; omega)]
        exact ih (buf ++ enc s.cfg mask v) s (by simp) (by omega) (by omega)

/-- Step 3 sends the quads of the values, in order, in blocks of 32 bytes (R136, R140). -/
theorem sendValues_blocks (mask : Byte) (vs : List Byte) (s : State) :
    sendValues mask vs [] s = flushAll (blockChunks (vs.flatMap (enc s.cfg mask))) s := by
  cases vs with
  | nil => rfl
  | cons v vs => exact sendValues_buffered mask (v :: vs) [] s (by simp) (by simp) (by simp)

/-- The sizes of blocks: none is empty, none above 32 bytes. -/
theorem blockChunks_sizes (bs : List Byte) : ∀ c ∈ blockChunks bs, c ≠ [] ∧ c.length ≤ blockMax := by
  induction h : bs.length using Nat.strong_induction_on generalizing bs with
  | _ n ih =>
    by_cases hb : bs = []
    · simp [hb]
    · rw [blockChunks_cons bs hb]
      intro c hc
      rcases List.mem_cons.1 hc with rfl | hc
      · refine ⟨?_, by simp [List.length_take]⟩
        intro h0
        have := List.take_eq_nil_iff.1 h0
        simp [blockMax, hb] at this
      · have hpos : 0 < bs.length := List.length_pos_iff.2 hb
        exact ih (bs.drop blockMax).length (by simp [List.length_drop, blockMax]; omega) _ rfl c hc

theorem flush_done {s : State} {b : Byte} {ds : List Draw} (h : s.draws = .ok b :: ds) (buf : List Byte) (hne : buf ≠ [])
    (hl : buf.length ≤ blockMax) : flush buf s = .ok (wroteBlock buf (lastByte s.gpio buf) s) := by
  rw [flush, busWriteBlk_one _ _ _ hne hl, busWriteChunk_done h]; rfl

theorem flush_failed {s : State} {k : Option Nat} {ds : List Draw} (h : s.draws = .nack k :: ds) (buf : List Byte)
    (hne : buf ≠ []) (hl : buf.length ≤ blockMax) :
    flush buf s = .stop (.commError (.wb s.cfg.regOut buf))
      { s with draws := ds, history := s.history ++ [⟨s.handle, .wb s.cfg.regOut buf, .failed⟩],
               env := deliverPart s.cfg k s.cfg.regOut buf s.env } := by
  rw [flush, busWriteBlk_one _ _ _ hne hl, busWriteChunk_failed h]; rfl

theorem flushAll_done (cs : List (List Byte)) (bytes : List Byte) (rest : List Draw) (s : State)
    (hs : ∀ c ∈ cs, c ≠ [] ∧ c.length ≤ blockMax) (h : DrawsOk bytes rest s) (hl : bytes.length = cs.length) :
    flushAll cs s = .ok (sentBlocks cs s) := by
  induction cs generalizing bytes s with
  | nil => rfl
  | cons c cs ih =>
    cases bytes with
    | nil => simp at hl
    | cons b bytes =>
      have hc := hs c List.mem_cons_self
      rw [flushAll, flush_done (b := b) (ds := bytes.map Draw.ok ++ rest) (by simpa [DrawsOk] using h) c hc.1 hc.2]
      exact ih bytes _ (fun d hd => hs d (List.mem_cons_of_mem _ hd)) (by simp [DrawsOk] at h ⊢; simp [h]) (by simpa using hl)

end Sys2Proof.Laws
end

