-- ==== Sys2Proof/Laws/Runs.lean ====
section
/-! SUPPORT. What a run of the shared operations can do, whatever the environment draws, said once: a property that each small
change keeps is kept by the whole run (`Stable`), and what the run adds to the history fits how it ends (`Moves`). -/

namespace Sys2Proof.Laws

open Sys2Proof.Machine Sys2Proof.Safety

/-! ## Properties kept by every run -/

/-- The state a run ends in, however it ends, has `P`. -/
def Sat (P : State → Prop) : Run → Prop
  | .ok s => P s
  | .wait s => P s
  | .stop _ s => P s

theorem sat_andThen {P : State → Prop} {r : Run} {f : State → Run} (h : Sat P r) (hf : ∀ t, P t → Sat P (f t)) :
    Sat P (andThen r f) := by
  cases r with
  | ok t => exact hf t h
  | wait t => exact h
  | stop o t => exact h

theorem sat_imp {P Q : State → Prop} {r : Run} (h : Sat P r) (hpq : ∀ t, P t → Q t) : Sat Q r := by
  cases r <;> exact hpq _ h

/-- `P` is kept by a draw and by an event. -/
structure StableTxn (P : State → Prop) : Prop where
  draw : ∀ s, P s → P (takeDraw s).2
  event : ∀ t e s, P s → P (record t e s)

/-- `P` is kept by a delivery of bytes to register `r`, in states of the configuration `cfg`. -/
def StableAt (P : State → Prop) (cfg : Params) (r : Nat) : Prop :=
  ∀ bs s, s.cfg = cfg → P s → P { s with env := deliver s.cfg r bs s.env }

/-- `P` is kept by what a write in NORMAL does: transactions to the output register, and `gpio` set. -/
structure StableOut (P : State → Prop) : Prop extends StableTxn P where
  out : ∀ cfg : Params, StableAt P cfg cfg.regOut
  gpio : ∀ v s, P s → P { s with gpio := v }

/-- `P` is kept by everything the write primitive does. -/
structure Stable (P : State → Prop) : Prop extends StableOut P where
  dir : ∀ cfg : Params, StableAt P cfg cfg.regs.dir
  ddrb : ∀ v s, P s → P { s with ddrb := v }
  seq : ∀ p s, P s → P { s with seq := .polling p }

theorem stableAt_part {P : State → Prop} {cfg : Params} {r : Nat} (hP : StableAt P cfg r) (k : Option Nat)
    (bs : List Byte) (s : State) (hc : s.cfg = cfg) (h : P s) : P { s with env := deliverPart s.cfg k r bs s.env } := by
  rcases deliverPart_cases s.cfg k r bs s.env with he | ⟨n, he⟩ <;> rw [he]
  · exact h
  · exact hP _ s hc h

theorem busWrite1_keeps {P : State → Prop} (hP : StableTxn P) (r : Nat) (v : Byte) (s : State)
    (hr : StableAt P s.cfg r) (h : P s) : Sat P (busWrite1 r v s) := by
  have hd := hP.draw s h
  have hc := takeDraw_cfg s
  unfold busWrite1
  split <;> rename_i heq <;> rw [heq] at hd hc
  · exact hP.event _ _ _ (hr [v] _ hc hd)
  · exact hP.event _ _ _ (stableAt_part hr _ [v] _ hc hd)

theorem busWriteChunk_keeps {P : State → Prop} (hP : StableTxn P) (r : Nat) (bs : List Byte)
    (s : State) (hr : StableAt P s.cfg r) (h : P s) : Sat P (busWriteChunk r bs s) := by
  have hd := hP.draw s h
  have hc := takeDraw_cfg s
  unfold busWriteChunk
  split <;> rename_i heq <;> rw [heq] at hd hc
  · exact hP.event _ _ _ (hr bs _ hc hd)
  · exact hP.event _ _ _ (stableAt_part hr _ bs _ hc hd)

theorem busWriteBlk_keeps {P : State → Prop} (hP : StableTxn P) (r : Nat) (bs : List Byte)
    (s : State) (hr : StableAt P s.cfg r) (h : P s) : Sat P (busWriteBlk r bs s) := by
  unfold busWriteBlk
  generalize blockChunks bs = cs
  induction cs generalizing s with
  | nil => exact h
  | cons c cs ih =>
    have hc := busWriteChunk_keeps hP r c s hr h
    rw [busWriteChunks]
    cases heq : busWriteChunk r c s with
    | ok t =>
      rw [heq] at hc
      exact ih t (by rw [busWriteChunk_cfg heq]; exact hr) hc
    | wait t => rw [heq] at hc; exact hc
    | stop o t => rw [heq] at hc; exact hc

theorem busRead1_keeps {P : State → Prop} (hP : StableTxn P) (k : Byte → State → Run) (s : State)
    (h : P s) (hk : ∀ b t, P t → Sat P (k b t)) : Sat P (busRead1 s k) := by
  have hd := hP.draw s h
  unfold busRead1
  split <;> rename_i heq <;> rw [heq] at hd
  · exact hk _ _ (hP.event _ _ _ hd)
  · exact hP.event _ _ _ hd

theorem flushAll_keeps {P : State → Prop} (hP : StableOut P) (cs : List (List Byte)) (s : State) (h : P s) :
    Sat P (flushAll cs s) := by
  induction cs generalizing s with
  | nil => exact h
  | cons c cs ih =>
    refine sat_andThen ?_ fun t ht => ih t ht
    exact sat_andThen (busWriteBlk_keeps hP.toStableTxn _ _ _ (hP.out _) h) fun t ht => hP.gpio _ _ ht

/-- Writes in NORMAL that re-arm nothing. -/
theorem runJobs_normal_keeps {P : State → Prop} (hP : StableOut P) (op : OpKind) (js : List Job) (s : State)
    (hn : InNormal s) (hj : ∀ j ∈ js, rearms s.cfg j = false) (h : P s) : Sat P (runJobs op js s) := by
  induction js generalizing s with
  | nil => exact h
  | cons j js ih =>
    have hq : StableOut (fun t => P t ∧ t.cfg = s.cfg ∧ t.ddrb = s.ddrb) :=
      { draw := fun t ht => ⟨hP.draw t ht.1, by simpa using ht.2⟩
        event := fun x e t ht => ⟨hP.event x e t ht.1, ht.2⟩
        out := fun cfg bs t hc ht => ⟨hP.out cfg bs t hc ht.1, ht.2⟩
        gpio := fun v t ht => ⟨hP.gpio v t ht.1, ht.2⟩ }
    have hf := flushAll_keeps hq (blockChunks (j.vals.flatMap (enc s.cfg (controlMask s.cfg s.gpio j.isData)))) s ⟨h, rfl, rfl⟩
    have hpend : pollPending s.cfg s.ddrb = false := by simpa [pollPending, InNormal] using hn
    rw [runJobs, pollIfPending, if_neg (by simp [hpend]), andThen_ok, sendJob, sendValues_blocks]
    cases hr : flushAll (blockChunks (j.vals.flatMap (enc s.cfg (controlMask s.cfg s.gpio j.isData)))) s with
    | ok t =>
      rw [hr] at hf
      rw [andThen_ok, rearm, if_neg (by rw [hf.2.1, hj j List.mem_cons_self]; simp), andThen_ok]
      refine ih t ?_ (fun k hk => by rw [hf.2.1]; exact hj k (List.mem_cons_of_mem _ hk)) hf.1
      unfold InNormal at *; rw [hf.2.1, hf.2.2]; exact hn
    | wait t => rw [hr] at hf; exact hf.1
    | stop o t => rw [hr] at hf; exact hf.1

theorem pollIterate_keeps {P : State → Prop} (hP : Stable P) (p : Poll)
    (s : State) (h : P s) : Sat P (pollIterate p s) := by
  unfold pollIterate
  refine sat_andThen (busWrite1_keeps hP.toStableTxn _ _ _ (hP.out _) h) fun t ht => ?_
  refine busRead1_keeps hP.toStableTxn _ _ (hP.gpio _ _ ht) fun b u hu => ?_
  refine sat_andThen (busWriteBlk_keeps hP.toStableTxn _ _ _ (hP.out _) hu) fun w hw => ?_
  split
  · split
    · exact hP.gpio _ _ hw
    · exact hP.seq _ { w with gpio := p.lo } (hP.gpio p.lo w hw)
  · exact busWrite1_keeps hP.toStableTxn _ _ _ (hP.dir _)
      (hP.ddrb (w.ddrb &&& ~~~w.cfg.busyDir) { w with gpio := p.lo } (hP.gpio p.lo w hw))

theorem pollIfPending_keeps {P : State → Prop} (hP : Stable P) (op : OpKind)
    (j : Job) (js : List Job) (s : State) (h : P s) : Sat P (pollIfPending op j js s) := by
  unfold pollIfPending
  split
  · exact sat_andThen (busWrite1_keeps hP.toStableTxn _ _ _ (hP.out _) h)
      fun t ht => pollIterate_keeps hP _ _ (hP.gpio _ _ ht)
  · exact h

theorem sendJob_keeps {P : State → Prop} (hP : Stable P) (j : Job) (s : State)
    (h : P s) : Sat P (sendJob j s) := by
  unfold sendJob
  rw [sendValues_blocks]
  refine sat_andThen (flushAll_keeps hP.toStableOut _ s h) fun t ht => ?_
  unfold rearm
  split
  · exact busWrite1_keeps hP.toStableTxn _ _ _ (hP.dir _) (hP.ddrb _ _ ht)
  · exact ht

theorem runJobs_keeps {P : State → Prop} (hP : Stable P) (op : OpKind)
    (js : List Job) (s : State) (h : P s) : Sat P (runJobs op js s) := by
  induction js generalizing s with
  | nil => exact h
  | cons j js ih =>
    exact sat_andThen (sat_andThen (pollIfPending_keeps hP op j js s h) fun t ht => sendJob_keeps hP j t ht) ih

/-- A poll that goes on, and the operation after it. -/
theorem resume_keeps {P : State → Prop} (hP : Stable P) (p : Poll) (s : State)
    (h : P s) : Sat P (andThen (andThen (pollIterate p s) (sendJob p.job)) (runJobs p.op p.rest)) :=
  sat_andThen (sat_andThen (pollIterate_keeps hP p s h) fun t ht => sendJob_keeps hP p.job t ht)
    fun t ht => runJobs_keeps hP p.op p.rest t ht

theorem tearDown_keeps {P : State → Prop} (hP : StableTxn P) (hA : ∀ cfg r, StableAt P cfg r) (s : State) (h : P s) :
    Sat P (tearDown s) :=
  sat_andThen (busWrite1_keeps hP _ _ _ (hA _ _) h) fun _ ht => busWriteBlk_keeps hP _ _ _ (hA _ _) ht

theorem bringUp_keeps {P : State → Prop} (hP : Stable P) (hA : ∀ cfg r, StableAt P cfg r)
    (hL : ∀ s, P s → P (loadShadows s)) (s : State) (h : P s) : Sat P (bringUp s) := by
  refine sat_andThen ?_ fun t ht => runJobs_keeps hP _ _ t ht
  refine sat_andThen (busWrite1_keeps hP.toStableTxn _ _ _ (hA _ _) h) fun t ht => ?_
  refine sat_andThen (busWriteBlk_keeps hP.toStableTxn _ _ _ (hA _ _) ht) fun u hu => ?_
  exact sat_andThen (busWrite1_keeps hP.toStableTxn _ _ _ (hA _ _) hu) fun w hw => hL w hw

/-- What no run of the write primitive changes. -/
structure SameBlock (s t : State) : Prop where
  cfg : t.cfg = s.cfg
  phase : t.phase = s.phase
  handle : t.handle = s.handle
  displayshift : t.displayshift = s.displayshift
  displaymode : t.displaymode = s.displaymode
  displaycontrol : t.displaycontrol = s.displaycontrol
  inbox : t.inbox = s.inbox
  outcomes : t.outcomes = s.outcomes
  result : t.result = s.result

theorem sameBlock_refl (s : State) : SameBlock s s := ⟨rfl, rfl, rfl, rfl, rfl, rfl, rfl, rfl, rfl⟩

theorem sameBlock_stable (s : State) : Stable (SameBlock s) where
  draw t h := by
    constructor <;> simp [h.cfg, h.phase, h.handle, h.displayshift, h.displaymode, h.displaycontrol, h.inbox, h.outcomes, h.result]
  event _ _ t h := ⟨h.cfg, h.phase, h.handle, h.displayshift, h.displaymode, h.displaycontrol, h.inbox, h.outcomes, h.result⟩
  out _ _ t _ h := ⟨h.cfg, h.phase, h.handle, h.displayshift, h.displaymode, h.displaycontrol, h.inbox, h.outcomes, h.result⟩
  dir _ _ t _ h := ⟨h.cfg, h.phase, h.handle, h.displayshift, h.displaymode, h.displaycontrol, h.inbox, h.outcomes, h.result⟩
  gpio _ t h := ⟨h.cfg, h.phase, h.handle, h.displayshift, h.displaymode, h.displaycontrol, h.inbox, h.outcomes, h.result⟩
  ddrb _ t h := ⟨h.cfg, h.phase, h.handle, h.displayshift, h.displaymode, h.displaycontrol, h.inbox, h.outcomes, h.result⟩
  seq _ t h := ⟨h.cfg, h.phase, h.handle, h.displayshift, h.displaymode, h.displaycontrol, h.inbox, h.outcomes, h.result⟩

/-! ## The history and how a run ends -/

/-- Events that completed, addressed by `h`. -/
def Clean (h : Option Handle) (es : List Event) : Prop := ∀ e ∈ es, e.dest = h ∧ e.ended ≠ .failed

/-- What a run from `s` adds to the history, by how it ends. -/
def Moves (s : State) : Run → Prop
  | .ok t => t.handle = s.handle ∧ t.seq = s.seq ∧ ∃ new, t.history = s.history ++ new ∧ Clean s.handle new
  | .wait t => t.handle = s.handle ∧ (∃ p, t.seq = .polling p) ∧ ∃ new, t.history = s.history ++ new ∧ Clean s.handle new
  | .stop o t => t.handle = s.handle ∧ t.seq = s.seq ∧ ∃ new, t.history = s.history ++ new ∧
      ((∃ n, o = .deviceUnresponsive n ∧ Clean s.handle new) ∨
       ∃ x before, o = .commError x ∧ new = before ++ [⟨s.handle, x, .failed⟩] ∧ Clean s.handle before)

theorem clean_nil (h : Option Handle) : Clean h [] := by intro e he; cases he

theorem clean_append {h : Option Handle} {a b : List Event} (ha : Clean h a) (hb : Clean h b) : Clean h (a ++ b) := by
  intro e he
  rcases List.mem_append.1 he with he | he
  · exact ha e he
  · exact hb e he

theorem moves_same {s t : State} (hh : t.handle = s.handle) (hs : t.seq = s.seq) (he : t.history = s.history) :
    Moves s (.ok t) := ⟨hh, hs, [], by simp [he], clean_nil _⟩

/-- Runs compose. -/
theorem moves_trans {s t : State} {r : Run} (h : Moves s (.ok t)) (hr : Moves t r) : Moves s r := by
  obtain ⟨h1, h2, new, h3, h4⟩ := h
  cases r with
  | ok u =>
    obtain ⟨g1, g2, more, g3, g4⟩ := hr
    exact ⟨g1.trans h1, g2.trans h2, new ++ more, by rw [g3, h3, List.append_assoc], clean_append h4 (h1 ▸ g4)⟩
  | wait u =>
    obtain ⟨g1, g2, more, g3, g4⟩ := hr
    exact ⟨g1.trans h1, g2, new ++ more, by rw [g3, h3, List.append_assoc], clean_append h4 (h1 ▸ g4)⟩
  | stop o u =>
    obtain ⟨g1, g2, more, g3, g4⟩ := hr
    refine ⟨g1.trans h1, g2.trans h2, new ++ more, by rw [g3, h3, List.append_assoc], ?_⟩
    rcases g4 with ⟨n, rfl, g4⟩ | ⟨x, before, rfl, rfl, g4⟩
    · exact .inl ⟨n, rfl, clean_append h4 (h1 ▸ g4)⟩
    · exact .inr ⟨x, new ++ before, rfl, by rw [h1, List.append_assoc], clean_append h4 (h1 ▸ g4)⟩

theorem moves_andThen {s : State} {r : Run} {f : State → Run} (h : Moves s r) (hf : ∀ t, Moves t (f t)) :
    Moves s (andThen r f) := by
  cases r with
  | ok t => exact moves_trans h (hf t)
  | wait t => exact h
  | stop o t => exact h

/-- A run from a state that differs only where `Moves` does not look. -/
theorem moves_from {s t : State} {r : Run} (hh : t.handle = s.handle) (hs : t.seq = s.seq) (he : t.history = s.history)
    (h : Moves t r) : Moves s r := moves_trans (moves_same hh hs he) h

theorem moves_done {s u : State} (x : Txn) (e : Ending) (hh : u.handle = s.handle) (hs : u.seq = s.seq)
    (he : u.history = s.history) (hn : e ≠ .failed) : Moves s (.ok (record x e u)) :=
  ⟨hh, hs, [⟨s.handle, x, e⟩], by simp [he, hh], by intro e' h; rw [List.mem_singleton.1 h]; exact ⟨rfl, hn⟩⟩

theorem moves_failed {s u : State} (x : Txn) (hh : u.handle = s.handle) (hs : u.seq = s.seq)
    (he : u.history = s.history) : Moves s (.stop (.commError x) (record x .failed u)) :=
  ⟨hh, hs, [⟨s.handle, x, .failed⟩], by simp [he, hh], .inr ⟨x, [], rfl, rfl, clean_nil _⟩⟩

theorem busWrite1_moves (r : Nat) (v : Byte) (s : State) : Moves s (busWrite1 r v s) := by
  have hh := takeDraw_handle s
  have hs := takeDraw_seq s
  have he := takeDraw_history s
  unfold busWrite1
  split <;> rename_i heq <;> rw [heq] at hh hs he
  · exact moves_done _ _ hh hs he (by simp)
  · exact moves_failed _ hh hs he

theorem busWriteChunk_moves (r : Nat) (bs : List Byte) (s : State) : Moves s (busWriteChunk r bs s) := by
  have hh := takeDraw_handle s
  have hs := takeDraw_seq s
  have he := takeDraw_history s
  unfold busWriteChunk
  split <;> rename_i heq <;> rw [heq] at hh hs he
  · exact moves_done _ _ hh hs he (by simp)
  · exact moves_failed _ hh hs he

theorem busWriteBlk_moves (r : Nat) (bs : List Byte) (s : State) : Moves s (busWriteBlk r bs s) := by
  unfold busWriteBlk
  generalize blockChunks bs = cs
  induction cs generalizing s with
  | nil => exact moves_same rfl rfl rfl
  | cons c cs ih => exact moves_andThen (busWriteChunk_moves r c s) ih

theorem busRead1_moves (k : Byte → State → Run) (s : State) (hk : ∀ b t, Moves t (k b t)) : Moves s (busRead1 s k) := by
  have hh := takeDraw_handle s
  have hs := takeDraw_seq s
  have he := takeDraw_history s
  unfold busRead1
  split <;> rename_i heq <;> rw [heq] at hh hs he
  · exact moves_trans (moves_done _ _ hh hs he (by simp)) (hk _ _)
  · exact moves_failed _ hh hs he

theorem pollIterate_moves (p : Poll) (s : State) : Moves s (pollIterate p s) := by
  unfold pollIterate
  refine moves_andThen (busWrite1_moves _ _ s) fun t => ?_
  refine moves_from (t := { t with gpio := p.hi }) rfl rfl rfl (busRead1_moves _ _ fun b u => ?_)
  refine moves_andThen (busWriteBlk_moves _ _ u) fun w => ?_
  split
  · split
    · exact ⟨rfl, rfl, [], by simp, .inl ⟨_, rfl, clean_nil _⟩⟩
    · exact ⟨rfl, ⟨_, rfl⟩, [], by simp, clean_nil _⟩
  · refine moves_from ?_ ?_ ?_ (busWrite1_moves _ _ _) <;> rfl

theorem pollIfPending_moves (op : OpKind) (j : Job) (js : List Job) (s : State) : Moves s (pollIfPending op j js s) := by
  unfold pollIfPending
  split
  · refine moves_andThen (busWrite1_moves _ _ s) fun t => ?_
    refine moves_from ?_ ?_ ?_ (pollIterate_moves _ _) <;> rfl
  · exact moves_same rfl rfl rfl

theorem sendJob_moves (j : Job) (s : State) : Moves s (sendJob j s) := by
  unfold sendJob
  rw [sendValues_blocks]
  generalize blockChunks _ = cs
  refine moves_andThen ?_ fun t => ?_
  · induction cs generalizing s with
    | nil => exact moves_same rfl rfl rfl
    | cons c cs ih =>
      refine moves_andThen (moves_andThen (busWriteBlk_moves _ _ s) fun t => ?_) ih
      exact moves_same rfl rfl rfl
  · unfold rearm
    split
    · refine moves_from ?_ ?_ ?_ (busWrite1_moves _ _ _) <;> rfl
    · exact moves_same rfl rfl rfl

theorem runJobs_moves (op : OpKind) (js : List Job) (s : State) : Moves s (runJobs op js s) := by
  induction js generalizing s with
  | nil => exact moves_same rfl rfl rfl
  | cons j js ih => exact moves_andThen (moves_andThen (pollIfPending_moves op j js s) (sendJob_moves j)) ih

theorem resume_moves (p : Poll) (s : State) :
    Moves s (andThen (andThen (pollIterate p s) (sendJob p.job)) (runJobs p.op p.rest)) :=
  moves_andThen (moves_andThen (pollIterate_moves p s) (sendJob_moves p.job)) (runJobs_moves p.op p.rest)

theorem tearDown_moves (s : State) : Moves s (tearDown s) :=
  moves_andThen (busWrite1_moves _ _ s) fun t => busWriteBlk_moves _ _ t

theorem registerLoad_moves (s : State) : Moves s (registerLoad s) := by
  unfold registerLoad
  refine moves_andThen (busWrite1_moves _ _ s) fun t => moves_andThen (busWriteBlk_moves _ _ t) fun u => ?_
  exact moves_andThen (busWrite1_moves _ _ u) fun w => moves_same rfl rfl rfl

theorem bringUp_moves (s : State) : Moves s (bringUp s) :=
  moves_andThen (registerLoad_moves s) fun t => runJobs_moves _ _ t

end Sys2Proof.Laws
end

