-- ==== Sys2Proof/Laws/Write.lean ====
section
/-! SUPPORT. The write primitive when the draws complete: the poll, the three kinds of write, and several writes in a row. -/

namespace Sys2Proof.Laws

open Sys2Proof.Machine Sys2Proof.Safety

theorem drawsOk_cons {b : Byte} {bytes : List Byte} {rest : List Draw} {s : State} (h : DrawsOk (b :: bytes) rest s) :
    s.draws = .ok b :: (bytes.map Draw.ok ++ rest) := h

/-- The draws after as many transactions as `n`. -/
theorem drawsOk_drop {bytes : List Byte} {rest : List Draw} {s t : State} (n : Nat) (h : DrawsOk bytes rest s)
    (hn : n ≤ bytes.length) (ht : t.draws = s.draws.drop n) : DrawsOk (bytes.drop n) rest t := by
  unfold DrawsOk at h ⊢
  rw [ht, h, List.drop_append_of_le_length (by simpa using hn), List.map_drop]

theorem drawsOk_tail {b : Byte} {bytes : List Byte} {rest : List Draw} {s t : State} (h : DrawsOk (b :: bytes) rest s)
    (ht : t.draws = s.draws.drop 1) : DrawsOk bytes rest t := by
  have := drawsOk_drop (t := t) 1 h (by simp) ht
  simpa using this

/-! ## Step 1 -/

theorem pollIfPending_normal (op : OpKind) (j : Job) (js : List Job) (s : State) (h : InNormal s) :
    pollIfPending op j js s = .ok s := by
  have : s.ddrb &&& s.cfg.busyDir = 0 := h
  simp [pollIfPending, pollPending, this]

theorem pollIfPending_pending (op : OpKind) (j : Job) (js : List Job) (s : State) (h : InPending s) :
    pollIfPending op j js s = pollStart op j js s := by
  have : s.ddrb &&& s.cfg.busyDir ≠ 0 := h
  rw [pollIfPending, if_pos (by simpa [pollPending] using this)]

/-- An iteration whose three transactions complete, before its exit tests. -/
theorem pollIterate_read (p : Poll) (x0 b x2 : Byte) (bytes : List Byte) (rest : List Draw) (s : State)
    (h : DrawsOk (x0 :: b :: x2 :: bytes) rest s) :
    pollIterate p s =
      if busyFlag b then
        if pollGivesUp s.cfg (p.n + 1) then .stop (.deviceUnresponsive (p.n + 1)) (iterated p.lo p.hi b s)
        else .wait { iterated p.lo p.hi b s with seq := .polling { p with n := p.n + 1 } }
      else busWrite1 s.cfg.regs.dir (s.ddrb &&& ~~~s.cfg.busyDir)
        { iterated p.lo p.hi b s with ddrb := s.ddrb &&& ~~~s.cfg.busyDir } := by
  unfold DrawsOk at h
  rw [pollIterate, busWrite1_done (by rw [h]; rfl), andThen_ok, busRead1_done (b := b) (ds := .ok x2 :: (bytes.map Draw.ok ++ rest)) (by simp [h]),
    busWriteBlk_one _ _ _ (by simp) (by simp [blockMax]),
    busWriteChunk_done (b := x2) (ds := bytes.map Draw.ok ++ rest) (by simp [h]), andThen_ok]
  rfl

theorem pollIterate_busy (p : Poll) (x0 b x2 : Byte) (rest : List Draw) (s : State) (hb : busyFlag b = true)
    (hg : pollGivesUp s.cfg (p.n + 1) = false) (h : DrawsOk [x0, b, x2] rest s) :
    pollIterate p s = .wait { iterated p.lo p.hi b s with seq := .polling { p with n := p.n + 1 } } := by
  rw [pollIterate_read p x0 b x2 [] rest s h, if_pos hb, hg]; rfl

theorem pollIterate_givesUp (p : Poll) (x0 b x2 : Byte) (rest : List Draw) (s : State) (hb : busyFlag b = true)
    (hg : pollGivesUp s.cfg (p.n + 1) = true) (h : DrawsOk [x0, b, x2] rest s) :
    pollIterate p s = .stop (.deviceUnresponsive (p.n + 1)) (iterated p.lo p.hi b s) := by
  rw [pollIterate_read p x0 b x2 [] rest s h, if_pos hb, if_pos hg]

/-- An iteration that reads "not busy" and the direction write after it. -/
theorem pollIterate_exit (p : Poll) (x0 b x2 x3 : Byte) (bytes : List Byte) (rest : List Draw) (s : State)
    (hb : busyFlag b = false) (h : DrawsOk (x0 :: b :: x2 :: x3 :: bytes) rest s) :
    pollIterate p s = .ok (wroteDir (s.ddrb &&& ~~~s.cfg.busyDir) (iterated p.lo p.hi b s)) := by
  rw [pollIterate_read p x0 b x2 (x3 :: bytes) rest s h, hb, if_neg (by simp),
    busWrite1_done (b := x3) (ds := bytes.map Draw.ok ++ rest)]
  · rfl
  · unfold DrawsOk at h; simp [iterated, h]

/-- A poll that is over at its first read. -/
theorem pollIfPending_done (op : OpKind) (j : Job) (js : List Job) (x0 x1 b x3 x4 : Byte) (bytes : List Byte)
    (rest : List Draw) (s : State) (hp : InPending s) (hb : busyFlag b = false)
    (h : DrawsOk (x0 :: x1 :: b :: x3 :: x4 :: bytes) rest s) : pollIfPending op j js s = .ok (polled b s) := by
  rw [pollIfPending_pending op j js s hp, pollStart, busWrite1_done (drawsOk_cons h), andThen_ok,
    pollIterate_exit _ x1 b x3 x4 bytes rest _ hb (by unfold DrawsOk at h ⊢; simp [h])]
  rfl

/-- A poll whose first read is busy: it gives up if one iteration is the bound, else it waits. -/
theorem pollIfPending_busy (op : OpKind) (j : Job) (js : List Job) (x0 x1 b x3 : Byte) (rest : List Draw) (s : State)
    (hp : InPending s) (hb : busyFlag b = true) (h : DrawsOk [x0, x1, b, x3] rest s) :
    pollIfPending op j js s =
      if pollGivesUp s.cfg 1 then .stop (.deviceUnresponsive 1) (pollEntered b s)
      else .wait { pollEntered b s with seq := .polling ⟨1, pollLo s.cfg s.gpio, pollHi s.cfg s.gpio, op, j, js⟩ } := by
  rw [pollIfPending_pending op j js s hp, pollStart, busWrite1_done (drawsOk_cons h), andThen_ok,
    pollIterate_read _ x1 b x3 [] rest _ (by unfold DrawsOk at h ⊢; simp [h]), if_pos hb]
  rfl

/-! Fields of `iterated`, `pollEntered` and `polled`. -/

@[simp] theorem iterated_cfg (lo hi b : Byte) (s : State) : (iterated lo hi b s).cfg = s.cfg := by simp [iterated]
@[simp] theorem iterated_seq (lo hi b : Byte) (s : State) : (iterated lo hi b s).seq = s.seq := by simp [iterated]
@[simp] theorem iterated_phase (lo hi b : Byte) (s : State) : (iterated lo hi b s).phase = s.phase := by simp [iterated]
@[simp] theorem iterated_handle (lo hi b : Byte) (s : State) : (iterated lo hi b s).handle = s.handle := by simp [iterated]
@[simp] theorem iterated_displayshift (lo hi b : Byte) (s : State) : (iterated lo hi b s).displayshift = s.displayshift := by simp [iterated]
@[simp] theorem iterated_displaymode (lo hi b : Byte) (s : State) : (iterated lo hi b s).displaymode = s.displaymode := by simp [iterated]
@[simp] theorem iterated_displaycontrol (lo hi b : Byte) (s : State) : (iterated lo hi b s).displaycontrol = s.displaycontrol := by simp [iterated]
@[simp] theorem iterated_inbox (lo hi b : Byte) (s : State) : (iterated lo hi b s).inbox = s.inbox := by simp [iterated]
@[simp] theorem iterated_outcomes (lo hi b : Byte) (s : State) : (iterated lo hi b s).outcomes = s.outcomes := by simp [iterated]
@[simp] theorem iterated_drawn (lo hi b : Byte) (s : State) : (iterated lo hi b s).drawn = s.drawn := by simp [iterated]
@[simp] theorem iterated_result (lo hi b : Byte) (s : State) : (iterated lo hi b s).result = s.result := by simp [iterated]
@[simp] theorem iterated_gpio (lo hi b : Byte) (s : State) : (iterated lo hi b s).gpio = lo := by simp [iterated]
@[simp] theorem iterated_ddrb (lo hi b : Byte) (s : State) : (iterated lo hi b s).ddrb = s.ddrb := by simp [iterated]
@[simp] theorem iterated_draws (lo hi b : Byte) (s : State) : (iterated lo hi b s).draws = s.draws.drop 3 := by
  simp [iterated, List.drop_drop]
@[simp] theorem iterated_history (lo hi b : Byte) (s : State) : (iterated lo hi b s).history =
    s.history ++ [⟨s.handle, .w1 s.cfg.regOut hi, .done⟩, ⟨s.handle, .r1, .byte b⟩, ⟨s.handle, .wb s.cfg.regOut [lo, hi, lo], .done⟩] := by
  simp [iterated]

@[simp] theorem pollEntered_cfg (b : Byte) (s : State) : (pollEntered b s).cfg = s.cfg := by simp [pollEntered]
@[simp] theorem pollEntered_seq (b : Byte) (s : State) : (pollEntered b s).seq = s.seq := by simp [pollEntered]
@[simp] theorem pollEntered_phase (b : Byte) (s : State) : (pollEntered b s).phase = s.phase := by simp [pollEntered]
@[simp] theorem pollEntered_handle (b : Byte) (s : State) : (pollEntered b s).handle = s.handle := by simp [pollEntered]
@[simp] theorem pollEntered_displayshift (b : Byte) (s : State) : (pollEntered b s).displayshift = s.displayshift := by simp [pollEntered]
@[simp] theorem pollEntered_displaymode (b : Byte) (s : State) : (pollEntered b s).displaymode = s.displaymode := by simp [pollEntered]
@[simp] theorem pollEntered_displaycontrol (b : Byte) (s : State) : (pollEntered b s).displaycontrol = s.displaycontrol := by simp [pollEntered]
@[simp] theorem pollEntered_inbox (b : Byte) (s : State) : (pollEntered b s).inbox = s.inbox := by simp [pollEntered]
@[simp] theorem pollEntered_outcomes (b : Byte) (s : State) : (pollEntered b s).outcomes = s.outcomes := by simp [pollEntered]
@[simp] theorem pollEntered_drawn (b : Byte) (s : State) : (pollEntered b s).drawn = s.drawn := by simp [pollEntered]
@[simp] theorem pollEntered_result (b : Byte) (s : State) : (pollEntered b s).result = s.result := by simp [pollEntered]
@[simp] theorem pollEntered_gpio (b : Byte) (s : State) : (pollEntered b s).gpio = (s.gpio &&& shared) ||| s.cfg.readbackBit := by
  simp [pollEntered]
@[simp] theorem pollEntered_ddrb (b : Byte) (s : State) : (pollEntered b s).ddrb = s.ddrb := by simp [pollEntered]
@[simp] theorem pollEntered_draws (b : Byte) (s : State) : (pollEntered b s).draws = s.draws.drop 4 := by
  simp [pollEntered]
@[simp] theorem pollEntered_history_length (b : Byte) (s : State) : (pollEntered b s).history.length = s.history.length + 4 := by
  simp [pollEntered]

@[simp] theorem polled_cfg (b : Byte) (s : State) : (polled b s).cfg = s.cfg := by simp [polled]
@[simp] theorem polled_seq (b : Byte) (s : State) : (polled b s).seq = s.seq := by simp [polled]
@[simp] theorem polled_phase (b : Byte) (s : State) : (polled b s).phase = s.phase := by simp [polled]
@[simp] theorem polled_handle (b : Byte) (s : State) : (polled b s).handle = s.handle := by simp [polled]
@[simp] theorem polled_displayshift (b : Byte) (s : State) : (polled b s).displayshift = s.displayshift := by simp [polled]
@[simp] theorem polled_displaymode (b : Byte) (s : State) : (polled b s).displaymode = s.displaymode := by simp [polled]
@[simp] theorem polled_displaycontrol (b : Byte) (s : State) : (polled b s).displaycontrol = s.displaycontrol := by simp [polled]
@[simp] theorem polled_inbox (b : Byte) (s : State) : (polled b s).inbox = s.inbox := by simp [polled]
@[simp] theorem polled_outcomes (b : Byte) (s : State) : (polled b s).outcomes = s.outcomes := by simp [polled]
@[simp] theorem polled_drawn (b : Byte) (s : State) : (polled b s).drawn = s.drawn := by simp [polled]
@[simp] theorem polled_result (b : Byte) (s : State) : (polled b s).result = s.result := by simp [polled]
@[simp] theorem polled_ddrb (b : Byte) (s : State) : (polled b s).ddrb = s.ddrb &&& ~~~s.cfg.busyDir := by simp [polled]
@[simp] theorem polled_gpio (b : Byte) (s : State) : (polled b s).gpio = (s.gpio &&& shared) ||| s.cfg.readbackBit := by
  simp [polled]
@[simp] theorem polled_draws (b : Byte) (s : State) : (polled b s).draws = s.draws.drop 5 := by
  simp [polled, List.drop_drop]

@[simp] theorem polled_history_length (b : Byte) (s : State) : (polled b s).history.length = s.history.length + 5 := by
  simp [polled]

/-- After a poll the block is in NORMAL. -/
theorem polled_normal (b : Byte) (s : State) : InNormal (polled b s) := by
  unfold InNormal
  rw [polled_ddrb, polled_cfg, BitVec.and_assoc]
  simp

/-! ## Steps 2 to 4 -/

theorem controlMask_command (cfg : Params) (g : Byte) : controlMask cfg g false = g &&& shared := by
  simp [controlMask]

theorem controlMask_data (cfg : Params) (g : Byte) : controlMask cfg g true = (g &&& shared) ||| cfg.rsBit := rfl

theorem lastByte_enc (d : Byte) (cfg : Params) (mask v : Byte) :
    lastByte d (enc cfg mask v) = mask ||| place4 cfg.order (lowNybble v) := rfl

theorem blockChunks_quad (cfg : Params) (mask v : Byte) : blockChunks (enc cfg mask v) = [enc cfg mask v] :=
  blockChunks_one _ (by simp [enc]) (by simp [blockMax])

@[simp] theorem sentQuad_cfg (mask v : Byte) (s : State) : (sentQuad mask v s).cfg = s.cfg := by simp [sentQuad]
@[simp] theorem sentQuad_seq (mask v : Byte) (s : State) : (sentQuad mask v s).seq = s.seq := by simp [sentQuad]
@[simp] theorem sentQuad_phase (mask v : Byte) (s : State) : (sentQuad mask v s).phase = s.phase := by simp [sentQuad]
@[simp] theorem sentQuad_handle (mask v : Byte) (s : State) : (sentQuad mask v s).handle = s.handle := by simp [sentQuad]
@[simp] theorem sentQuad_displayshift (mask v : Byte) (s : State) : (sentQuad mask v s).displayshift = s.displayshift := by simp [sentQuad]
@[simp] theorem sentQuad_displaymode (mask v : Byte) (s : State) : (sentQuad mask v s).displaymode = s.displaymode := by simp [sentQuad]
@[simp] theorem sentQuad_displaycontrol (mask v : Byte) (s : State) : (sentQuad mask v s).displaycontrol = s.displaycontrol := by simp [sentQuad]
@[simp] theorem sentQuad_inbox (mask v : Byte) (s : State) : (sentQuad mask v s).inbox = s.inbox := by simp [sentQuad]
@[simp] theorem sentQuad_outcomes (mask v : Byte) (s : State) : (sentQuad mask v s).outcomes = s.outcomes := by simp [sentQuad]
@[simp] theorem sentQuad_drawn (mask v : Byte) (s : State) : (sentQuad mask v s).drawn = s.drawn := by simp [sentQuad]
@[simp] theorem sentQuad_result (mask v : Byte) (s : State) : (sentQuad mask v s).result = s.result := by simp [sentQuad]
@[simp] theorem sentQuad_ddrb (mask v : Byte) (s : State) : (sentQuad mask v s).ddrb = s.ddrb := by simp [sentQuad]
@[simp] theorem sentQuad_draws (mask v : Byte) (s : State) : (sentQuad mask v s).draws = s.draws.drop 1 := by simp [sentQuad]
@[simp] theorem sentCommand_cfg (c : Byte) (s : State) : (sentCommand c s).cfg = s.cfg := by simp [sentCommand]
@[simp] theorem sentCommand_seq (c : Byte) (s : State) : (sentCommand c s).seq = s.seq := by simp [sentCommand]
@[simp] theorem sentCommand_phase (c : Byte) (s : State) : (sentCommand c s).phase = s.phase := by simp [sentCommand]
@[simp] theorem sentCommand_handle (c : Byte) (s : State) : (sentCommand c s).handle = s.handle := by simp [sentCommand]
@[simp] theorem sentCommand_displayshift (c : Byte) (s : State) : (sentCommand c s).displayshift = s.displayshift := by simp [sentCommand]
@[simp] theorem sentCommand_displaymode (c : Byte) (s : State) : (sentCommand c s).displaymode = s.displaymode := by simp [sentCommand]
@[simp] theorem sentCommand_displaycontrol (c : Byte) (s : State) : (sentCommand c s).displaycontrol = s.displaycontrol := by simp [sentCommand]
@[simp] theorem sentCommand_inbox (c : Byte) (s : State) : (sentCommand c s).inbox = s.inbox := by simp [sentCommand]
@[simp] theorem sentCommand_outcomes (c : Byte) (s : State) : (sentCommand c s).outcomes = s.outcomes := by simp [sentCommand]
@[simp] theorem sentCommand_drawn (c : Byte) (s : State) : (sentCommand c s).drawn = s.drawn := by simp [sentCommand]
@[simp] theorem sentCommand_result (c : Byte) (s : State) : (sentCommand c s).result = s.result := by simp [sentCommand]
@[simp] theorem sentCommand_ddrb (c : Byte) (s : State) : (sentCommand c s).ddrb = s.ddrb := by simp [sentCommand]
@[simp] theorem sentCommand_draws (c : Byte) (s : State) : (sentCommand c s).draws = s.draws.drop 1 := by simp [sentCommand]
@[simp] theorem sentCommand_gpio (c : Byte) (s : State) :
    (sentCommand c s).gpio = (s.gpio &&& shared) ||| place4 s.cfg.order (lowNybble c) := by simp [sentCommand, sentQuad]
@[simp] theorem sentPollable_cfg (c : Byte) (s : State) : (sentPollable c s).cfg = s.cfg := by simp [sentPollable]
@[simp] theorem sentPollable_seq (c : Byte) (s : State) : (sentPollable c s).seq = s.seq := by simp [sentPollable]
@[simp] theorem sentPollable_phase (c : Byte) (s : State) : (sentPollable c s).phase = s.phase := by simp [sentPollable]
@[simp] theorem sentPollable_handle (c : Byte) (s : State) : (sentPollable c s).handle = s.handle := by simp [sentPollable]
@[simp] theorem sentPollable_displayshift (c : Byte) (s : State) : (sentPollable c s).displayshift = s.displayshift := by simp [sentPollable]
@[simp] theorem sentPollable_displaymode (c : Byte) (s : State) : (sentPollable c s).displaymode = s.displaymode := by simp [sentPollable]
@[simp] theorem sentPollable_displaycontrol (c : Byte) (s : State) : (sentPollable c s).displaycontrol = s.displaycontrol := by simp [sentPollable]
@[simp] theorem sentPollable_inbox (c : Byte) (s : State) : (sentPollable c s).inbox = s.inbox := by simp [sentPollable]
@[simp] theorem sentPollable_outcomes (c : Byte) (s : State) : (sentPollable c s).outcomes = s.outcomes := by simp [sentPollable]
@[simp] theorem sentPollable_drawn (c : Byte) (s : State) : (sentPollable c s).drawn = s.drawn := by simp [sentPollable]
@[simp] theorem sentPollable_result (c : Byte) (s : State) : (sentPollable c s).result = s.result := by simp [sentPollable]
@[simp] theorem sentPollable_ddrb (c : Byte) (s : State) : (sentPollable c s).ddrb = s.ddrb ||| s.cfg.busyDir := by
  simp [sentPollable]
@[simp] theorem sentPollable_draws (c : Byte) (s : State) : (sentPollable c s).draws = s.draws.drop 2 := by
  simp [sentPollable]

@[simp] theorem sentCommand_history (c : Byte) (s : State) : (sentCommand c s).history =
    s.history ++ [⟨s.handle, .wb s.cfg.regOut (enc s.cfg (s.gpio &&& shared) c), .done⟩] := by
  simp [sentCommand, sentQuad]

theorem sentCommand_normal (c : Byte) (s : State) (h : InNormal s) : InNormal (sentCommand c s) := by
  unfold InNormal at *; simpa using h

theorem sendValues_command (c x : Byte) (bytes : List Byte) (rest : List Draw) (s : State)
    (h : DrawsOk (x :: bytes) rest s) :
    sendValues (controlMask s.cfg s.gpio false) [c] [] s = .ok (sentCommand c s) := by
  rw [sendValues_blocks, controlMask_command, List.flatMap_singleton, blockChunks_quad, flushAll,
    flush_done (drawsOk_cons h) _ (by simp [enc]) (by simp [blockMax])]
  rfl

/-- A command that is not pollable. -/
theorem sendJob_command (c x : Byte) (bytes : List Byte) (rest : List Draw) (s : State) (hc : isPollable s.cfg c = false)
    (h : DrawsOk (x :: bytes) rest s) : sendJob (cmdJob c) s = .ok (sentCommand c s) := by
  rw [sendJob]
  show andThen (sendValues (controlMask s.cfg s.gpio false) [c] [] s) (rearm (cmdJob c)) = _
  rw [sendValues_command c x bytes rest s h, andThen_ok, rearm, if_neg (by simp [rearms, cmdJob, hc])]

/-- A pollable command. -/
theorem sendJob_pollable (c x y : Byte) (bytes : List Byte) (rest : List Draw) (s : State) (hc : isPollable s.cfg c = true)
    (h : DrawsOk (x :: y :: bytes) rest s) : sendJob (cmdJob c) s = .ok (sentPollable c s) := by
  rw [sendJob]
  show andThen (sendValues (controlMask s.cfg s.gpio false) [c] [] s) (rearm (cmdJob c)) = _
  rw [sendValues_command c x (y :: bytes) rest s h, andThen_ok, rearm, if_pos (by simp [rearms, cmdJob, hc]),
    busWrite1_done (b := y) (ds := bytes.map Draw.ok ++ rest) (by unfold DrawsOk at h; simp [h])]
  rfl

theorem quadBlocks_length (cfg : Params) (mask : Byte) (bs : List Byte) :
    (blockChunks (bs.flatMap (enc cfg mask))).length = (bs.length + 7) / 8 := by
  induction h : bs.length using Nat.strong_induction_on generalizing bs with
  | _ n ih =>
    by_cases hb : bs = []
    · subst hb; simp at h; subst h; simp
    · have hpos : 0 < bs.length := List.length_pos_iff.2 hb
      have hd : (bs.flatMap (enc cfg mask)).drop blockMax =
          (bs.drop 8).flatMap (enc cfg mask) := by
        conv_lhs => rw [← List.take_append_drop 8 bs, List.flatMap_append]
        have hq := quads_length cfg mask (bs.take 8)
        rw [List.length_take] at hq
        by_cases h8 : 8 ≤ bs.length
        · rw [List.drop_append_of_le_length (by rw [hq, blockMax]; omega),
            List.drop_eq_nil_of_le (by rw [hq, blockMax]; omega), List.nil_append]
        · rw [List.drop_eq_nil_of_le (as := bs) (by omega), List.flatMap_nil, List.append_nil]
          exact List.drop_eq_nil_of_le (by rw [hq, blockMax]; omega)
      have hne : bs.flatMap (enc cfg mask) ≠ [] := by
        intro h0
        have := quads_length cfg mask bs
        rw [h0, List.length_nil] at this; omega
      rw [blockChunks_cons _ hne,
        List.length_cons, hd, ih (bs.drop 8).length (by rw [List.length_drop]; omega) _ rfl, List.length_drop]
      omega

theorem dataBlocks_length (s : State) (bs : List Byte) : (dataBlocks s bs).length = (bs.length + 7) / 8 :=
  quadBlocks_length _ _ bs

@[simp] theorem sentBlocks_keeps (cs : List (List Byte)) (s : State) :
    (sentBlocks cs s).cfg = s.cfg ∧ (sentBlocks cs s).ddrb = s.ddrb ∧ (sentBlocks cs s).seq = s.seq ∧
      (sentBlocks cs s).phase = s.phase ∧ (sentBlocks cs s).handle = s.handle ∧
      (sentBlocks cs s).outcomes = s.outcomes ∧ (sentBlocks cs s).draws = s.draws.drop cs.length := by
  induction cs generalizing s with
  | nil => simp [sentBlocks]
  | cons c cs ih =>
    have := ih (wroteBlock c (lastByte s.gpio c) s)
    simp [sentBlocks, this, Nat.add_comm]

theorem sentData_normal (bs : List Byte) (s : State) (h : InNormal s) : InNormal (sentData bs s) := by
  have := sentBlocks_keeps (dataBlocks s bs) s
  unfold InNormal at *
  rw [sentData, this.1, this.2.1, h]

/-- A data write. -/
theorem sendJob_data (bs bytes more : List Byte) (rest : List Draw) (s : State)
    (h : DrawsOk (bytes ++ more) rest s) (hl : bytes.length = (bs.length + 7) / 8) :
    sendJob (dataJob bs) s = .ok (sentData bs s) := by
  have hr : ∀ t, rearm (dataJob bs) t = .ok t := fun t => by simp [rearm, rearms, dataJob]
  rw [sendJob]
  show andThen (sendValues (controlMask s.cfg s.gpio true) bs [] s) (rearm (dataJob bs)) = _
  rw [sendValues_blocks, controlMask_data,
    flushAll_done _ bytes (more.map Draw.ok ++ rest) s (blockChunks_sizes _)
      (by unfold DrawsOk at h ⊢; simp [h]) (by rw [hl]; exact (dataBlocks_length s bs).symm), andThen_ok, hr]
  rfl

/-- Steps 2 to 4 of a write touch the output register's shadow, the direction shadow, the draws, the history and the expander. -/
theorem sentJob_keeps (j : Job) (s : State) :
    (sentJob j s).cfg = s.cfg ∧ (sentJob j s).seq = s.seq ∧ (sentJob j s).phase = s.phase ∧ (sentJob j s).handle = s.handle ∧
      (sentJob j s).outcomes = s.outcomes ∧ (sentJob j s).draws = s.draws.drop (jobTxns s.cfg j) ∧
      (sentJob j s).ddrb = if rearms s.cfg j then s.ddrb ||| s.cfg.busyDir else s.ddrb := by
  obtain ⟨h1, h2, h3, h4, h5, h6, h7⟩ :=
    sentBlocks_keeps (blockChunks (j.vals.flatMap (enc s.cfg (controlMask s.cfg s.gpio j.isData)))) s
  rw [quadBlocks_length] at h7
  rw [sentJob, jobTxns]
  generalize sentBlocks (blockChunks (j.vals.flatMap (enc s.cfg (controlMask s.cfg s.gpio j.isData)))) s = t at *
  by_cases hr : rearms s.cfg j = true <;> simp [hr, h1, h2, h3, h4, h5, h6, h7, List.drop_drop]

/-- Steps 2 to 4 of any write whose transactions complete. -/
theorem sendJob_done (j : Job) (bytes more : List Byte) (rest : List Draw) (s : State)
    (h : DrawsOk (bytes ++ more) rest s) (hl : bytes.length = jobTxns s.cfg j) : sendJob j s = .ok (sentJob j s) := by
  obtain ⟨own, tail, rfl, ho, ht⟩ : ∃ own tail, bytes = own ++ tail ∧ own.length = (j.vals.length + 7) / 8 ∧
      tail.length = if rearms s.cfg j then 1 else 0 :=
    ⟨bytes.take ((j.vals.length + 7) / 8), bytes.drop ((j.vals.length + 7) / 8), (List.take_append_drop ..).symm,
      by rw [List.length_take, hl, jobTxns]; omega, by rw [List.length_drop, hl, jobTxns]; omega⟩
  unfold DrawsOk at h
  rw [sendJob, sendValues_blocks, flushAll_done _ own (tail.map Draw.ok ++ (more.map Draw.ok ++ rest)) s (blockChunks_sizes _)
    (by simp [DrawsOk, h]) (by rw [ho, quadBlocks_length]), andThen_ok, rearm, sentJob]
  obtain ⟨hc, -, -, -, -, -, hd⟩ := sentBlocks_keeps (blockChunks (j.vals.flatMap (enc s.cfg (controlMask s.cfg s.gpio j.isData)))) s
  rw [quadBlocks_length, h, ← ho] at hd
  generalize sentBlocks (blockChunks (j.vals.flatMap (enc s.cfg (controlMask s.cfg s.gpio j.isData)))) s = t at *
  rw [hc]
  split
  · rename_i hr
    rw [if_pos hr] at ht
    obtain ⟨x, rfl⟩ := List.length_eq_one_iff.1 ht
    rw [← hc, busWrite1_done (b := x) (ds := more.map Draw.ok ++ rest) (by rw [hd]; simp)]
    rfl
  · rfl

/-! ## The register load -/

@[simp] theorem loaded_cfg (h : Handle) (s : State) : (loaded h s).cfg = s.cfg := rfl
@[simp] theorem loaded_gpio (h : Handle) (s : State) : (loaded h s).gpio = 0x00 := rfl
@[simp] theorem loaded_ddrb (h : Handle) (s : State) : (loaded h s).ddrb = s.cfg.ddrInit := rfl
@[simp] theorem loaded_outcomes (h : Handle) (s : State) : (loaded h s).outcomes = s.outcomes := rfl
@[simp] theorem loaded_draws (h : Handle) (s : State) : (loaded h s).draws = s.draws.drop 3 := by
  simp [loaded, wrote, List.drop_drop]

/-! ## Calls of the write primitive -/

theorem runJobs_normal (op : OpKind) (j : Job) (js : List Job) (s : State) (h : InNormal s) :
    runJobs op (j :: js) s = andThen (sendJob j s) (runJobs op js) := by
  rw [runJobs, pollIfPending_normal op j js s h, andThen_ok]

theorem runJobs_polled (op : OpKind) (j : Job) (js : List Job) (x0 x1 b x3 x4 : Byte) (bytes : List Byte)
    (rest : List Draw) (s : State) (hp : InPending s) (hb : busyFlag b = false)
    (h : DrawsOk (x0 :: x1 :: b :: x3 :: x4 :: bytes) rest s) :
    runJobs op (j :: js) s = andThen (sendJob j (polled b s)) (runJobs op js) := by
  rw [runJobs, pollIfPending_done op j js x0 x1 b x3 x4 bytes rest s hp hb h, andThen_ok]

@[simp] theorem runJobs_nil (op : OpKind) (s : State) : runJobs op [] s = .ok s := rfl

end Sys2Proof.Laws
end

