-- ==== Sys2Proof/Laws/Exec.lean ====
section
/-! SUPPORT. What the meaning of each host operation that writes amounts to: nothing, a refusal, or a run of calls of the write
primitive from a state in which at most its own display-mode shadow is new. -/

namespace Sys2Proof.Laws

open Sys2Proof.Machine Sys2Proof.Safety

/-- The ranges of the display-mode shadows (R41, R193). -/
def ModesOk (s : State) : Prop :=
  s.displaycontrol ≤ 0x07 ∧ s.displaymode ≤ 0x03 ∧
    (s.displayshift = 0x04 ∨ s.displayshift = 0x08 ∨ s.displayshift = 0x0C)

/-- `u` is `s` with new display-mode shadows, each only if `i` may change it. -/
structure Prepared (i : Instr) (s u : State) : Prop where
  eq : u = { s with displaycontrol := u.displaycontrol, displaymode := u.displaymode, displayshift := u.displayshift }
  control : mayChangeControl i = false → u.displaycontrol = s.displaycontrol
  mode : mayChangeMode i = false → u.displaymode = s.displaymode
  shift : mayChangeShift i = false → u.displayshift = s.displayshift
  modes : DefaultEncodings s.cfg → ModesOk s → ModesOk u

theorem prepared_self (i : Instr) (s : State) : Prepared i s s := ⟨rfl, fun _ => rfl, fun _ => rfl, fun _ => rfl, fun _ h => h⟩

/-- The command bytes of R90 with a bit above bit 1 set are not pollable. -/
theorem not_pollable {cfg : Params} (h : DefaultEncodings cfg) (c : Byte) (hc : c &&& 0xFC ≠ 0) :
    isPollable cfg c = false := by
  have hp := default_pollable h
  simp only [isPollable, hp, decide_eq_false_iff_not, List.mem_cons, List.not_mem_nil, or_false, not_or]
  exact ⟨fun e => hc (by rw [e]; decide), fun e => hc (by rw [e]; decide)⟩

/-- Which writes of an operation re-arm the poll: only the one of a pollable command. -/
def PollsRight (i : Instr) (cfg : Params) (js : List Job) : Prop :=
  DefaultEncodings cfg →
    if endsPending cfg i then ∃ c, js = [cmdJob c] ∧ isPollable cfg c = true else ∀ j ∈ js, rearms cfg j = false

theorem rearms_cmd (cfg : Params) (c : Byte) : rearms cfg (cmdJob c) = isPollable cfg c := rfl

theorem rearms_data (cfg : Params) (bs : List Byte) : rearms cfg (dataJob bs) = false := by
  cases bs <;> rfl

theorem pollsRight_fast {i : Instr} {cfg : Params} {c : Byte} (he : endsPending cfg i = false)
    (hc : DefaultEncodings cfg → c &&& 0xFC ≠ 0) : PollsRight i cfg [cmdJob c] := by
  intro h
  rw [he, if_neg (by simp)]
  intro j hj
  rw [List.mem_singleton.1 hj, rearms_cmd]
  exact not_pollable h c (hc h)

theorem bit_or (a b : Byte) (h : a &&& 0xFC ≠ 0) : (a ||| b) &&& 0xFC ≠ 0 := by
  intro e
  apply h
  have : (a ||| b) &&& 0xFC &&& a = a &&& 0xFC := by
    ext i; simp; cases a[i] <;> cases b[i] <;> simp
  rw [e] at this
  rw [← this]; simp

theorem laterLineJobs_rearms {cfg : Params} (h : DefaultEncodings cfg) (ls : List (List Byte)) :
    ∀ j ∈ laterLineJobs ls, rearms cfg j = false := by
  induction ls with
  | nil => intro j hj; cases hj
  | cons l ls ih =>
    intro j hj
    rcases List.mem_cons.1 hj with rfl | hj
    · exact not_pollable h _ (by decide)
    · rcases List.mem_cons.1 hj with rfl | hj
      · exact rearms_data cfg l
      · exact ih j hj

theorem textJobs_rearms {cfg : Params} (h : DefaultEncodings cfg) (text : List Byte) :
    ∀ j ∈ textJobs cfg text, rearms cfg j = false := by
  unfold textJobs
  split
  · intro j hj; cases hj
  · rename_i l ls _
    intro j hj
    rcases List.mem_cons.1 hj with rfl | hj
    · exact rearms_data cfg l
    · exact laterLineJobs_rearms h ls j hj

/-- A gated body that always prepares and runs. -/
theorem ready_run {i : Instr} {s : State} {f : State → State}
    (h : ∃ u js, Prepared i s u ∧ f s = runPlain js u ∧ PollsRight i s.cfg js) :
    whenReady f s = s ∧ (∃ p, s.seq = .polling p) ∨ (s.seq = .idle ∧ ∃ why, whenReady f s = refusedAs why s) ∨
      (Ready s ∧ ∃ u js, Prepared i s u ∧ whenReady f s = runPlain js u ∧ PollsRight i s.cfg js) := by
  rcases whenReady_cases f s with ⟨hp, he⟩ | ⟨hs, _, he⟩ | ⟨hr, he⟩
  · exact .inl ⟨he, hp⟩
  · exact .inr (.inl ⟨hs, _, he⟩)
  · obtain ⟨u, js, h1, h2, h3⟩ := h
    exact .inr (.inr ⟨hr, u, js, h1, he.trans h2, h3⟩)

/-- The same for a body that may refuse. -/
theorem ready_run_or_refuse {i : Instr} {s : State} {f : State → State}
    (h : (∃ why, f s = refusedAs why s) ∨ ∃ u js, Prepared i s u ∧ f s = runPlain js u ∧ PollsRight i s.cfg js) :
    whenReady f s = s ∧ (∃ p, s.seq = .polling p) ∨ (s.seq = .idle ∧ ∃ why, whenReady f s = refusedAs why s) ∨
      (Ready s ∧ ∃ u js, Prepared i s u ∧ whenReady f s = runPlain js u ∧ PollsRight i s.cfg js) := by
  rcases h with ⟨why, h⟩ | h
  · rcases whenReady_cases f s with ⟨hp, he⟩ | ⟨hs, _, he⟩ | ⟨hr, he⟩
    · exact .inl ⟨he, hp⟩
    · exact .inr (.inl ⟨hs, _, he⟩)
    · exact .inr (.inl ⟨hr.2, why, he.trans h⟩)
  · exact ready_run h

/-- An operation of the table of R192 that is admitted is a run of its writes, from the state with its shadow changed. -/
theorem exec_writesOf (i : Instr) (s s' : State) (js : List Job) (h : writesOf s i = some (s', js)) (hr : Ready s) :
    exec i s = .next (runPlain js s') := by
  have g : ∀ f : State → State, whenReady f s = f s := fun f => whenReady_ready f s hr
  cases i <;> simp only [writesOf, oneCommand, Option.map_some, Option.map_none, Option.some.injEq, Prod.mk.injEq, reduceCtorEq] at h
  case setCursor col row =>
    split at h
    · rename_i hh; simp at h; obtain ⟨rfl, rfl⟩ := h; simp [exec, execSetCursor, g, hh]
    · simp at h
  case defineGlyph =>
    split at h
    · rename_i hh; simp at h; obtain ⟨rfl, rfl⟩ := h; simp [exec, execDefineGlyph, g, hh.1, hh.2]
    · simp at h
  all_goals
    obtain ⟨rfl, rfl⟩ := h
    exact congrArg Host.Outcome.next (g _)

/-- What such an operation has changed before its first write: at most its shadow. -/
theorem writesOf_keeps (i : Instr) (s s' : State) (js : List Job) (h : writesOf s i = some (s', js)) :
    s'.cfg = s.cfg ∧ s'.ddrb = s.ddrb ∧ s'.gpio = s.gpio ∧ s'.draws = s.draws ∧ s'.outcomes = s.outcomes ∧ s'.env = s.env := by
  cases i <;> simp only [writesOf, oneCommand, Option.map_some, Option.map_none, Option.some.injEq, Prod.mk.injEq, reduceCtorEq] at h
  case setCursor => split at h <;> simp at h; obtain ⟨rfl, rfl⟩ := h; simp
  case defineGlyph => split at h <;> simp at h; obtain ⟨rfl, rfl⟩ := h; simp
  all_goals (obtain ⟨rfl, _⟩ := h; simp)

theorem control_run (i : Instr) (hi : mayChangeControl i = true)
    (he : ∀ cfg, endsPending cfg i = false) (v : Byte) (s : State)
    (hv : DefaultEncodings s.cfg → s.displaycontrol ≤ 0x07 → v ≤ 0x07) :
    ∃ u js, Prepared i s u ∧ setDisplaycontrol v s = runPlain js u ∧ PollsRight i s.cfg js :=
  ⟨{ s with displaycontrol := v }, _,
    ⟨rfl, fun h => absurd (hi.symm.trans h) (by simp), fun _ => rfl, fun _ => rfl, fun hd h => ⟨hv hd h.1, h.2⟩⟩, rfl,
    pollsRight_fast (he _) fun h => bit_or _ _ (by rw [default_cmdDisplay h]; decide)⟩

theorem mode_run (i : Instr) (hi : mayChangeMode i = true) (he : ∀ cfg, endsPending cfg i = false) (v : Byte) (s : State)
    (hv : DefaultEncodings s.cfg → s.displaymode ≤ 0x03 → v ≤ 0x03) :
    ∃ u js, Prepared i s u ∧ setDisplaymode v s = runPlain js u ∧ PollsRight i s.cfg js :=
  ⟨{ s with displaymode := v }, _,
    ⟨rfl, fun _ => rfl, fun h => absurd (hi.symm.trans h) (by simp), fun _ => rfl, fun hd h => ⟨h.1, hv hd h.2.1, h.2.2⟩⟩, rfl,
    pollsRight_fast (he _) fun h => bit_or _ _ (by rw [default_cmdEntry h]; decide)⟩

theorem shift_run (i : Instr) (hi : mayChangeShift i = true) (he : ∀ cfg, endsPending cfg i = false) (v : Byte) (s : State)
    (hv : DefaultEncodings s.cfg → v = 0x04 ∨ v = 0x08 ∨ v = 0x0C) :
    ∃ u js, Prepared i s u ∧ setDisplayshift v s = runPlain js u ∧ PollsRight i s.cfg js :=
  ⟨{ s with displayshift := v }, _,
    ⟨rfl, fun _ => rfl, fun _ => rfl, fun h => absurd (hi.symm.trans h) (by simp), fun hd h => ⟨h.1, h.2.1, hv hd⟩⟩, rfl,
    pollsRight_fast (he _) fun h => bit_or _ _ (by rw [default_cmdShift h]; decide)⟩

/-- Bits set, cleared and flipped below a power of two stay below it. -/
theorem or_le_seven (a b : Byte) (h : a ≤ 7) (hb : b ≤ 7) : a ||| b ≤ 7 := by
  rw [BitVec.le_def] at *
  have := Nat.or_lt_two_pow (n := 3) (Nat.lt_succ_of_le h) (Nat.lt_succ_of_le hb)
  rw [BitVec.toNat_or]; exact Nat.le_of_lt_succ this

theorem xor_le_seven (a b : Byte) (h : a ≤ 7) (hb : b ≤ 7) : a ^^^ b ≤ 7 := by
  rw [BitVec.le_def] at *
  have := Nat.xor_lt_two_pow (n := 3) (Nat.lt_succ_of_le h) (Nat.lt_succ_of_le hb)
  rw [BitVec.toNat_xor]; exact Nat.le_of_lt_succ this

theorem or_le_three (a b : Byte) (h : a ≤ 3) (hb : b ≤ 3) : a ||| b ≤ 3 := by
  rw [BitVec.le_def] at *
  have := Nat.or_lt_two_pow (n := 2) (Nat.lt_succ_of_le h) (Nat.lt_succ_of_le hb)
  rw [BitVec.toNat_or]; exact Nat.le_of_lt_succ this

theorem and_le (a b c : Byte) (h : a ≤ c) : a &&& b ≤ c := by
  rw [BitVec.le_def, BitVec.toNat_and] at *
  exact Nat.le_trans Nat.and_le_left h

/-- What a step of a host operation that only writes does, from its first transaction to its end or its wait. -/
theorem exec_writing (i : Instr) (s t : State) (hi : writesOnly i = true) (h : exec i s = .next t) :
    (t = s ∧ ∃ p, s.seq = .polling p) ∨ (s.seq = .idle ∧ ∃ why, t = refusedAs why s) ∨
      (Ready s ∧ ∃ u js, Prepared i s u ∧ t = runPlain js u ∧ PollsRight i s.cfg js) := by
  cases i <;> simp [writesOnly] at hi <;> injection h with h <;> subst h
  case writeCmd c =>
    refine ready_run ⟨s, _, prepared_self _ s, rfl, fun hc => ?_⟩
    cases hp : isPollable s.cfg c with
    | false => simp [endsPending, hp, rearms_cmd]
    | true => exact (if_pos hp).mpr ⟨c, rfl, hp⟩
  case writeData bs => exact ready_run ⟨s, _, prepared_self _ s, rfl, fun _ => by simp [endsPending, rearms_data]⟩
  case clear =>
    refine ready_run ⟨s, _, prepared_self _ s, rfl, fun hc => ⟨_, rfl, ?_⟩⟩
    have hp := default_pollable hc
    simp [isPollable, hp, cmdClear]
  case home =>
    refine ready_run ⟨s, _, prepared_self _ s, rfl, fun hc => ⟨_, rfl, ?_⟩⟩
    have hp := default_pollable hc
    have hh := default_cmdHome hc
    simp [isPollable, hp, hh]
  case displayOn =>
    exact ready_run (control_run _ rfl (fun _ => rfl) _ s (fun hd h => or_le_seven _ _ h (by rw [default_flagDisplayOn hd]; decide)))
  case displayOff =>
    exact ready_run (control_run _ rfl (fun _ => rfl) _ s (fun _ h => and_le _ _ _ h))
  case cursorOn =>
    exact ready_run (control_run _ rfl (fun _ => rfl) _ s (fun hd h => or_le_seven _ _ h (by rw [default_flagCursorOn hd]; decide)))
  case cursorOff =>
    exact ready_run (control_run _ rfl (fun _ => rfl) _ s (fun _ h => and_le _ _ _ h))
  case blinkOn =>
    exact ready_run (control_run _ rfl (fun _ => rfl) _ s (fun hd h => or_le_seven _ _ h (by rw [default_flagBlinkOn hd]; decide)))
  case blinkOff =>
    exact ready_run (control_run _ rfl (fun _ => rfl) _ s (fun _ h => and_le _ _ _ h))
  case toggleCursor =>
    exact ready_run (control_run _ rfl (fun _ => rfl) _ s (fun hd h => xor_le_seven _ _ h (by rw [default_flagCursorOn hd]; decide)))
  case toggleBlink =>
    exact ready_run (control_run _ rfl (fun _ => rfl) _ s (fun hd h => xor_le_seven _ _ h (by rw [default_flagBlinkOn hd]; decide)))
  case scrollLeft =>
    exact ready_run (shift_run _ rfl (fun _ => rfl) _ s (fun hd => by rw [default_flagDisplayMove hd]; decide))
  case scrollRight =>
    exact ready_run (shift_run _ rfl (fun _ => rfl) _ s
      (fun hd => by rw [default_flagDisplayMove hd, default_flagMoveRight hd]; decide))
  case leftToRight =>
    exact ready_run (mode_run _ rfl (fun _ => rfl) _ s (fun hd h => or_le_three _ _ h (by rw [default_flagEntryLeft hd]; decide)))
  case rightToLeft =>
    exact ready_run (mode_run _ rfl (fun _ => rfl) _ s (fun _ h => and_le _ _ _ h))
  case autoscrollOn =>
    exact ready_run (mode_run _ rfl (fun _ => rfl) _ s (fun hd h => or_le_three _ _ h (by rw [default_flagEntryShift hd]; decide)))
  case autoscrollOff =>
    exact ready_run (mode_run _ rfl (fun _ => rfl) _ s (fun _ h => and_le _ _ _ h))
  case setCursor col row =>
    refine ready_run_or_refuse ?_
    split
    · exact .inr ⟨s, _, prepared_self _ s, rfl, pollsRight_fast rfl fun hc => bit_or _ _ (by rw [default_cmdSetDdram hc]; decide)⟩
    · exact .inl ⟨_, rfl⟩
  case defineGlyph slot bm =>
    refine ready_run_or_refuse ?_
    split
    · refine .inr ⟨s, _, prepared_self _ s, rfl, fun hc => ?_⟩
      simp only [endsPending, Bool.false_eq_true, if_false, glyphJobs, List.mem_cons, List.not_mem_nil, or_false]
      rintro j (rfl | rfl | rfl)
      · exact not_pollable hc _ (bit_or _ _ (by rw [default_cmdSetCgram hc]; decide))
      · exact rearms_data _ _
      · exact not_pollable hc _ (by rw [default_cmdSetDdram hc]; decide)
    · exact .inl ⟨_, rfl⟩
  case writeText text =>
    exact ready_run ⟨s, _, prepared_self _ s, rfl, fun hc => by
      simpa [endsPending] using textJobs_rearms hc text⟩

/-- A run of writes, ended or waiting: what a host operation that only writes leaves of the state it started from. -/
theorem runPlain_cases (js : List Job) (u : State) :
    ∃ v, SameBlock u v ∧
      ((∃ p, v.seq = .polling p ∧ runPlain js u = v) ∨
       ∃ o, runPlain js u = { v with seq := .idle, outcomes := v.outcomes ++ [o] }) := by
  have hk := runJobs_keeps (sameBlock_stable u) .plain js u (sameBlock_refl u)
  have hm := runJobs_moves .plain js u
  unfold runPlain
  cases hr : runJobs .plain js u with
  | ok v => rw [hr] at hk; exact ⟨v, hk, .inr ⟨_, rfl⟩⟩
  | wait v =>
    rw [hr] at hk hm
    obtain ⟨p, hp⟩ := hm.2.1
    exact ⟨v, hk, .inl ⟨p, hp, rfl⟩⟩
  | stop o v => rw [hr] at hk; exact ⟨v, hk, .inr ⟨_, rfl⟩⟩

/-! ## Every instruction, every step -/

/-- How a run ends, as a state: a property that the end of an operation keeps. -/
theorem finish_sat {P : State → Prop} {op : OpKind} {r : Run} (h : Sat P r) (he : ∀ o t, P t → P (endOperation op o t)) :
    P (finish op r) := by
  cases r with
  | ok t => exact he _ t h
  | wait t => exact h
  | stop o t => exact he _ t h

/-- A micro-operation does nothing, refuses, or is one run. -/
theorem bus_cases {r : Nat} {s : State} {f : State → State} :
    (whenIdle (whenAddressable r f) s = s ∧ ∃ p, s.seq = .polling p) ∨
    (s.seq = .idle ∧ ∃ why, whenIdle (whenAddressable r f) s = refusedAs why s) ∨
    (s.seq = .idle ∧ s.handle ≠ none ∧ r ≤ 10 ∧ whenIdle (whenAddressable r f) s = f s) := by
  cases hs : s.seq with
  | polling p => exact .inl ⟨whenIdle_polling _ s p hs, p, rfl⟩
  | idle =>
    rw [whenIdle_idle _ s hs]
    unfold whenAddressable
    split
    · exact .inr (.inl ⟨rfl, _, rfl⟩)
    · rename_i h he
      split
      · rename_i hr
        exact .inr (.inr ⟨rfl, by simp [he], by simp [nregs] at hr; omega, rfl⟩)
      · exact .inr (.inl ⟨rfl, _, rfl⟩)

/-- What an instruction can do: nothing while an operation waits, a refusal, a command at the controller, an answer of the
encoder, or one run: of a micro-operation, of INIT, of TEARDOWN, of writes. -/
theorem exec_cases (i : Instr) (s t : State) (h : exec i s = .next t) :
    (t = s ∧ ∃ p, s.seq = .polling p) ∨ (s.seq = .idle ∧ ∃ why, t = refusedAs why s) ∨
    (∃ c, t = atController c s) ∨ (∃ bs, t = { s with result := bs }) ∨
    (s.seq = .idle ∧ s.handle ≠ none ∧ isBusOp i = true ∧
      ((∃ r v, r ≤ 10 ∧ t = finish .plain (busWrite1 r v s)) ∨ (∃ r bs, r ≤ 10 ∧ t = finish .plain (busWriteBlk r bs s)) ∨
        t = finish .plain (busRead1 s fun b u => .ok { u with result := [b] }))) ∨
    (s.seq = .idle ∧ s.phase = .uninit ∧ ∃ addr busid, i = .init addr busid ∧ addr.toNat ≤ 0x7F ∧
      t = finish .bringUp (bringUp { s with handle := some ⟨addr.setWidth 7, busid⟩ })) ∨
    (Ready s ∧ i = .teardown ∧ t = finish .release (tearDown { s with phase := .released })) ∨
    (Ready s ∧ writesOnly i = true ∧ ∃ u js, Prepared i s u ∧ t = runPlain js u ∧ PollsRight i s.cfg js) := by
  by_cases hw : writesOnly i = true
  · rcases exec_writing i s t hw h with h | h | ⟨h, h'⟩
    · exact .inl h
    · exact .inr (.inl h)
    · exact .inr (.inr (.inr (.inr (.inr (.inr (.inr ⟨h, hw, h'⟩))))))
  · cases i <;> simp [writesOnly] at hw <;> injection h with h <;> subst h
    case init addr busid =>
      cases hs : s.seq with
      | polling p => exact .inl ⟨whenIdle_polling _ s p hs, p, rfl⟩
      | idle =>
        rw [whenIdle_idle _ s hs]
        split
        · rename_i hu
          split
          · rename_i ha
            exact .inr (.inr (.inr (.inr (.inr (.inl ⟨rfl, hu, addr, busid, rfl, ha, by rw [← hs]⟩)))))
          · exact .inr (.inl ⟨rfl, _, rfl⟩)
        · exact .inr (.inl ⟨rfl, _, rfl⟩)
    case teardown =>
      rcases whenReady_cases (fun s => finish .release (tearDown { s with phase := .released })) s with
        ⟨hp, he⟩ | ⟨hs, _, he⟩ | ⟨hr, he⟩
      · exact .inl ⟨he, hp⟩
      · exact .inr (.inl ⟨hs, _, he⟩)
      · exact .inr (.inr (.inr (.inr (.inr (.inr (.inl ⟨hr, rfl, he⟩))))))
    case busWrite1 r v =>
      rcases bus_cases (r := r) (s := s) (f := fun s => finish .plain (busWrite1 r v s)) with h | h | ⟨h1, h2, h3, h4⟩
      · exact .inl h
      · exact .inr (.inl h)
      · exact .inr (.inr (.inr (.inr (.inl ⟨h1, h2, rfl, .inl ⟨r, v, h3, h4⟩⟩))))
    case busWriteBlk r bs =>
      rcases bus_cases (r := r) (s := s)
        (f := fun s => if bs.isEmpty then refuse .emptyBlock s else finish .plain (busWriteBlk r bs s)) with
        h | h | ⟨h1, h2, h3, h4⟩
      · exact .inl h
      · exact .inr (.inl h)
      · by_cases hb : bs.isEmpty = true
        · exact .inr (.inl ⟨h1, _, h4.trans (if_pos hb)⟩)
        · exact .inr (.inr (.inr (.inr (.inl ⟨h1, h2, rfl, .inr (.inl ⟨r, bs, h3, h4.trans (if_neg hb)⟩)⟩))))
    case busRead1 =>
      rcases bus_cases (r := 0) (s := s)
        (f := fun s => finish .plain (busRead1 s fun b s => .ok { s with result := [b] })) with h | h | ⟨h1, h2, _, h4⟩
      · exact .inl h
      · exact .inr (.inl h)
      · exact .inr (.inr (.inr (.inr (.inl ⟨h1, h2, rfl, .inr (.inr h4)⟩))))
    case encodeNybbles m v => exact .inr (.inr (.inr (.inl ⟨_, rfl⟩)))
    all_goals exact .inr (.inr (.inl ⟨_, rfl⟩))

/-- What a step can do. -/
theorem step_cases (s t : State) (h : step s = .next t) :
    (∃ p, s.seq = .polling p ∧ t = resumeOperation p s) ∨ (s.seq = .idle ∧ s.inbox = [] ∧ t = s) ∨
    (∃ p rest, s.seq = .idle ∧ s.inbox = p :: rest ∧
      ((∃ i, decode s.cfg.order p = .ok i ∧ exec i { s with inbox := rest } = .next t) ∨
       ((∃ e, decode s.cfg.order p = .error e) ∧ t = rejectPacket p.port { s with inbox := rest }))) := by
  cases hs : s.seq with
  | polling p =>
    simp only [step, hs] at h
    injection h with h
    exact .inl ⟨p, rfl, h.symm⟩
  | idle =>
    cases hi : s.inbox with
    | nil =>
      simp only [step, hs, hi] at h
      injection h with h
      exact .inr (.inl ⟨rfl, rfl, h.symm⟩)
    | cons p rest =>
      refine .inr (.inr ⟨p, rest, rfl, rfl, ?_⟩)
      have hst : step s = runPacket p { s with inbox := rest } := by rw [step, hs, hi]
      rw [← hs]
      rw [hst, runPacket] at h
      cases hd : decode s.cfg.order p with
      | ok i => simp only [hd] at h; exact .inl ⟨i, rfl, h⟩
      | error e =>
        simp only [hd] at h
        injection h with h
        exact .inr ⟨⟨e, rfl⟩, h.symm⟩

/-- A packet that is no instruction is refused, or at the controller does nothing. -/
theorem rejectPacket_cases (port : Port) (s : State) :
    rejectPacket port s = s ∨ rejectPacket port s = refusedAs .notAnOperation s := by
  cases port <;> simp [rejectPacket, refuse_eq]

end Sys2Proof.Laws
end

