-- ==== Sys2Proof/Laws/Lcd.lean ====
section
/-! SUPPORT. What the controller takes: bytes from nybbles, and what the four bytes of a quad do at the expander's pins. -/

namespace Sys2Proof.Laws

open Sys2Proof.Machine Sys2Proof.Safety

theorem byte_of_bits (v : Byte) :
    BitVec.ofBool (v.getLsbD 7) ++ BitVec.ofBool (v.getLsbD 6) ++ BitVec.ofBool (v.getLsbD 5) ++ BitVec.ofBool (v.getLsbD 4) ++
      BitVec.ofBool (v.getLsbD 3) ++ BitVec.ofBool (v.getLsbD 2) ++ BitVec.ofBool (v.getLsbD 1) ++ BitVec.ofBool (v.getLsbD 0) = v := by
  revert v; decide +kernel

theorem nybble_bits (v : Byte) :
    (highNybble v).getLsbD 3 = v.getLsbD 7 ∧ (highNybble v).getLsbD 2 = v.getLsbD 6 ∧
    (highNybble v).getLsbD 1 = v.getLsbD 5 ∧ (highNybble v).getLsbD 0 = v.getLsbD 4 ∧
    (lowNybble v).getLsbD 3 = v.getLsbD 3 ∧ (lowNybble v).getLsbD 2 = v.getLsbD 2 ∧
    (lowNybble v).getLsbD 1 = v.getLsbD 1 ∧ (lowNybble v).getLsbD 0 = v.getLsbD 0 := by
  revert v; decide +kernel

/-- The controller after the byte `v` has arrived whole. -/
def received (rs : Bool) (v : Byte) (l : Lcd) : Lcd :=
  let l := { l with received := l.received ++ [(rs, v)], exec := .fixed }
  match rs with
  | true => l
  | false => match decodeCmd8 v with
    | some c => lcdCommand c l
    | none => l

theorem lcdTake_byte (rs : Bool) (v : Byte) (l : Lcd) :
    lcdTake rs (v.getLsbD 7) (v.getLsbD 6) (v.getLsbD 5) (v.getLsbD 4) (v.getLsbD 3) (v.getLsbD 2) (v.getLsbD 1) (v.getLsbD 0) l =
      received rs v l := by
  unfold lcdTake received
  simp only [byte_of_bits]
  rfl

/-- Any eight levels are some byte. -/
theorem lcdTake_some_byte (rs b7 b6 b5 b4 b3 b2 b1 b0 : Bool) (l : Lcd) :
    ∃ v : Byte, lcdTake rs b7 b6 b5 b4 b3 b2 b1 b0 l = received rs v l ∧ v.getLsbD 7 = b7 ∧ v.getLsbD 6 = b6 ∧
      v.getLsbD 5 = b5 ∧ v.getLsbD 4 = b4 := by
  have h : ∀ b7 b6 b5 b4 b3 b2 b1 b0 : Bool,
      let v : Byte := BitVec.ofBool b7 ++ BitVec.ofBool b6 ++ BitVec.ofBool b5 ++ BitVec.ofBool b4 ++ BitVec.ofBool b3 ++
        BitVec.ofBool b2 ++ BitVec.ofBool b1 ++ BitVec.ofBool b0
      v.getLsbD 7 = b7 ∧ v.getLsbD 6 = b6 ∧ v.getLsbD 5 = b5 ∧
      v.getLsbD 4 = b4 ∧ v.getLsbD 3 = b3 ∧ v.getLsbD 2 = b2 ∧ v.getLsbD 1 = b1 ∧ v.getLsbD 0 = b0 := by decide +kernel
  have hv := h b7 b6 b5 b4 b3 b2 b1 b0
  generalize (BitVec.ofBool b7 ++ BitVec.ofBool b6 ++ BitVec.ofBool b5 ++ BitVec.ofBool b4 ++ BitVec.ofBool b3 ++
        BitVec.ofBool b2 ++ BitVec.ofBool b1 ++ BitVec.ofBool b0 : Byte) = v at hv
  obtain ⟨h7, h6, h5, h4, h3, h2, h1, h0⟩ := hv
  exact ⟨v, by rw [← lcdTake_byte, h7, h6, h5, h4, h3, h2, h1, h0], h7, h6, h5, h4⟩

/-- A command does not touch the half-byte phase, the log of bytes or the samples. -/
theorem lcdCommand_keeps (c : LcdCmd) (l : Lcd) :
    (lcdCommand c l).half = l.half ∧ (lcdCommand c l).received = l.received ∧ (lcdCommand c l).samples = l.samples := by
  cases c <;> exact ⟨rfl, rfl, rfl⟩

theorem received_keeps (rs : Bool) (v : Byte) (l : Lcd) :
    (received rs v l).half = l.half ∧ (received rs v l).received = l.received ++ [(rs, v)] ∧
      (received rs v l).samples = l.samples := by
  unfold received
  cases rs
  · simp only
    split
    · exact lcdCommand_keeps _ _
    · exact ⟨rfl, rfl, rfl⟩
  · exact ⟨rfl, rfl, rfl⟩

/-- Two nybbles on a byte boundary are a byte (R62). -/
theorem lcdNybble_byte (k1 k2 : Nat) (rs : Bool) (v : Byte) (l : Lcd) (he : l.eight = false) (hh : l.half = .even) :
    lcdNybble k2 rs (lowNybble v) (lcdNybble k1 rs (highNybble v) l) = received rs v l := by
  obtain ⟨h1, h2, h3, h4, h5, h6, h7, h8⟩ := nybble_bits v
  have h : lcdNybble k1 rs (highNybble v) l = { l with half := .wroteHigh rs (highNybble v) } := by
    simp [lcdNybble, he, hh]
  rw [h, lcdNybble, if_neg (by simp [he])]
  simp only [if_true, h1, h2, h3, h4, h5, h6, h7, h8, lcdTake_byte]
  congr 1
  rw [← hh]

/-- The nybble on the pins of a quad's byte, and its control levels, every pin being an output. -/
theorem pins_of_quad (mask : Byte) (n : Nybble) (k : Nat) (hm : mask &&& 0x7E = 0) :
    let b := mask ||| place4 .straight n ||| strobe
    pinLevel 0x00 b 0x40 k 6 = false ∧ pinLevel 0x00 b 0x80 k 7 = mask.getLsbD 7 ∧
    nybbleOfPins .straight (pinLevel 0x00 b 0x10 k 4) (pinLevel 0x00 b 0x08 k 3) (pinLevel 0x00 b 0x04 k 2)
      (pinLevel 0x00 b 0x02 k 1) = n ∧
    b &&& strobe ≠ 0 ∧ (mask ||| place4 .straight n) &&& strobe = 0 := by
  have hp : ∀ (b m : Byte) (i : Nat), pinLevel 0x00 b m k i = decide (b &&& m ≠ 0) := by
    intro b m i; simp [pinLevel]
  simp only [hp]
  revert mask n; decide +kernel

theorem pins_rise (cfg : Params) (dir old new : Byte) (l : Lcd) (h : old &&& strobe = 0) : pinsChange cfg dir old new l = l := by
  simp [pinsChange, h]

theorem pins_fall {cfg : Params} (hc : DefaultEncodings cfg) (mask : Byte) (n : Nybble) (l : Lcd)
    (hm : mask &&& 0x7E = 0) :
    pinsChange cfg 0x00 (mask ||| place4 .straight n ||| strobe) (mask ||| place4 .straight n) l =
      lcdNybble l.samples (mask.getLsbD 7) n { l with samples := l.samples + 1 } := by
  obtain ⟨h1, h2, h3, h4, h5⟩ := pins_of_quad mask n l.samples hm
  rw [pinsChange, if_pos ⟨h4, h5, by simp⟩, strobeFall]
  simp only [default_order hc, default_readbackBit hc, default_rsBit hc, h1, h2, h3, Bool.false_eq_true, if_false]

theorem lcdTake_samples (rs b7 b6 b5 b4 b3 b2 b1 b0 : Bool) (l : Lcd) :
    (lcdTake rs b7 b6 b5 b4 b3 b2 b1 b0 l).samples = l.samples := by
  obtain ⟨w, hw, _⟩ := lcdTake_some_byte rs b7 b6 b5 b4 b3 b2 b1 b0 l
  rw [hw]; exact (received_keeps _ _ _).2.2

/-- A pair half read and half write takes nothing or some byte. -/
theorem lcdMixedPair_cases (k : Nat) (l : Lcd) : lcdMixedPair k l = l ∨ ∃ rs v, lcdMixedPair k l = received rs v l := by
  unfold lcdMixedPair
  split
  · exact .inl rfl
  · exact .inr ⟨_, _, lcdTake_byte _ _ _⟩

theorem lcdMixedPair_samples (k : Nat) (l : Lcd) : (lcdMixedPair k l).samples = l.samples := by
  rcases lcdMixedPair_cases k l with h | ⟨rs, v, h⟩ <;> rw [h]
  exact (received_keeps _ _ _).2.2

theorem lcdNybble_samples (k : Nat) (rs : Bool) (n : Nybble) (l : Lcd) : (lcdNybble k rs n l).samples = l.samples := by
  unfold lcdNybble
  split
  · exact lcdTake_samples ..
  · split
    · rfl
    · exact lcdTake_samples ..
    · exact lcdMixedPair_samples _ _

/-- A byte for GPIO: register and latch hold it, and the pins go from the old latch to it. -/
theorem storeAt_gpio {cfg : Params} (hc : DefaultEncodings cfg) (b : Byte) (e : Env) (d l : Byte)
    (hd : memRead 0 e.mem = some d) (hl : memRead 10 e.mem = some l) :
    storeAt cfg 9 b e = { e with mem := memWrite 10 b (memWrite 9 b e.mem), lcd := pinsChange cfg d l b e.lcd } := by
  have hr := default_regs hc
  have hv : regValue e.mem 0 = d := by simp [regValue, hd]
  have hlat : regValue e.mem 10 = l := by simp [regValue, hl]
  rw [storeAt_inside cfg 9 b e (by decide), storeReg, storeFile, Env.latch, hr]
  simp [regNumbersDefault, hv, hlat]

/-- What a byte for GPIO leaves of the register file: the latch holds it, the registers below stand. -/
theorem gpio_write_mem (b : Byte) (m : Memory) : memRead 10 (memWrite 10 b (memWrite 9 b m)) = some b ∧
    memRead 0 (memWrite 10 b (memWrite 9 b m)) = memRead 0 m ∧ memRead 5 (memWrite 10 b (memWrite 9 b m)) = memRead 5 m := by
  refine ⟨memRead_memWrite_same _ _ _, ?_, ?_⟩ <;>
    rw [memRead_memWrite_other _ _ _ _ (by decide), memRead_memWrite_other _ _ _ _ (by decide)]

/-- The expander with every pin an output, non-sequential, the strobe low: a quad written to GPIO gives the controller its two
nybbles and leaves the strobe low. -/
theorem quad_at_pins {cfg : Params} (hc : DefaultEncodings cfg) (mask v : Byte) (hm : mask &&& 0x7E = 0) (e : Env) (old : Byte)
    (hd : memRead 0 e.mem = some 0x00) (hl : memRead 10 e.mem = some old) (ho : old &&& strobe = 0) :
    ∃ m, storeSame cfg 9 (enc cfg mask v) e = { e with
      mem := m,
      lcd := lcdNybble (e.lcd.samples + 1) (mask.getLsbD 7) (lowNybble v)
        { lcdNybble e.lcd.samples (mask.getLsbD 7) (highNybble v) { e.lcd with samples := e.lcd.samples + 1 }
          with samples := e.lcd.samples + 1 + 1 } } ∧
      memRead 0 m = some 0x00 ∧ memRead 5 m = memRead 5 e.mem ∧
      memRead 10 m = some (mask ||| place4 .straight (lowNybble v)) := by
  have hor := default_order hc
  have hp := pins_of_quad mask (highNybble v) e.lcd.samples hm
  have he : enc cfg mask v = [mask ||| place4 .straight (highNybble v) ||| strobe, mask ||| place4 .straight (highNybble v),
      mask ||| place4 .straight (lowNybble v) ||| strobe, mask ||| place4 .straight (lowNybble v)] := by simp [enc, hor]
  have hz : ∀ (b : Byte) (m : Memory), memRead 0 m = some 0x00 → memRead 0 (memWrite 10 b (memWrite 9 b m)) = some 0x00 :=
    fun b m h => (gpio_write_mem b m).2.1.trans h
  have h10 : ∀ (b : Byte) (m : Memory), memRead 10 (memWrite 10 b (memWrite 9 b m)) = some b := fun b m => (gpio_write_mem b m).1
  have h5 : ∀ (b : Byte) (m : Memory), memRead 5 (memWrite 10 b (memWrite 9 b m)) = memRead 5 m := fun b m => (gpio_write_mem b m).2.2
  refine ⟨_, ?_, hz _ _ (hz _ _ (hz (mask ||| place4 .straight (highNybble v)) _ (hz (mask ||| place4 .straight (highNybble v) ||| strobe) _ hd))),
    (h5 (mask ||| place4 .straight (lowNybble v)) _).trans ((h5 (mask ||| place4 .straight (lowNybble v) ||| strobe) _).trans
      ((h5 _ _).trans (h5 _ _))), h10 _ _⟩
  rw [he]
  simp only [storeSame]
  rw [storeAt_gpio hc _ e 0x00 old hd hl, storeAt_gpio hc (mask ||| place4 .straight (highNybble v)) _ 0x00 _ (hz _ _ hd) (h10 _ _),
    storeAt_gpio hc (mask ||| place4 .straight (lowNybble v) ||| strobe) _ 0x00 _ (hz _ _ (hz _ _ hd)) (h10 _ _),
    storeAt_gpio hc (mask ||| place4 .straight (lowNybble v)) _ 0x00 _ (hz _ _ (hz _ _ (hz _ _ hd))) (h10 _ _)]
  simp only [pins_rise cfg _ _ _ _ ho, pins_fall hc _ _ _ hm, pins_rise cfg _ _ _ _ hp.2.2.2.2, lcdNybble_samples]

end Sys2Proof.Laws
end

