-- ==== Sys2Proof/Laws/PerInstr.lean ====
section
/-! SUPPORT. Statements made per instruction: decoding what the encoder writes gives the instruction back. -/

namespace Sys2Proof.Laws.RoundTrip

/-- A well-formed instruction is what its packet decodes to, in either order of the data lines. -/
def Statement (i : Instr) : Prop := ∀ o : NybbleOrder, i.wellFormed = true → decode o (encode o i) = .ok i

theorem init (addr : Byte) (busid : Nat) : Statement (.init addr busid) := fun _ _ =>
  decode_whole (by simp [decodeAt, decodeHost, decInit, decNat_encNat_end])

theorem writeCmd (c : Byte) : Statement (.writeCmd c) := fun _ _ => rfl

theorem writeData (bs : List Byte) : Statement (.writeData bs) := fun _ _ =>
  decode_whole (by simp [decodeAt, decodeHost, decWriteData, decCounted_encCounted_end])

theorem teardown : Statement .teardown := fun _ _ => rfl

theorem clear : Statement .clear := fun _ _ => rfl

theorem home : Statement .home := fun _ _ => rfl

theorem displayOn : Statement .displayOn := fun _ _ => rfl

theorem displayOff : Statement .displayOff := fun _ _ => rfl

theorem cursorOn : Statement .cursorOn := fun _ _ => rfl

theorem cursorOff : Statement .cursorOff := fun _ _ => rfl

theorem blinkOn : Statement .blinkOn := fun _ _ => rfl

theorem blinkOff : Statement .blinkOff := fun _ _ => rfl

theorem toggleCursor : Statement .toggleCursor := fun _ _ => rfl

theorem toggleBlink : Statement .toggleBlink := fun _ _ => rfl

theorem scrollLeft : Statement .scrollLeft := fun _ _ => rfl

theorem scrollRight : Statement .scrollRight := fun _ _ => rfl

theorem leftToRight : Statement .leftToRight := fun _ _ => rfl

theorem rightToLeft : Statement .rightToLeft := fun _ _ => rfl

theorem autoscrollOn : Statement .autoscrollOn := fun _ _ => rfl

theorem autoscrollOff : Statement .autoscrollOff := fun _ _ => rfl

theorem busRead1 : Statement .busRead1 := fun _ _ => rfl

theorem setCursor (col : Nat) (row : Int) : Statement (.setCursor col row) := fun _ _ =>
  decode_whole (by simp [decodeAt, decodeHost, decSetCursor, decNat_encNat, decInt_encInt_end])

theorem defineGlyph (slot : Byte) (bm : List Byte) : Statement (.defineGlyph slot bm) := fun o h =>
  decode_whole (by
    have hl : bm.length = 8 := by simp [Instr.wellFormed] at h; exact h.2
    have hb : decBytes 8 bm = .ok (bm, []) := by simp [decBytes, hl, List.take_of_length_le, List.drop_eq_nil_of_le]
    simp [decodeAt, decodeHost, decDefineGlyph, hb])

theorem writeText (text : List Byte) : Statement (.writeText text) := fun _ _ =>
  decode_whole (by simp [decodeAt, decodeHost, decWriteText, decCounted_encCounted_end])

theorem busWrite1 (r : Nat) (v : Byte) : Statement (.busWrite1 r v) := fun o h =>
  decode_whole (by
    have hr : r % 256 = r := by simp [Instr.wellFormed] at h; omega
    simp [decodeAt, decodeBus, hr])

theorem busWriteBlk (r : Nat) (bs : List Byte) : Statement (.busWriteBlk r bs) := fun o h =>
  decode_whole (by
    have hr : r % 256 = r := by simp [Instr.wellFormed] at h; omega
    simp [decodeAt, decodeBus, hr, decCounted_encCounted_end])

theorem encodeNybbles (mask v : Byte) : Statement (.encodeNybbles mask v) := fun o h =>
  decode_whole (by
    have := decodeQuad_quadWord o mask v (by simpa [Instr.wellFormed] using h) []
    simpa [decodeAt] using this)

/-- A command byte at the controller. -/
theorem ctl (o : NybbleOrder) (c : LcdCmd) : decode o ⟨.ctl, [encodeCmd8 c]⟩ = .ok (ctlInstr c) :=
  decode_whole (by simp [decodeAt, decodeCtl, decodeCmd8_encodeCmd8])

theorem ctlSetDdram (a : BitVec 7) : Statement (.ctlSetDdram a) := fun o _ => ctl o (.setDdram a)

theorem ctlSetCgram (a : BitVec 6) : Statement (.ctlSetCgram a) := fun o _ => ctl o (.setCgram a)

theorem ctlFunctionSet (d n f : Bool) (x : BitVec 2) : Statement (.ctlFunctionSet d n f x) := fun o _ => ctl o (.functionSet d n f x)

theorem ctlShift (s r : Bool) (x : BitVec 2) : Statement (.ctlShift s r x) := fun o _ => ctl o (.shift s r x)

theorem ctlDisplayControl (d c b : Bool) : Statement (.ctlDisplayControl d c b) := fun o _ => ctl o (.displayControl d c b)

theorem ctlEntryMode (i s : Bool) : Statement (.ctlEntryMode i s) := fun o _ => ctl o (.entryMode i s)

theorem ctlHome (x : Bool) : Statement (.ctlHome x) := fun o _ => ctl o (.home x)

theorem ctlClear : Statement .ctlClear := fun o _ => ctl o .clear

end Sys2Proof.Laws.RoundTrip
end

