-- ==== Sys2Proof/Tests/Slice0.lean ====
section
/-! SUPPORT. Tests of the model. Expected values are the spec's own: the words of R92, R95, R81 and R91, the vectors of
96_derived_vectors.md (named in the comment of each test) and the worked examples of 95_test_vectors.md. Then, for each statement that
has hypotheses, a theorem that meets them. -/

namespace Sys2Proof.Tests

open Sys2Proof.Machine Sys2Proof.Safety

/-! ## Helpers -/

/-- An instance that is READY, its handle open, with the default modes. -/
def readyAt (gpio ddrb : Byte) (draws : List Draw) : State :=
  { State.reset with
    phase := .ready, handle := some ⟨0x20, 1⟩, gpio := gpio, ddrb := ddrb, displayshift := 0x04, displaymode := 0x02,
    displaycontrol := 0x04, draws := draws }

/-- The NORMAL start of the vectors: as left by INIT and DISPLAY_ON. -/
def normal (draws : List Draw) : State := readyAt 0x18 0x00 draws

/-- The POLL_PENDING start of the vectors: as left by INIT. -/
def pending (draws : List Draw) : State := readyAt 0x04 0x02 draws

/-- `n` transactions that complete; reads return "not busy". -/
def oks (n : Nat) : List Draw := List.replicate n (.ok 0x00)

/-- The same machine with four lines. -/
def fourLines (s : State) : State := { s with cfg := { s.cfg with numLines := 4 } }

/-- The same machine with a bounded poll. -/
def bounded (n : Nat) (s : State) : State := { s with cfg := { s.cfg with pollMax := some n } }

/-- The expander as completed operations leave it: register 5 known and non-sequential, the direction register as its shadow, the
latch known, the strobe low; the controller's 4-bit interface on a byte boundary. -/
def working (s : State) : State :=
  { s with env := { s.env with mem := [(0, s.ddrb), (5, 0x20), (10, 0x00)], lcd := { s.env.lcd with eight := false } } }

/-- A command that waits in its poll after `n` iterations. -/
def waiting (n : Nat) (draws : List Draw) : State :=
  { readyAt 0x40 0x02 draws with seq := .polling ⟨n, 0x40, 0x60, .plain, ⟨[0x0C], false⟩, []⟩ }

/-- The next state has these transactions, outcome, `gpio` and `ddrb`. -/
def gives (r : Host.Outcome State Fault Refusal) (txns : List Txn) (o : OpOutcome) (gpio ddrb : Byte) : Bool :=
  match r with
  | .next t => decide (t.history.map Event.txn = txns ∧ t.outcomes = [o] ∧ t.gpio = gpio ∧ t.ddrb = ddrb ∧ t.seq = .idle)
  | .fault _ => false
  | .refused _ => false

/-- A property of the next state. -/
def nextHas (r : Host.Outcome State Fault Refusal) (p : State → Bool) : Bool :=
  match r with
  | .next t => p t
  | .fault _ => false
  | .refused _ => false

/-- The five transactions of a poll that is over at its first read, `gpio` bit 0 being 0 (R133). -/
def onePoll : List Txn := [.w1 9 0x40, .w1 9 0x60, .r1, .wb 9 [0x40, 0x60, 0x40], .w1 0 0x00]

/-! ## Well-formedness -/

theorem test_wellFormed_init : (Instr.init 0x7F 1).wellFormed = true ∧ (Instr.init 0x80 1).wellFormed = false := by decide
theorem test_wellFormed_glyph_slot : (Instr.defineGlyph 7 (List.replicate 8 0)).wellFormed = true ∧
    (Instr.defineGlyph 8 (List.replicate 8 0)).wellFormed = false := by decide
theorem test_wellFormed_glyph_bitmap : (Instr.defineGlyph 0 (List.replicate 7 0)).wellFormed = false ∧
    (Instr.defineGlyph 0 (List.replicate 9 0)).wellFormed = false := by decide
theorem test_wellFormed_w1 : (Instr.busWrite1 10 0).wellFormed = true ∧ (Instr.busWrite1 11 0).wellFormed = false := by decide
theorem test_wellFormed_wb : (Instr.busWriteBlk 10 [0]).wellFormed = true ∧ (Instr.busWriteBlk 11 [0]).wellFormed = false ∧
    (Instr.busWriteBlk 9 []).wellFormed = false := by decide
theorem test_wellFormed_quad : (Instr.encodeNybbles 0x81 0xFF).wellFormed = true ∧
    (Instr.encodeNybbles 0x20 0).wellFormed = false := by decide
theorem test_wellFormed_params : paramsDefault.wellFormed = true ∧ { paramsDefault with numLines := 0 }.wellFormed = false ∧
    { paramsDefault with numLines := 5 }.wellFormed = false ∧
    { paramsDefault with pollMax := some 0 }.wellFormed = false := by decide

/-! ## Decoding: a word written out for every constructor -/

-- R92 and R94; the request of INIT is that of program P1 in 95_test_vectors.md.
theorem test_decode_lifecycle : decode .straight ⟨.host, [0x00, 0x20, 0x01]⟩ = .ok (.init 0x20 1) ∧
    decode .straight ⟨.host, [0x01]⟩ = .ok .teardown := ⟨rfl, rfl⟩
theorem test_decode_write : decode .straight ⟨.host, [0x02, 0x0C]⟩ = .ok (.writeCmd 0x0C) ∧
    decode .straight ⟨.host, [0x03, 0x02, 0x41, 0x42]⟩ = .ok (.writeData [0x41, 0x42]) ∧
    decode .straight ⟨.host, [0x22, 0x03, 0x41, 0x0A, 0x42]⟩ = .ok (.writeText [0x41, 0x0A, 0x42]) := ⟨rfl, rfl, rfl⟩
theorem test_decode_display : decode .straight ⟨.host, [0x10]⟩ = .ok .clear ∧ decode .straight ⟨.host, [0x11]⟩ = .ok .home ∧
    decode .straight ⟨.host, [0x12]⟩ = .ok .displayOn ∧ decode .straight ⟨.host, [0x13]⟩ = .ok .displayOff ∧
    decode .straight ⟨.host, [0x14]⟩ = .ok .cursorOn ∧ decode .straight ⟨.host, [0x15]⟩ = .ok .cursorOff ∧
    decode .straight ⟨.host, [0x16]⟩ = .ok .blinkOn ∧ decode .straight ⟨.host, [0x17]⟩ = .ok .blinkOff ∧
    decode .straight ⟨.host, [0x18]⟩ = .ok .toggleCursor ∧ decode .straight ⟨.host, [0x19]⟩ = .ok .toggleBlink :=
  ⟨rfl, rfl, rfl, rfl, rfl, rfl, rfl, rfl, rfl, rfl⟩
theorem test_decode_modes : decode .straight ⟨.host, [0x1A]⟩ = .ok .scrollLeft ∧ decode .straight ⟨.host, [0x1B]⟩ = .ok .scrollRight ∧
    decode .straight ⟨.host, [0x1C]⟩ = .ok .leftToRight ∧ decode .straight ⟨.host, [0x1D]⟩ = .ok .rightToLeft ∧
    decode .straight ⟨.host, [0x1E]⟩ = .ok .autoscrollOn ∧ decode .straight ⟨.host, [0x1F]⟩ = .ok .autoscrollOff :=
  ⟨rfl, rfl, rfl, rfl, rfl, rfl⟩
-- Operands below 0, and above one byte (log 1).
theorem test_decode_cursor : decode .straight ⟨.host, [0x20, 0x03, 0x7E]⟩ = .ok (.setCursor 3 (-2)) ∧
    decode .straight ⟨.host, [0x20, 0x80, 0x01, 0x01]⟩ = .ok (.setCursor 128 1) := ⟨rfl, rfl⟩
theorem test_decode_glyph : decode .straight ⟨.host, [0x21, 0x01, 0x00, 0x0A, 0x1F, 0x1F, 0x0E, 0x04, 0x00, 0x00]⟩ =
    .ok (.defineGlyph 1 [0x00, 0x0A, 0x1F, 0x1F, 0x0E, 0x04, 0x00, 0x00]) := rfl
-- R96: codes 0x04 to 0x0F and 0x23 up name no operation.
theorem test_decode_no_operation : decode .straight ⟨.host, [0x04]⟩ = .error (.noOperation 0x04) ∧
    decode .straight ⟨.host, [0x0F]⟩ = .error (.noOperation 0x0F) ∧ decode .straight ⟨.host, [0x23]⟩ = .error (.noOperation 0x23) ∧
    decode .straight ⟨.host, [0xFF]⟩ = .error (.noOperation 0xFF) ∧ decode .straight ⟨.host, []⟩ = .error .empty ∧
    decode .straight ⟨.host, [0x02]⟩ = .error .truncated ∧ decode .straight ⟨.host, [0x10, 0x00]⟩ = .error .trailing :=
  ⟨rfl, rfl, rfl, rfl, rfl, rfl, rfl⟩
-- R95: the tags of W1, WB and R1.
theorem test_decode_bus : decode .straight ⟨.bus, [0x00, 0x05, 0x20]⟩ = .ok (.busWrite1 5 0x20) ∧
    decode .straight ⟨.bus, [0x01, 0x09, 0x03, 0x40, 0x60, 0x40]⟩ = .ok (.busWriteBlk 9 [0x40, 0x60, 0x40]) ∧
    decode .straight ⟨.bus, [0x02]⟩ = .ok .busRead1 ∧ decode .straight ⟨.bus, [0x03]⟩ = .error (.noTransaction 0x03) := ⟨rfl, rfl, rfl, rfl⟩
-- R81; V-E2, V-E3, a word whose bytes disagree on the mask, and the word of V-E2 with its data lines reversed (93 G3).
theorem test_decode_quad : decode .straight ⟨.quad, [0xA8, 0x88, 0xA2, 0x82]⟩ = .ok (.encodeNybbles 0x80 0x41) ∧
    decode .straight ⟨.quad, [0xBF, 0x9F, 0xBF, 0x9F]⟩ = .ok (.encodeNybbles 0x81 0xFF) ∧
    decode .straight ⟨.quad, [0xA8, 0x88, 0xA2, 0x02]⟩ = .error .notAQuad ∧
    decode .reversed ⟨.quad, [0xA4, 0x84, 0xB0, 0x90]⟩ = .ok (.encodeNybbles 0x80 0x41) := ⟨rfl, rfl, rfl, rfl⟩
-- R91: 1AAAAAAA, 01AAAAAA, 001DNF--, 0001SR--, 00001DCB, 000001IS, 0000001-, 00000001.
theorem test_decode_commands : decode .straight ⟨.ctl, [0xC5]⟩ = .ok (.ctlSetDdram 0x45) ∧
    decode .straight ⟨.ctl, [0x48]⟩ = .ok (.ctlSetCgram 0x08) ∧ decode .straight ⟨.ctl, [0x2A]⟩ = .ok (.ctlFunctionSet false true false 2) ∧
    decode .straight ⟨.ctl, [0x1B]⟩ = .ok (.ctlShift true false 3) ∧
    decode .straight ⟨.ctl, [0x0C]⟩ = .ok (.ctlDisplayControl true false false) ∧
    decode .straight ⟨.ctl, [0x06]⟩ = .ok (.ctlEntryMode true false) ∧ decode .straight ⟨.ctl, [0x03]⟩ = .ok (.ctlHome true) ∧
    decode .straight ⟨.ctl, [0x01]⟩ = .ok .ctlClear ∧ decode .straight ⟨.ctl, [0x00]⟩ = .error .noCommand :=
  ⟨rfl, rfl, rfl, rfl, rfl, rfl, rfl, rfl, rfl⟩
-- Words as opcode_table.json numbers them (log 2).
theorem test_table_words : decodeTableWord 8 0x12 = some .displayOn ∧ decodeTableWord 2 2 = some .busRead1 ∧
    decodeTableWord 32 0xA888A282 = some (.encodeNybbles 0x80 0x41) ∧ decodeTableWord 8 0x80 = some (.ctlSetDdram 0) :=
  ⟨rfl, rfl, rfl, rfl⟩
theorem test_fetch_word : step (State.reset.withFetchWord 8 0x12) = .next (refusedAs .phase State.reset) := rfl

/-! ## One step for each instruction -/

-- Program P1: the bring-up (the trace in full is `initTrace`).
theorem test_init : nextHas (exec (.init 0x20 1) { State.reset with draws := oks 23 }) (fun t =>
    decide (t.history = initTrace ⟨0x20, 1⟩ 0x00 0x00 ∧ t.outcomes = [.ok] ∧ t.phase = .ready ∧ t.gpio = 0x04 ∧ t.ddrb = 0x02 ∧
      t.displayshift = 0x04 ∧ t.displaymode = 0x02 ∧ t.displaycontrol = 0x04)) = true := by decide +kernel
theorem test_init_refused : gives (exec (.init 0x80 1) State.reset) [] (.refused .addrRange) unsetShadow unsetShadow = true ∧
    gives (exec (.init 0x20 1) (normal [])) [] (.refused .phase) 0x18 0x00 = true := by decide +kernel
-- Program P6: TEARDOWN sends two transactions and leaves the shadows.
theorem test_teardown : gives (exec .teardown (pending (oks 2)))
    [.w1 5 0x00, .wb 0 [0x02, 0, 0, 0, 0, 0, 0, 0, 0, 0, 0]] .ok 0x04 0x02 = true ∧
    nextHas (exec .teardown (pending (oks 2))) (fun t => decide (t.phase = .released ∧ t.handle = none)) = true := by
  decide +kernel
-- V-D3 and V-D12.
theorem test_writeCmd_pending : gives (exec (.writeCmd 0x01) (pending (oks 7)))
    (onePoll ++ [.wb 9 [0x20, 0x00, 0x22, 0x02], .w1 0 0x02]) .ok 0x02 0x02 = true := by decide +kernel
theorem test_writeCmd_normal : gives (exec (.writeCmd 0x00) (normal (oks 1))) [.wb 9 [0x20, 0x00, 0x20, 0x00]] .ok 0x00 0x00 = true := by
  decide +kernel
-- V-D6 (the block of 32 and the block of 4) and V-D9.
theorem test_writeData_blocks : gives (exec (.writeData [0x48, 0x45, 0x4C, 0x4C, 0x4F, 0x2C, 0x20, 0x57, 0x4F]) (normal (oks 2)))
    [.wb 9 [0xA8, 0x88, 0xB0, 0x90, 0xA8, 0x88, 0xAA, 0x8A, 0xA8, 0x88, 0xB8, 0x98, 0xA8, 0x88, 0xB8, 0x98,
      0xA8, 0x88, 0xBE, 0x9E, 0xA4, 0x84, 0xB8, 0x98, 0xA4, 0x84, 0xA0, 0x80, 0xAA, 0x8A, 0xAE, 0x8E],
     .wb 9 [0xA8, 0x88, 0xBE, 0x9E]] .ok 0x9E 0x00 = true := by decide +kernel
theorem test_writeData_empty : gives (exec (.writeData []) (pending (oks 5))) onePoll .ok 0x40 0x00 = true := by decide +kernel
-- R170 to R179 with the quads of the table in section 2 of 96_derived_vectors.md.
theorem test_clear : gives (exec .clear (normal (oks 2))) [.wb 9 [0x20, 0x00, 0x22, 0x02], .w1 0 0x02] .ok 0x02 0x02 = true := by
  decide +kernel
theorem test_home : gives (exec .home (normal (oks 2))) [.wb 9 [0x20, 0x00, 0x24, 0x04], .w1 0 0x02] .ok 0x04 0x02 = true := by
  decide +kernel
theorem test_displayOn : gives (exec .displayOn { normal (oks 1) with displaycontrol := 0x01 })
    [.wb 9 [0x20, 0x00, 0x3A, 0x1A]] .ok 0x1A 0x00 = true := by decide +kernel
theorem test_displayOff : gives (exec .displayOff (normal (oks 1))) [.wb 9 [0x20, 0x00, 0x30, 0x10]] .ok 0x10 0x00 = true := by
  decide +kernel
theorem test_cursorOn : gives (exec .cursorOn (normal (oks 1))) [.wb 9 [0x20, 0x00, 0x3C, 0x1C]] .ok 0x1C 0x00 = true := by
  decide +kernel
theorem test_cursorOff : gives (exec .cursorOff { normal (oks 1) with displaycontrol := 0x07 })
    [.wb 9 [0x20, 0x00, 0x3A, 0x1A]] .ok 0x1A 0x00 = true := by decide +kernel
theorem test_blinkOn : gives (exec .blinkOn (normal (oks 1))) [.wb 9 [0x20, 0x00, 0x3A, 0x1A]] .ok 0x1A 0x00 = true := by
  decide +kernel
theorem test_blinkOff : gives (exec .blinkOff { normal (oks 1) with displaycontrol := 0x07 })
    [.wb 9 [0x20, 0x00, 0x3C, 0x1C]] .ok 0x1C 0x00 = true := by decide +kernel
theorem test_toggleCursor : gives (exec .toggleCursor { normal (oks 1) with displaycontrol := 0x06 })
    [.wb 9 [0x20, 0x00, 0x38, 0x18]] .ok 0x18 0x00 = true := by decide +kernel
theorem test_toggleBlink : gives (exec .toggleBlink (normal (oks 1))) [.wb 9 [0x20, 0x00, 0x3A, 0x1A]] .ok 0x1A 0x00 = true := by
  decide +kernel
-- R180 to R185.
theorem test_scrollLeft : gives (exec .scrollLeft (normal (oks 1))) [.wb 9 [0x22, 0x02, 0x30, 0x10]] .ok 0x10 0x00 = true ∧
    nextHas (exec .scrollLeft (normal (oks 1))) (fun t => t.displayshift == 0x08) = true := by decide +kernel
theorem test_scrollRight : gives (exec .scrollRight (normal (oks 1))) [.wb 9 [0x22, 0x02, 0x38, 0x18]] .ok 0x18 0x00 = true ∧
    nextHas (exec .scrollRight (normal (oks 1))) (fun t => t.displayshift == 0x0C) = true := by decide +kernel
theorem test_leftToRight : gives (exec .leftToRight { normal (oks 1) with displaymode := 0x01 })
    [.wb 9 [0x20, 0x00, 0x2E, 0x0E]] .ok 0x0E 0x00 = true := by decide +kernel
theorem test_rightToLeft : gives (exec .rightToLeft (normal (oks 1))) [.wb 9 [0x20, 0x00, 0x28, 0x08]] .ok 0x08 0x00 = true := by
  decide +kernel
theorem test_autoscrollOn : gives (exec .autoscrollOn (normal (oks 1))) [.wb 9 [0x20, 0x00, 0x2E, 0x0E]] .ok 0x0E 0x00 = true := by
  decide +kernel
theorem test_autoscrollOff : gives (exec .autoscrollOff { normal (oks 1) with displaymode := 0x03 })
    [.wb 9 [0x20, 0x00, 0x2C, 0x0C]] .ok 0x0C 0x00 = true := by decide +kernel
-- V-C7 to V-C15: the highest address admitted, and one above it.
theorem test_setCursor : gives (exec (.setCursor 63 1) (normal (oks 1))) [.wb 9 [0x3E, 0x1E, 0x3E, 0x1E]] .ok 0x1E 0x00 = true ∧
    gives (exec (.setCursor 64 1) (normal [])) [] (.refused .columnRange) 0x18 0x00 = true := by decide +kernel
theorem test_setCursor_clamped : gives (exec (.setCursor 2 9) (fourLines (normal (oks 1)))) [.wb 9 [0x3A, 0x1A, 0x2C, 0x0C]] .ok
    0x0C 0x00 = true := by decide +kernel
-- V-T2, V-T4 and V-T5.
theorem test_defineGlyph : gives (exec (.defineGlyph 7 (List.replicate 8 0x1F)) (normal (oks 3)))
    [.wb 9 [0x2E, 0x0E, 0x30, 0x10], .wb 9 ((List.replicate 8 [0xA2, 0x82, 0xBE, 0x9E]).flatten), .wb 9 [0x30, 0x10, 0x20, 0x00]]
    .ok 0x00 0x00 = true := by decide +kernel
theorem test_defineGlyph_refused :
    gives (exec (.defineGlyph 8 (List.replicate 8 0)) (normal [])) [] (.refused .glyphRange) 0x18 0x00 = true ∧
    gives (exec (.defineGlyph 0 (List.replicate 7 0)) (normal [])) [] (.refused .glyphRange) 0x18 0x00 = true := by decide +kernel
-- V-T7, the source's example, and V-T12: its second transaction fails.
theorem test_writeText : gives (exec (.writeText [0x41, 0x42, 0x0A, 0x43, 0x44]) (normal (oks 3)))
    [.wb 9 [0xA8, 0x88, 0xA2, 0x82, 0xA8, 0x88, 0xA4, 0x84], .wb 9 [0x38, 0x18, 0x20, 0x00],
     .wb 9 [0xA8, 0x88, 0xA6, 0x86, 0xA8, 0x88, 0xA8, 0x88]] .ok 0x88 0x00 = true := by decide +kernel
theorem test_writeText_failed : gives (exec (.writeText [0x41, 0x42, 0x0A, 0x43, 0x44]) (normal [.ok 0, .nack none]))
    [.wb 9 [0xA8, 0x88, 0xA2, 0x82, 0xA8, 0x88, 0xA4, 0x84], .wb 9 [0x38, 0x18, 0x20, 0x00]]
    (.commError (.wb 9 [0x38, 0x18, 0x20, 0x00])) 0x84 0x00 = true := by decide +kernel
-- R55, R111 and V-B2.
theorem test_busWrite1 : nextHas (exec (.busWrite1 5 0x00) (working (normal (oks 1)))) (fun t =>
    decide (t.history.map Event.txn = [.w1 5 0x00] ∧ t.env.mem = [(0, 0x00), (5, 0x00), (10, 0x00)])) = true := by decide +kernel
theorem test_busWrite1_failed : gives (exec (.busWrite1 0 0x02) (normal [.nack none])) [.w1 0 0x02] (.commError (.w1 0 0x02))
    0x18 0x00 = true := by decide +kernel
-- V-B4 (a store to GPIO sets the output latch, R55) and V-B3.
theorem test_busWriteBlk_nonsequential : nextHas (exec (.busWriteBlk 9 [0x40, 0x60, 0x40]) (working (normal (oks 1)))) (fun t =>
    decide (t.env.mem = [(0, 0x00), (5, 0x20), (9, 0x40), (10, 0x40)] ∧ t.env.latch t.cfg = 0x40)) = true := by decide +kernel
theorem test_busWriteBlk_sequential : nextHas (exec (.busWriteBlk 0 (safeRegs paramsDefault))
      { normal (oks 1) with env := { envReset with mem := [(5, 0x00)] } }) (fun t =>
    decide (t.env.mem = [(0, 0x02), (1, 0x00), (2, 0x00), (3, 0x00), (4, 0x00), (5, 0x00), (6, 0x00), (7, 0x00), (8, 0x00),
      (9, 0x00), (10, 0x00)])) = true := by decide +kernel
-- V-B6.
theorem test_busRead1 : nextHas (exec .busRead1 (normal [.ok 0xFF])) (fun t =>
    decide (t.history = [⟨some ⟨0x20, 1⟩, .r1, .byte 0xFF⟩] ∧ t.result = [0xFF] ∧ t.gpio = 0x18)) = true := by decide +kernel
-- V-E3, V-E6 and V-E17.
theorem test_encodeNybbles : nextHas (exec (.encodeNybbles 0x80 0xA5) State.reset) (fun t =>
    t.result == [0xB4, 0x94, 0xAA, 0x8A]) = true := by decide +kernel
theorem test_encodeNybbles_overlap : nextHas (exec (.encodeNybbles 0x60 0x00) State.reset) (fun t =>
    t.result == [0x60, 0x60, 0x60, 0x60]) = true := by decide +kernel
-- R91: what each command sets, from the controller at reset.
theorem test_ctlSetDdram : nextHas (exec (.ctlSetDdram 0x45) State.reset) (fun t => t.env.lcd.addr == .ddram 0x45) = true := by decide
theorem test_ctlSetCgram : nextHas (exec (.ctlSetCgram 0x38) State.reset) (fun t => t.env.lcd.addr == .cgram 0x38) = true := by decide
theorem test_ctlFunctionSet : nextHas (exec (.ctlFunctionSet false true false 0) State.reset) (fun t =>
    decide (t.env.lcd.eight = false ∧ t.env.lcd.twoLine = true ∧ t.env.lcd.font10 = false)) = true := by decide
theorem test_ctlShift : nextHas (exec (.ctlShift true false 0) State.reset) (fun t =>
    decide (t.env.lcd.moveDisplay = true ∧ t.env.lcd.moveRight = false)) = true := by decide
theorem test_ctlDisplayControl : nextHas (exec (.ctlDisplayControl true true false) State.reset) (fun t =>
    decide (t.env.lcd.displayOn = true ∧ t.env.lcd.cursorOn = true ∧ t.env.lcd.blinkOn = false)) = true := by decide
theorem test_ctlEntryMode : nextHas (exec (.ctlEntryMode false true) State.reset) (fun t =>
    decide (t.env.lcd.entryLeft = false ∧ t.env.lcd.entryShift = true)) = true := by decide
theorem test_ctlHome : nextHas (exec (.ctlHome true) State.reset) (fun t => t.env.lcd.exec == .variable) = true := by decide
theorem test_ctlClear : nextHas (exec .ctlClear State.reset) (fun t => t.env.lcd.exec == .variable) = true := by decide

/-! ## Steps of a waiting poll -/

-- V-D17's third iteration, V-D16's third, and one that waits.
theorem test_poll_exit : gives (step (waiting 2 (oks 5)))
    [.w1 9 0x60, .r1, .wb 9 [0x40, 0x60, 0x40], .w1 0 0x00, .wb 9 [0x20, 0x00, 0x38, 0x18]] .ok 0x18 0x00 = true := by decide +kernel
theorem test_poll_gives_up : gives (step (bounded 3 (waiting 2 [.ok 0x00, .ok 0x02, .ok 0x00])))
    [.w1 9 0x60, .r1, .wb 9 [0x40, 0x60, 0x40]] (.deviceUnresponsive 3) 0x40 0x02 = true := by decide +kernel
theorem test_poll_waits : nextHas (step (waiting 2 [.ok 0x00, .ok 0xFF, .ok 0x00])) (fun t =>
    decide (t.seq = .polling ⟨3, 0x40, 0x60, .plain, ⟨[0x0C], false⟩, []⟩ ∧ t.outcomes = [])) = true := by decide +kernel
-- What the controller takes: the byte 0x0C, its bits on the pins of R86.
theorem test_controller_takes : nextHas (exec (.writeCmd 0x0C) (working (normal (oks 1)))) (fun t =>
    decide (t.env.lcd.received = [(false, 0x0C)] ∧ t.env.lcd.displayOn = true ∧ t.env.lcd.half = .even)) = true := by decide +kernel
-- R247: strobes are counted, write or read; a second one ends the pair the first began.
theorem test_strobes_are_counted :
    let l : Lcd := { lcdReset with eight := false }
    (lcdReadPulse 1 (lcdReadPulse 0 l)).half = .even ∧ (lcdReadPulse 1 (lcdNybble 0 true 4 l)).half = .even ∧
    (lcdNybble 1 true 4 (lcdReadPulse 0 l)).half = .even := by
  have h (k : Nat) (m : Lcd) (hm : m.half = .even) : (lcdMixedPair k m).half = .even := by
    rcases Laws.lcdMixedPair_cases k m with e | ⟨rs, v, e⟩ <;> rw [e]
    · exact hm
    · rw [(Laws.received_keeps rs v m).1, hm]
  exact ⟨rfl, h _ _ rfl, h _ _ rfl⟩

/-! ## The hypotheses of the statements can be met

One theorem for each statement that has hypotheses, each clause at a boundary of its range. -/

theorem witness_DecodeOfEncode : (Instr.init 0x7F 300).wellFormed = true ∧ (Instr.setCursor 127 (-64)).wellFormed = true ∧
    (Instr.defineGlyph 7 (List.replicate 8 0xFF)).wellFormed = true ∧ (Instr.busWriteBlk 10 [0]).wellFormed = true ∧
    (Instr.encodeNybbles 0x81 0xFF).wellFormed = true := by decide

theorem witness_HostPortDecodesByCode : decode .straight ⟨.host, [0x01]⟩ = .ok .teardown ∧ hostCode .teardown = some 0x01 := ⟨rfl, rfl⟩

theorem witness_StepRunsDecodedRequest :
    (let s : State := { State.reset with inbox := [⟨.host, [0x10]⟩] }
     s.seq = .idle ∧ s.inbox = ⟨.host, [0x10]⟩ :: [] ∧ decode .straight ⟨.host, [0x10]⟩ = .ok .clear) ∧
    (waiting 0 []).seq = .polling ⟨0, 0x40, 0x60, .plain, ⟨[0x0C], false⟩, []⟩ ∧
    (State.reset.seq = .idle ∧ State.reset.inbox = []) := ⟨⟨rfl, rfl, rfl⟩, rfl, rfl, rfl⟩

theorem witness_UnknownRequestRefused :
    let s : State := { State.reset with inbox := [⟨.host, [0x23]⟩] }
    s.seq = .idle ∧ s.inbox = ⟨.host, [0x23]⟩ :: [] ∧ decode .straight ⟨.host, [0x23]⟩ = .error (.noOperation 0x23) := ⟨rfl, rfl, rfl⟩

theorem witness_EncodeNybblesResult : State.reset.cfg.order = .straight := rfl

theorem witness_EncoderProperties : paramsDefault.order = .straight ∧ (0xC1 : Byte) &&& 0x3E = 0 := ⟨rfl, by decide⟩

/-- Register 10, and both addressing modes. -/
theorem witness_BusWrite1Completes :
    let s := working (normal (oks 1))
    (s.seq = .idle ∧ s.handle ≠ none ∧ (10 : Nat) ≤ 10 ∧ s.draws = .ok 0x00 :: []) ∧ NonSequential s.cfg s.env.mem ∧
    Sequential s.cfg (memWrite 5 0x00 s.env.mem) ∧ (normal [.nack (some 1)]).draws = .nack (some 1) :: [] ∧
    ¬ Touches s.cfg 10 9 ∧ ¬ Touches s.cfg 9 8 :=
  ⟨by decide, ⟨0x20, rfl, by decide⟩, ⟨0x00, rfl, by decide⟩, rfl, by unfold Touches; decide, by unfold Touches; decide⟩

theorem witness_BusWriteBlkCompletes : (normal (oks 2)).seq = .idle ∧ (normal (oks 2)).handle ≠ none ∧
    List.replicate 33 (0x00 : Byte) ≠ [] ∧ DrawsOk [0x00, 0x00] [] (normal (oks 2)) ∧
    [(0x00 : Byte), 0x00].length = ((List.replicate 33 (0x00 : Byte)).length + 31) / 32 := by
  unfold DrawsOk; decide

theorem witness_BusWriteBlkStopsAtFailure :
    let s := normal [.ok 0x00, .nack none]
    s.seq = .idle ∧ s.handle ≠ none ∧
    blockChunks (List.replicate 33 0x01) = [List.replicate 32 0x01] ++ [0x01] :: [] ∧
    DrawsOk [0x00] (.nack none :: []) s ∧ [(0x00 : Byte)].length = [List.replicate 32 (0x01 : Byte)].length := by
  unfold DrawsOk; decide +kernel

theorem witness_BusRead1Completes : (normal (oks 1)).seq = .idle ∧ (normal (oks 1)).handle ≠ none ∧
    (normal [.ok 0xFF]).draws = .ok 0xFF :: [] ∧ (normal [.nack none]).draws = .nack none :: [] := by decide

theorem witness_MicroOperationRefused : (State.reset.seq = .idle ∧ State.reset.handle = none) ∧
    ((normal []).seq = .idle ∧ (normal []).handle ≠ none ∧ 10 < 11) ∧ (10 : Nat) ≤ 10 := by decide

theorem witness_NonSequentialBlockStaysInRegister :
    NonSequential paramsDefault (working (normal [])).env.mem ∧ (10 : Nat) ≤ 10 ∧ 9 = paramsDefault.regs.gpio ∧
    ¬ Touches paramsDefault 9 8 ∧ ¬ Touches paramsDefault 10 9 :=
  ⟨⟨0x20, rfl, by decide⟩, by decide, rfl, by unfold Touches; decide, by unfold Touches; decide⟩

/-- The whole register load; and a block that ends with GPIO, the latch not among its bytes. -/
theorem witness_SequentialBlockFillsRegisters : Sequential paramsDefault [(5, 0x00)] ∧
    0 + (safeRegs paramsDefault).length ≤ 11 ∧ paramsDefault.regs.gpio < paramsDefault.regs.olat ∧
    10 < (safeRegs paramsDefault).length ∧ (8 + 1 = paramsDefault.regs.gpio ∧ 8 + 2 ≤ paramsDefault.regs.olat) ∧
    ∀ k, k < 2 → ¬ Touches paramsDefault (8 + k) 7 :=
  ⟨⟨0x00, rfl, by decide⟩, by decide, by decide, by decide, by decide, by unfold Touches; decide⟩

theorem witness_WriteCmdInNormal : Ready (normal (oks 2)) ∧ InNormal (normal (oks 2)) ∧ DrawsOk [0x00] (oks 1) (normal (oks 2)) ∧
    isPollable (normal (oks 2)).cfg 0x03 = false ∧ DrawsOk [0x00, 0x00] [] (normal (oks 2)) ∧
    isPollable (normal (oks 2)).cfg 0x02 = true := by
  unfold Ready InNormal DrawsOk; decide

theorem witness_WriteCmdInPending : Ready (pending (oks 7)) ∧ InPending (pending (oks 7)) ∧ busyFlag 0xFD = false ∧
    DrawsOk ([0x00, 0x00, 0x00, 0x00, 0x00] ++ [0x00]) (oks 1) (pending (oks 7)) ∧
    DrawsOk ([0x00, 0x00, 0x00, 0x00, 0x00] ++ [0x00, 0x00]) [] (pending (oks 7)) := by
  unfold Ready InPending DrawsOk; decide

theorem witness_WriteDataInNormal : Ready (normal (oks 2)) ∧ InNormal (normal (oks 2)) ∧ DrawsOk [0x00, 0x00] [] (normal (oks 2)) ∧
    [(0x00 : Byte), 0x00].length = ((List.replicate 9 (0x41 : Byte)).length + 7) / 8 ∧
    (DrawsOk [] [] (normal []) ∧ ([] : List Byte).length = (([] : List Byte).length + 7) / 8) := by
  unfold Ready InNormal DrawsOk; decide

theorem witness_WriteDataInPending : Ready (pending (oks 6)) ∧ InPending (pending (oks 6)) ∧ busyFlag 0x00 = false ∧
    DrawsOk ([0x00, 0x00, 0x00, 0x00, 0x00] ++ [0x00]) [] (pending (oks 6)) ∧
    [(0x00 : Byte)].length = ((List.replicate 8 (0x41 : Byte)).length + 7) / 8 := by
  unfold Ready InPending DrawsOk; decide

/-- A poll with one iteration left before the last; an operation and INIT, each at the smallest bound with which it waits, INIT
at its first poll; and INIT waiting at its first poll, a pollable command sent before the next. -/
theorem witness_BusyPollIterationWaits :
    (let s := bounded 4 (waiting 2 [.ok 0x00, .ok 0x02, .ok 0x00])
     s.seq = .polling ⟨2, 0x40, 0x60, .plain, ⟨[0x0C], false⟩, []⟩ ∧ busyFlag 0x02 = true ∧
     (∀ m, s.cfg.pollMax = some m → 2 + 1 < m) ∧ DrawsOk [0x00, 0x02, 0x00] [] s) ∧
    (let s := bounded 2 (pending [.ok 0x00, .ok 0x00, .ok 0x02, .ok 0x00])
     Ready s ∧ InPending s ∧ writesOf s .cursorOn = some ({ s with displaycontrol := 0x06 }, cmdJob 0x0E :: []) ∧
     (∀ m, s.cfg.pollMax = some m → 1 < m) ∧ DrawsOk [0x00, 0x00, 0x02, 0x00] [] s) ∧
    (let s : State := bounded 2 { State.reset with draws := oks 5 ++ [.ok 0x02, .ok 0x00] }
     s.seq = .idle ∧ s.phase = .uninit ∧ DefaultEncodings s.cfg ∧ (0x7F : Byte).toNat ≤ 0x7F ∧
     (∀ m, s.cfg.pollMax = some m → 1 < m) ∧
     [cmdJob 0x33, cmdJob 0x32, cmdJob 0x28, cmdJob 0x01, cmdJob 0x14, cmdJob 0x06, cmdJob 0x0C, cmdJob 0x02] =
       [] ++ cmdJob 0x33 :: [cmdJob 0x32, cmdJob 0x28, cmdJob 0x01, cmdJob 0x14, cmdJob 0x06, cmdJob 0x0C, cmdJob 0x02] ∧
     DrawsOk ([0x00, 0x00, 0x00] ++ ([] ++ [0x00, 0x00, 0x02, 0x00])) [] s ∧
     RanQuietly [] [] (loaded ⟨0x7F, 1⟩ s) (loaded ⟨0x7F, 1⟩ s) ∧ InPending (loaded ⟨0x7F, 1⟩ s)) ∧
    (let p : Poll := ⟨0, 0x40, 0x60, .bringUp, cmdJob 0x28, [cmdJob 0x01, cmdJob 0x14]⟩
     let s : State := { bounded 2 (waiting 0 (oks 9 ++ [.ok 0x02, .ok 0x00])) with phase := .uninit, seq := .polling p }
     [(0x00 : Byte)].length = jobTxns s.cfg p.job ∧ p.rest = [cmdJob 0x01] ++ cmdJob 0x14 :: [] ∧
     (∀ m, s.cfg.pollMax = some m → 1 < m) ∧
     DrawsOk ([0x00, 0x00, 0x00, 0x00] ++ ([0x00] ++ ([0x00, 0x00] ++ [0x00, 0x00, 0x02, 0x00]))) [] s ∧
     ∃ v, RanQuietly [cmdJob 0x01] [0x00, 0x00]
       (sentJob p.job (wroteDir ((iterated p.lo p.hi 0x00 s).ddrb &&& ~~~(iterated p.lo p.hi 0x00 s).cfg.busyDir)
         (iterated p.lo p.hi 0x00 s))) v ∧ InPending v) := by
  have h2 : ∀ m, some 2 = some m → 1 < m := fun m h => by have := Option.some.inj h; omega
  have h4 : ∀ m, some 4 = some m → 2 + 1 < m := fun m h => by have := Option.some.inj h; omega
  exact ⟨⟨rfl, rfl, h4, rfl⟩, ⟨⟨rfl, rfl⟩, by unfold InPending; decide, by decide +kernel, h2, rfl⟩,
    ⟨rfl, rfl, by unfold DefaultEncodings; decide, by decide, h2, rfl, rfl, .done _, by unfold InPending; decide⟩,
    rfl, rfl, h2, rfl, _, .normal (own := [0x00, 0x00]) (bytes := []) (by unfold InNormal; decide +kernel) rfl (.done _),
    by unfold InPending; decide +kernel⟩

/-- One waiting command, of either kind; and DEFINE_GLYPH waiting with its first command, two writes after it; and INIT waiting
with a pollable command and one write after it, which polls. -/
theorem witness_PollExitSendsWaitingCommand :
    (let p : Poll := ⟨0, 0x40, 0x60, .plain, ⟨[0x0C], false⟩, []⟩
     let s := waiting 0 (oks 6)
     s.seq = .polling p ∧ p.op = .plain ∧ p.job = ⟨[0x0C], false⟩ ∧ p.rest = [] ∧ busyFlag 0x00 = false ∧
     DrawsOk ([0x00, 0x00, 0x00, 0x00] ++ [0x00]) (oks 1) s ∧ isPollable s.cfg 0x0C = false ∧
     ({ s with seq := .polling { p with job := ⟨[0x01], false⟩ } }.seq = .polling { p with job := ⟨[0x01], false⟩ } ∧
       DrawsOk ([0x00, 0x00, 0x00, 0x00] ++ [0x00, 0x00]) [] s ∧ isPollable s.cfg 0x01 = true)) ∧
    (let p : Poll := ⟨0, 0x40, 0x60, .plain, cmdJob 0x48, [dataJob (List.replicate 8 0x1F), cmdJob 0x80]⟩
     let s : State := { waiting 0 (oks 7) with seq := .polling p }
     DrawsOk ([0x00, 0x00, 0x00, 0x00] ++ ([0x00] ++ [0x00, 0x00])) [] s ∧ [(0x00 : Byte)].length = jobTxns s.cfg p.job ∧
     ∃ v, RanQuietly p.rest [0x00, 0x00]
       (sentJob p.job (wroteDir ((iterated p.lo p.hi 0x00 s).ddrb &&& ~~~(iterated p.lo p.hi 0x00 s).cfg.busyDir)
         (iterated p.lo p.hi 0x00 s))) v) ∧
    (let p : Poll := ⟨0, 0x40, 0x60, .bringUp, cmdJob 0x01, [cmdJob 0x14]⟩
     let s : State := { waiting 0 (oks 12) with phase := .uninit, seq := .polling p }
     p.op = .bringUp ∧ DrawsOk ([0x00, 0x00, 0x00, 0x00] ++ ([0x00, 0x00] ++ List.replicate 6 0x00)) [] s ∧
     [(0x00 : Byte), 0x00].length = jobTxns s.cfg p.job ∧
     ∃ v, RanQuietly p.rest (List.replicate 6 0x00)
       (sentJob p.job (wroteDir ((iterated p.lo p.hi 0x00 s).ddrb &&& ~~~(iterated p.lo p.hi 0x00 s).cfg.busyDir)
         (iterated p.lo p.hi 0x00 s))) v) := by
  refine ⟨by unfold DrawsOk; decide, ⟨rfl, rfl, _, .normal (own := [0x00]) (bytes := [0x00]) ?_ rfl
      (.normal (own := [0x00]) (bytes := []) ?_ rfl (.done _))⟩, rfl, rfl, rfl, _,
    .pending (own := [0x00]) (bytes := []) (x0 := 0x00) (x1 := 0x00) (b := 0x00) (x3 := 0x00) (x4 := 0x00) ?_ rfl rfl (.done _)⟩ <;>
    first | (unfold InNormal; decide +kernel) | (unfold InPending; decide +kernel)

/-- The smallest bound: in a waiting poll, at the entry of an operation, and in INIT. -/
theorem witness_BoundedPollGivesUp :
    (let s := bounded 1 (waiting 0 [.ok 0x00, .ok 0x02, .ok 0x00])
     s.seq = .polling ⟨0, 0x40, 0x60, .plain, ⟨[0x0C], false⟩, []⟩ ∧ s.cfg.pollMax = some 1 ∧ 0 + 1 = 1 ∧ busyFlag 0x02 = true ∧
     DrawsOk [0x00, 0x02, 0x00] [] s) ∧
    (let s := bounded 1 (pending [.ok 0x00, .ok 0x00, .ok 0x02, .ok 0x00])
     Ready s ∧ InPending s ∧ writesOf s .cursorOn = some ({ s with displaycontrol := 0x06 }, cmdJob 0x0E :: []) ∧
     s.cfg.pollMax = some 1 ∧ DrawsOk [0x00, 0x00, 0x02, 0x00] [] s) ∧
    (let s : State := bounded 1 { State.reset with draws := oks 5 ++ [.ok 0x02, .ok 0x00] }
     s.seq = .idle ∧ s.phase = .uninit ∧ DefaultEncodings s.cfg ∧ (0x7F : Byte).toNat ≤ 0x7F ∧ s.cfg.pollMax = some 1 ∧
     DrawsOk [0x00, 0x00, 0x00, 0x00, 0x00, 0x02, 0x00] [] s) := by
  unfold Ready InPending DefaultEncodings DrawsOk; decide +kernel

theorem witness_UnboundedPollRunsOn :
    let s := waiting 0 (busyDraws [0x02, 0xFF])
    s.seq = .polling ⟨0, 0x40, 0x60, .plain, ⟨[0x0C], false⟩, []⟩ ∧ s.cfg.pollMax = none ∧
    (∀ b ∈ [(0x02 : Byte), 0xFF], busyFlag b = true) ∧ s.draws = busyDraws [0x02, 0xFF] ++ [] := by decide

/-- A waiting command that re-arms the poll, and a waiting data write of two blocks. -/
theorem witness_PollEndsWhenDeviceIsReady :
    (let p : Poll := ⟨0, 0x40, 0x60, .plain, cmdJob 0x01, []⟩
     let s : State := { waiting 0 (busyDraws [0x02] ++ oks 6) with seq := .polling p }
     s.cfg.pollMax = none ∧ s.cfg.busyDir ≠ 0 ∧ (∀ y ∈ [(0x02 : Byte)], busyFlag y = true) ∧ busyFlag 0x00 = false ∧
     [(0x00 : Byte), 0x00].length = jobTxns s.cfg p.job ∧ rearms s.cfg p.job = true ∧
     s.draws = busyDraws [0x02] ++ (([0x00, 0x00, 0x00, 0x00] ++ [0x00, 0x00]).map Draw.ok ++ [])) ∧
    (let p : Poll := ⟨0, 0x40, 0x60, .plain, dataJob (List.replicate 9 0x41), []⟩
     let s : State := { waiting 0 (busyDraws [0x02] ++ oks 6) with seq := .polling p }
     [(0x00 : Byte), 0x00].length = jobTxns s.cfg p.job ∧ rearms s.cfg p.job = false) := by decide

theorem witness_FailureStateOfCommandWrite :
    let s (n : Nat) := pending (oks n ++ [.nack none])
    Ready (s 0) ∧ InPending (s 0) ∧ DefaultEncodings (s 0).cfg ∧ busyFlag 0x00 = false ∧ DrawsOk [] (.nack none :: []) (s 0) ∧
    DrawsOk [0] (.nack none :: []) (s 1) ∧ DrawsOk [0, 0] (.nack none :: []) (s 2) ∧ DrawsOk [0, 0, 0] (.nack none :: []) (s 3) ∧
    DrawsOk [0, 0, 0, 0] (.nack none :: []) (s 4) ∧ DrawsOk [0, 0, 0, 0, 0] (.nack none :: []) (s 5) ∧
    DrawsOk [0, 0, 0, 0, 0, 0] (.nack none :: []) (s 6) ∧ isPollable (s 6).cfg 0x01 = true ∧
    (let n (m : Nat) := normal (oks m ++ [.nack (some 2)])
     Ready (n 0) ∧ InNormal (n 0) ∧ DrawsOk [] (.nack (some 2) :: []) (n 0) ∧ DrawsOk [0] (.nack (some 2) :: []) (n 1)) := by
  unfold Ready InPending InNormal DefaultEncodings DrawsOk; decide

theorem witness_FailureStateOfLaterIteration :
    let p : Poll := ⟨1, 0x40, 0x60, .plain, ⟨[0x0C], false⟩, []⟩
    let s (n : Nat) := waiting 1 (oks n ++ [.nack none])
    (s 0).seq = .polling p ∧ p.op = .plain ∧ (s 0).gpio = p.lo ∧ DrawsOk [] (.nack none :: []) (s 0) ∧
    DrawsOk [0] (.nack none :: []) (s 1) ∧ DrawsOk [0, 0] (.nack none :: []) (s 2) := by
  unfold DrawsOk; decide

theorem witness_FailureStateOfDataBlock :
    let s := normal [.ok 0x00, .nack none]
    Ready s ∧ InNormal s ∧
    dataBlocks s (List.replicate 9 0x00) = [(List.replicate 8 [(0xA0 : Byte), 0x80, 0xA0, 0x80]).flatten] ++
      [0xA0, 0x80, 0xA0, 0x80] :: [] ∧
    DrawsOk [0x00] (.nack none :: []) s := by
  unfold Ready InNormal DrawsOk; decide +kernel

/-- The bring-up hypotheses, at the highest address and the one after it. -/
theorem witness_InitCompletes :
    let s : State := { State.reset with draws := oks 23 }
    s.seq = .idle ∧ s.phase = .uninit ∧ DefaultEncodings s.cfg ∧ (0x7F : Byte).toNat ≤ 0x7F ∧
    DrawsOk (List.replicate 23 0x00) [] s ∧ (List.replicate 23 (0x00 : Byte)).length = 23 ∧
    (List.replicate 23 (0x00 : Byte))[5]? = some 0x00 ∧ (List.replicate 23 (0x00 : Byte))[15]? = some 0x00 ∧
    busyFlag 0x00 = false ∧ 0x7F < (0x80 : Byte).toNat := by
  unfold DefaultEncodings DrawsOk; decide

/-- The same state, and what INIT answers there is a next state. -/
theorem witness_InitBringsUpAnyEnvironment :
    let s : State := { State.reset with draws := oks 23 }
    (s.seq = .idle ∧ s.phase = .uninit ∧ DefaultEncodings s.cfg ∧ DrawsOk (List.replicate 23 0x00) [] s) ∧
    ∃ t, exec (.init 0x20 1) s = .next t := by
  refine ⟨?_, _, rfl⟩
  unfold DefaultEncodings DrawsOk; decide

theorem witness_FailedInitLeavesNoInstance :
    (let s : State := { State.reset with draws := [.nack none] }
     s.seq = .idle ∧ s.phase = .uninit ∧ (0x20 : Byte).toNat ≤ 0x7F ∧ nextHas (exec (.init 0x20 1) s) (fun t => t.seq == .idle) = true) ∧
    (let p : Poll := ⟨0, 0x40, 0x60, .bringUp, ⟨[0x33], false⟩, []⟩
     let s : State := { waiting 0 [.nack none] with phase := .uninit, seq := .polling p }
     s.seq = .polling p ∧ p.op = .bringUp ∧ nextHas (step s) (fun t => t.seq == .idle) = true) := by decide +kernel

theorem witness_TeardownCompletes : Ready (normal (oks 2)) ∧ DrawsOk [0x00, 0x00] [] (normal (oks 2)) ∧
    ∃ t, exec .teardown (normal [.nack none]) = .next t := ⟨⟨rfl, rfl⟩, rfl, _, rfl⟩

theorem witness_AcceptanceGate :
    ((hostCode .clear).isSome = true ∧ State.reset.seq = .idle ∧ State.reset.phase ≠ admittingPhase .clear) ∧
    ((hostCode (.init 0x20 1)).isSome = true ∧ (normal []).phase ≠ admittingPhase (.init 0x20 1)) ∧
    (State.reset.phase = .uninit ∧ 0x7F < (0x80 : Byte).toNat) ∧
    (((hostCode .clear).isSome = true ∨ isBusOp .clear = true) ∧
      (waiting 0 []).seq = .polling ⟨0, 0x40, 0x60, .plain, ⟨[0x0C], false⟩, []⟩) := by decide

theorem witness_OneCommandOperationsInNormal :
    oneCommand (normal (oks 2)) .scrollLeft = some (0x18, { normal (oks 2) with displayshift := 0x08 }) ∧ Ready (normal (oks 2)) ∧
    InNormal (normal (oks 2)) ∧ DrawsOk [0x00] (oks 1) (normal (oks 2)) ∧ isPollable (normal (oks 2)).cfg 0x18 = false ∧
    oneCommand (normal (oks 2)) .clear = some (0x01, normal (oks 2)) ∧ DrawsOk [0x00, 0x00] [] (normal (oks 2)) ∧
    isPollable (normal (oks 2)).cfg 0x01 = true := by
  unfold Ready InNormal DrawsOk; decide +kernel

theorem witness_OneCommandOperationsInPending :
    oneCommand (pending (oks 7)) .displayOn = some (0x0C, pending (oks 7)) ∧ Ready (pending (oks 7)) ∧ InPending (pending (oks 7)) ∧
    busyFlag 0x00 = false ∧ DrawsOk ([0, 0, 0, 0, 0] ++ [0]) (oks 1) (pending (oks 7)) ∧ isPollable (pending (oks 7)).cfg 0x0C = false ∧
    oneCommand (pending (oks 7)) .home = some (0x02, pending (oks 7)) ∧
    DrawsOk ([0, 0, 0, 0, 0] ++ [0, 0]) [] (pending (oks 7)) ∧ isPollable (pending (oks 7)).cfg 0x02 = true := by
  unfold Ready InPending DrawsOk; decide +kernel

theorem witness_ExpansionTable : DefaultEncodings (normal []).cfg := by unfold DefaultEncodings; decide

/-- The highest address admitted and one above it, in both poll states. -/
theorem witness_SetCursorResult : Ready (normal (oks 1)) ∧ DefaultEncodings (normal (oks 1)).cfg ∧
    (normal (oks 1)).cfg.wellFormed = true ∧ 63 + 0x40 ≤ 0x7F ∧ 0x7F < 64 + 0x40 ∧ InNormal (normal (oks 1)) ∧
    DrawsOk [0x00] [] (normal (oks 1)) ∧ InPending (pending (oks 6)) ∧ busyFlag 0x00 = false ∧
    DrawsOk [0, 0, 0, 0, 0, 0] [] (pending (oks 6)) := by
  unfold Ready InNormal InPending DefaultEncodings DrawsOk; decide

/-- The rows next to the range: -1, and the line count itself. -/
theorem witness_RowIsClamped : (fourLines (normal [])).cfg.wellFormed = true ∧ ((fourLines (normal [])).cfg.numLines : Int) ≤ 4 ∧
    (-1 : Int) < 0 ∧ (DefaultEncodings (normal []).cfg ∧ (normal []).cfg.numLines = 2) ∧
    (DefaultEncodings (fourLines (normal [])).cfg ∧ (fourLines (normal [])).cfg.numLines = 4) := by
  unfold DefaultEncodings; decide

theorem witness_DefineGlyphResult : Ready (normal (oks 3)) ∧ DefaultEncodings (normal (oks 3)).cfg ∧ (7 : Byte).toNat ≤ 7 ∧
    (List.replicate 8 (0x1F : Byte)).length = 8 ∧ InNormal (normal (oks 3)) ∧ DrawsOk [0, 0, 0] [] (normal (oks 3)) ∧
    InPending (pending (oks 8)) ∧ busyFlag 0x00 = false ∧ DrawsOk [0, 0, 0, 0, 0, 0, 0, 0] [] (pending (oks 8)) ∧
    7 < (8 : Byte).toNat ∧ (List.replicate 9 (0x1F : Byte)).length ≠ 8 := by
  unfold Ready InNormal InPending DefaultEncodings DrawsOk; decide

theorem witness_WriteTextResult : Ready (normal (oks 3)) ∧ DefaultEncodings (normal (oks 3)).cfg ∧
    [(0x00 : Byte), 0x00, 0x00].length = lineTxns (splitLines 0x0A [0x41, 0x0A, 0x43]) ∧ InNormal (normal (oks 3)) ∧
    DrawsOk [0, 0, 0] [] (normal (oks 3)) ∧ InPending (pending (oks 8)) ∧ busyFlag 0x00 = false ∧
    DrawsOk ([0, 0, 0, 0, 0] ++ [0, 0, 0]) [] (pending (oks 8)) := by
  unfold Ready InNormal InPending DefaultEncodings DrawsOk; decide

theorem working_synced (s : State) (h : s.cfg = paramsDefault) (hd : s.ddrb = 0x00 ∨ s.ddrb = 0x02) (hh : s.env.lcd.half = .even) :
    Synced (working s) := by
  have hc : (working s).cfg = paramsDefault := h
  unfold Synced NonSequential
  rw [hc]
  exact ⟨⟨0x20, rfl, by decide⟩, rfl, hd, ⟨0x00, rfl, by decide⟩, rfl, hh⟩

/-- From NORMAL and from POLL_PENDING. -/
theorem witness_ControllerTakesTheCommand :
    (let s := working (normal (oks 1))
     Ready s ∧ DefaultEncodings s.cfg ∧ Synced s ∧ CompletesAtOnce (if isPollable s.cfg 0x0C then 2 else 1) s ∧
     (∀ n f y, decodeCmd8 0x0C ≠ some (.functionSet true n f y)) ∧ ∃ t, exec (.writeCmd 0x0C) s = .next t) ∧
    (let s := working (pending (oks 7))
     Ready s ∧ DefaultEncodings s.cfg ∧ Synced s ∧ CompletesAtOnce (if isPollable s.cfg 0x01 then 2 else 1) s ∧
     ∃ t, exec (.writeCmd 0x01) s = .next t) :=
  ⟨⟨⟨rfl, rfl⟩, by unfold DefaultEncodings; decide, working_synced _ rfl (.inl rfl) rfl,
      ⟨[0x00], [], by decide, .inl ⟨by unfold InNormal; decide, rfl⟩⟩, by decide, _, rfl⟩,
    ⟨rfl, rfl⟩, by unfold DefaultEncodings; decide, working_synced _ rfl (.inr rfl) rfl,
    ⟨[0x00, 0x00], [], by decide, .inr ⟨by unfold InPending; decide, 0x00, 0x00, 0x00, 0x00, 0x00, rfl, rfl⟩⟩, _, rfl⟩

theorem witness_ControllerTakesTheData :
    (let s := working (normal (oks 2))
     Ready s ∧ DefaultEncodings s.cfg ∧ Synced s ∧ CompletesAtOnce (((List.replicate 9 (0x41 : Byte)).length + 7) / 8) s ∧
     ∃ t, exec (.writeData (List.replicate 9 0x41)) s = .next t) ∧
    (let s := working (pending (oks 5))
     Ready s ∧ DefaultEncodings s.cfg ∧ Synced s ∧ CompletesAtOnce ((([] : List Byte).length + 7) / 8) s ∧
     ∃ t, exec (.writeData []) s = .next t) :=
  ⟨⟨⟨rfl, rfl⟩, by unfold DefaultEncodings; decide, working_synced _ rfl (.inl rfl) rfl,
      ⟨[0x00, 0x00], [], by decide, .inl ⟨by unfold InNormal; decide, rfl⟩⟩, _, rfl⟩,
    ⟨rfl, rfl⟩, by unfold DefaultEncodings; decide, working_synced _ rfl (.inr rfl) rfl,
    ⟨[], [], by decide, .inr ⟨by unfold InPending; decide, 0x00, 0x00, 0x00, 0x00, 0x00, rfl, rfl⟩⟩, _, rfl⟩

/-- One operation on each shadow, the first at the highest value of its shadow, from NORMAL and from POLL_PENDING. -/
theorem witness_DisplayShadowMatchesController :
    (let s := working { normal (oks 1) with displaycontrol := 0x07, displaymode := 0x03 }
     Ready s ∧ DefaultEncodings s.cfg ∧ Synced s ∧ CompletesAtOnce 1 s ∧ mayChangeControl .cursorOff = true ∧
     s.displaycontrol ≤ 0x07 ∧ mayChangeMode .rightToLeft = true ∧ s.displaymode ≤ 0x03 ∧ mayChangeShift .scrollRight = true ∧
     (∃ t, exec .cursorOff s = .next t) ∧ (∃ t, exec .rightToLeft s = .next t) ∧ ∃ t, exec .scrollRight s = .next t) ∧
    (let s := working (pending (oks 6))
     Ready s ∧ DefaultEncodings s.cfg ∧ Synced s ∧ CompletesAtOnce 1 s ∧ ∃ t, exec .cursorOff s = .next t) :=
  ⟨⟨⟨rfl, rfl⟩, by unfold DefaultEncodings; decide, working_synced _ rfl (.inl rfl) rfl,
      ⟨[0x00], [], rfl, .inl ⟨by unfold InNormal; decide, rfl⟩⟩, rfl, by decide, rfl, by decide, rfl, ⟨_, rfl⟩, ⟨_, rfl⟩, _, rfl⟩,
    ⟨rfl, rfl⟩, by unfold DefaultEncodings; decide, working_synced _ rfl (.inr rfl) rfl,
    ⟨[0x00], [], rfl, .inr ⟨by unfold InPending; decide, 0x00, 0x00, 0x00, 0x00, 0x00, rfl, rfl⟩⟩, _, rfl⟩

/-- The last: an operation that fails, and one that waits, in READY. -/
theorem witness_FrameOfWritingOperations : writesOnly .displayOn = true ∧ mayChangeMode .displayOn = false ∧
    mayChangeShift .displayOn = false ∧ mayChangeControl .leftToRight = false ∧ writesOnly .leftToRight = true ∧
    (∃ t, exec .displayOn (normal (oks 1)) = .next t) ∧
    (let s := normal [.nack none]
     Ready s ∧ oneCommand s .cursorOn = some (0x0E, { s with displaycontrol := 0x06 }) ∧ ∃ t, exec .cursorOn s = .next t) ∧
    (let s := pending [.ok 0x00, .ok 0x00, .ok 0x02, .ok 0x00]
     Ready s ∧ oneCommand s .cursorOn = some (0x0E, { s with displaycontrol := 0x06 }) ∧ ∃ t, exec .cursorOn s = .next t) :=
  ⟨rfl, rfl, rfl, rfl, rfl, ⟨_, rfl⟩, ⟨⟨rfl, rfl⟩, by decide +kernel, _, rfl⟩, ⟨rfl, rfl⟩, by decide +kernel, _, rfl⟩

theorem witness_ExpanderFrameOfWritingOperations :
    let s := working (normal (oks 1))
    writesOnly .displayOn = true ∧ DefaultEncodings s.cfg ∧ NonSequential s.cfg s.env.mem ∧ InNormal s ∧
    endsPending s.cfg .displayOn = false ∧ ¬ Touches s.cfg s.cfg.regOut 8 ∧ 8 ≠ s.cfg.regs.dir ∧ ∃ t, exec .displayOn s = .next t :=
  ⟨rfl, by unfold DefaultEncodings; decide, ⟨0x20, rfl, by decide⟩, by unfold InNormal; decide, rfl, by unfold Touches; decide, by decide,
    _, rfl⟩

theorem witness_FrameOfResumedAndLifecycle :
    let p : Poll := ⟨0, 0x40, 0x60, .plain, ⟨[0x0C], false⟩, []⟩
    let s := working (waiting 0 (oks 5))
    (s.seq = .polling p ∧ p.op = .plain ∧ DefaultEncodings s.cfg ∧ NonSequential s.cfg s.env.mem ∧ ∃ t, step s = .next t) ∧
    (∃ t, exec (.init 0x20 1) State.reset = .next t) ∧ ∃ t, exec .teardown (normal (oks 2)) = .next t :=
  ⟨⟨rfl, rfl, by unfold DefaultEncodings; decide, ⟨0x20, rfl, by decide⟩, _, rfl⟩, ⟨_, rfl⟩, _, rfl⟩

theorem witness_DirectionBitTellsTheLastWrite :
    (writesOnly .clear = true ∧ Ready (normal (oks 2)) ∧ DefaultEncodings (normal (oks 2)).cfg) ∧
    nextHas (exec .clear (normal (oks 2))) (fun t => t.outcomes == [.ok]) = true ∧
    ((waiting 0 (oks 5)).seq = .polling ⟨0, 0x40, 0x60, .plain, ⟨[0x0C], false⟩, []⟩ ∧ DefaultEncodings (waiting 0 (oks 5)).cfg) ∧
    nextHas (step (waiting 0 (oks 5))) (fun t => t.outcomes == [.ok]) = true := by
  unfold Ready DefaultEncodings; decide +kernel

theorem witness_MemoryStaysCanonical : MemoryOk (working (normal [])) ∧
    ∃ t, step { working (normal (oks 2)) with inbox := [encode .straight .clear] } = .next t := ⟨⟨by decide, by decide, by decide⟩, _, rfl⟩

/-- A ready instance, and one that waits in its poll, meet the invariant of the block. -/
theorem witness_BlockInvariantKept : BlockOk (normal []) ∧ BlockOk (waiting 0 (oks 5)) ∧ ∃ t, step (waiting 0 (oks 5)) = .next t := by
  refine ⟨⟨(by unfold DefaultEncodings; decide), fun _ => (by unfold ShadowsInRange; decide), fun p h => (by cases h), fun _ => ?_⟩,
    ⟨(by unfold DefaultEncodings; decide), fun _ => (by unfold ShadowsInRange; decide), fun p h => ?_, fun h => (by cases h)⟩, _, rfl⟩
  · decide
  · cases h; decide

theorem witness_OnlyAllowedTransactions :
    let s : State := { normal (oks 1) with inbox := [encode .straight .displayOn], history := [⟨some ⟨0x20, 1⟩, .w1 0 0x02, .done⟩] }
    BlockOk s ∧ HostOnly s ∧ HistoryOk s ∧ ∃ t, step s = .next t := by
  refine ⟨⟨(by unfold DefaultEncodings; decide), fun _ => (by unfold ShadowsInRange; decide), fun p h => (by cases h), fun _ => by decide⟩,
    fun p hp => ?_, fun e he => ?_, _, rfl⟩
  · rw [List.mem_singleton.1 hp]; rfl
  · rw [List.mem_singleton.1 he]; exact .inr (.inl ⟨rfl, .inr rfl⟩)

theorem witness_PollBoundKept :
    let s := bounded 3 (waiting 2 [.ok 0x00, .ok 0x02, .ok 0x00])
    s.cfg.wellFormed = true ∧ PollCountOk s ∧ GiveUpOk s ∧ ∃ t, step s = .next t := by
  refine ⟨by decide, fun p m h hm => ?_, fun n h => (by cases h), _, rfl⟩
  cases h
  have : 3 = m := Option.some.inj hm
  show 2 < m
  omega

theorem witness_OutcomesFitTheHistory : ∃ t, step (waiting 0 [.nack none]) = .next t := ⟨_, rfl⟩

theorem witness_TransactionsAddressTheHandle : (∀ addr busid, Instr.clear ≠ .init addr busid) ∧
    (∃ t, exec .clear (normal (oks 2)) = .next t) ∧ (∃ t, exec (.init 0x20 1) State.reset = .next t) ∧
    (waiting 0 []).seq = .polling ⟨0, 0x40, 0x60, .plain, ⟨[0x0C], false⟩, []⟩ ∧ ∃ t, step (waiting 0 []) = .next t :=
  ⟨fun _ _ h => (by cases h), ⟨_, rfl⟩, ⟨_, rfl⟩, rfl, _, rfl⟩

theorem witness_BlockIsBlindToTheEnvironment : ∃ t, step { normal (oks 2) with inbox := [encode .straight .clear] } = .next t := ⟨_, rfl⟩

theorem witness_OnlySharedBitOfGpioMatters : (0xFE : Byte) &&& 0x01 = (normal []).gpio &&& 0x01 ∧
    ∃ t, step { normal (oks 2) with inbox := [encode .straight .clear] } = .next t := ⟨by decide, _, rfl⟩

end Sys2Proof.Tests
end

/-! PROOFS. The scope of the model (00_scope.md). -/

namespace Sys2Proof.Proofs.Scope

open Sys2Proof.Machine

/-- An empty register file knows no value (R231). -/
@[simp] theorem memRead_nil (a : Nat) : memRead a [] = none := rfl

/-- At power-on the expander's register file is empty (R231). -/
@[simp] theorem reset_mem : State.reset.env.mem = [] := rfl

/-- Settles O7: the named fields are those the reset state is built from, and a read of its empty register file finds nothing. -/
theorem resetState : Obligations.ResetState := by
  have unknown (r : Nat) : memRead r State.reset.env.mem = none := by rw [reset_mem, memRead_nil]
  exact ⟨rfl, rfl, rfl, rfl, rfl, rfl, rfl, unknown⟩

end Sys2Proof.Proofs.Scope

/-! PROOFS. The block's state (10_state.md): what a step is, when an instruction is accepted, and the invariants at reset (R26, R30,
R37, R205, R209, R230). -/

namespace Sys2Proof.Proofs.Acceptance

open Sys2Proof.Machine Sys2Proof.Safety Sys2Proof.Laws

/-! ## What a step is -/

/-- No instruction stops the machine (R207, R211). -/
theorem exec_next (i : Instr) (s : State) : ∃ t, exec i s = .next t := by
  cases i <;> exact ⟨_, rfl⟩

theorem step_polling {s : State} {p : Poll} (h : s.seq = .polling p) : step s = .next (resumeOperation p s) := by
  simp only [step, h]

theorem step_waiting {s : State} (hs : s.seq = .idle) (hi : s.inbox = []) : step s = .next s := by
  simp only [step, hs, hi]

theorem step_request {s : State} {p : Packet} {rest : List Packet} (hs : s.seq = .idle) (hi : s.inbox = p :: rest) :
    step s = runPacket p { s with inbox := rest } := by
  simp only [step, hs, hi]

theorem runPacket_decoded {s : State} {p : Packet} {i : Instr} (h : decode s.cfg.order p = .ok i) : runPacket p s = exec i s := by
  simp only [runPacket, h]

theorem runPacket_rejected {s : State} {p : Packet} {e : DecodeError} (h : decode s.cfg.order p = .error e) :
    runPacket p s = .next (rejectPacket p.port s) := by
  simp only [runPacket, h]

theorem runPacket_next (p : Packet) (s : State) : ∃ t, runPacket p s = .next t := by
  unfold runPacket
  split
  · exact exec_next _ s
  · exact ⟨_, rfl⟩

/-- Settles O5: the step's two case splits, on the sequencer's position and on the queue. -/
theorem stepRunsDecodedRequest : Obligations.StepRunsDecodedRequest := by
  refine ⟨fun s p rest i hs hi hd => ?_, fun s p => step_polling, fun s => step_waiting, fun s => ?_⟩
  · exact (step_request hs hi).trans (runPacket_decoded (s := { s with inbox := rest }) hd)
  · cases hs : s.seq with
    | polling p => exact ⟨_, step_polling hs⟩
    | idle =>
      cases hi : s.inbox with
      | nil => exact ⟨_, step_waiting hs hi⟩
      | cons p rest => rw [step_request hs hi]; exact runPacket_next p _

/-! ## Micro-operations -/

theorem whenAddressable_closed (r : Nat) (f : State → State) {s : State} (h : s.handle = none) :
    whenAddressable r f s = refusedAs .noHandle s := by
  simp only [whenAddressable, h, refuse_eq]

theorem whenAddressable_outside {r : Nat} (f : State → State) {s : State} (h : s.handle ≠ none) (hr : 10 < r) :
    whenAddressable r f s = refusedAs .registerRange s := by
  obtain ⟨d, hd⟩ := Option.ne_none_iff_exists'.1 h
  have hout : ¬ r < nregs := Nat.not_lt.2 hr
  simp only [whenAddressable, hd, if_neg hout, refuse_eq]

theorem whenAddressable_open {r : Nat} (f : State → State) {s : State} (h : s.handle ≠ none) (hr : r ≤ 10) :
    whenAddressable r f s = f s := by
  obtain ⟨d, hd⟩ := Option.ne_none_iff_exists'.1 h
  have hin : r < nregs := Nat.lt_succ_of_le hr
  simp only [whenAddressable, hd, if_pos hin]

/-- Settles O14: the gate of a micro-operation looks at the handle first, then at the register; a block of no bytes is refused
behind it. -/
theorem microOperationRefused : Obligations.MicroOperationRefused := by
  have gate {f : State → State} {s u : State} (hs : s.seq = .idle) (h : f s = u) :
      (.next (whenIdle f s) : Host.Outcome State Fault Refusal) = .next u := by rw [whenIdle_idle f s hs, h]
  refine ⟨fun r v bs s hs hh => ⟨?_, ?_, ?_⟩, fun r v bs s hs hh hr => ⟨?_, ?_⟩, fun r s hs hh hr => ?_⟩
  · exact gate hs (whenAddressable_closed r _ hh)
  · exact gate hs (whenAddressable_closed r _ hh)
  · exact gate hs (whenAddressable_closed 0 _ hh)
  · exact gate hs (whenAddressable_outside _ hh hr)
  · exact gate hs (whenAddressable_outside _ hh hr)
  · exact gate hs (whenAddressable_open _ hh hr)

/-! ## Host operations -/

/-- Every host operation but INIT needs phase READY (R191, R205). -/
theorem exec_whenReady {i : Instr} (hi : (hostCode i).isSome = true) (hn : ∀ addr busid, i ≠ .init addr busid) :
    ∃ f, ∀ s, exec i s = .next (whenReady f s) := by
  cases i
  case init addr busid => exact absurd rfl (hn addr busid)
  case busWrite1 | busWriteBlk | busRead1 | encodeNybbles | ctlSetDdram | ctlSetCgram | ctlFunctionSet | ctlShift |
      ctlDisplayControl | ctlEntryMode | ctlHome | ctlClear => cases hi
  all_goals exact ⟨_, fun _ => rfl⟩

/-- INIT needs phase UNINIT, then an address of 7 bits (R205). -/
theorem exec_init_phase (addr : Byte) (busid : Nat) {s : State} (hs : s.seq = .idle) (hp : s.phase ≠ .uninit) :
    exec (.init addr busid) s = .next (refusedAs .phase s) := by
  rw [exec, execInit, whenIdle_idle _ s hs, if_neg hp, refuse_eq]

theorem exec_init_addrRange {addr : Byte} (busid : Nat) {s : State} (hs : s.seq = .idle) (hp : s.phase = .uninit)
    (ha : 0x7F < addr.toNat) : exec (.init addr busid) s = .next (refusedAs .addrRange s) := by
  rw [exec, execInit, whenIdle_idle _ s hs, if_pos hp, if_neg (Nat.not_le.2 ha), refuse_eq]

theorem exec_init_accepted {addr : Byte} (busid : Nat) {s : State} (hs : s.seq = .idle) (hp : s.phase = .uninit)
    (ha : addr.toNat ≤ 0x7F) :
    exec (.init addr busid) s = .next (finish .bringUp (bringUp { s with handle := some ⟨addr.setWidth 7, busid⟩ })) := by
  rw [exec, execInit, whenIdle_idle _ s hs, if_pos hp, if_pos ha]

/-- Host operations and micro-operations are accepted only by an idle sequencer (R30). -/
theorem exec_whenIdle {i : Instr} (hi : (hostCode i).isSome = true ∨ isBusOp i = true) :
    ∃ f, ∀ s, exec i s = .next (whenIdle f s) := by
  cases i
  case encodeNybbles | ctlSetDdram | ctlSetCgram | ctlFunctionSet | ctlShift | ctlDisplayControl | ctlEntryMode | ctlHome |
      ctlClear => rcases hi with hi | hi <;> cases hi
  all_goals exact ⟨_, fun _ => rfl⟩

theorem admittingPhase_of_not_init {i : Instr} (hn : ∀ addr busid, i ≠ .init addr busid) : admittingPhase i = .ready := by
  cases i
  case init addr busid => exact absurd rfl (hn addr busid)
  all_goals rfl

/-- Settles O35: the phase is looked at before anything else, INIT's address next, and behind both gates stands the sequencer's. -/
theorem acceptanceGate : Obligations.AcceptanceGate := by
  refine ⟨fun i s hi hs hp => ?_, fun addr busid s => exec_init_addrRange busid, fun i s p hi hs => ?_⟩
  · by_cases hinit : ∃ addr busid, i = .init addr busid
    · obtain ⟨addr, busid, rfl⟩ := hinit
      exact exec_init_phase addr busid hs hp
    · have hn : ∀ addr busid, i ≠ .init addr busid := fun addr busid h => hinit ⟨addr, busid, h⟩
      obtain ⟨f, hf⟩ := exec_whenReady hi hn
      rw [admittingPhase_of_not_init hn] at hp
      rw [hf, whenReady_refused f s hs hp]
  · obtain ⟨f, hf⟩ := exec_whenIdle hi
    rw [hf, whenIdle_polling f s p hs]

/-! ## Reset -/

theorem reset_blockOk : BlockOk State.reset := by
  refine ⟨rfl, fun h => ?_, fun p h => ?_, fun _ => ?_⟩
  · rcases h with h | ⟨p, h⟩ <;> cases h
  · cases h
  · simp [State.reset]

/-- Settles O56: at reset nothing is listed, queued, recorded, reported or polled, and the phase is UNINIT with no handle. -/
theorem invariantsAtReset : Obligations.InvariantsAtReset := by
  have hmemory : MemoryOk State.reset := ⟨List.Pairwise.nil, List.forall_mem_nil _, by decide⟩
  have hpoll : PollCountOk State.reset := fun p m h _ => by cases h
  have hgiveUp : GiveUpOk State.reset := fun n h => by cases h
  exact ⟨hmemory, reset_blockOk, List.forall_mem_nil _, List.forall_mem_nil _, by decide, hpoll, hgiveUp⟩

end Sys2Proof.Proofs.Acceptance

/-! PROOFS. The block's state (10_state.md): the ways a run ends, and what a transaction changes of the block. -/

namespace Sys2Proof.Proofs.RunEnds

open Sys2Proof.Machine Sys2Proof.Safety Sys2Proof.Laws

/-! ## How a run ends -/

/-- A run that goes on ends in `P`, one that waits in `W`, and one that is stopped reports no `Ok` and ends in `F`. -/
def Ends (P W F : State → Prop) : Run → Prop
  | .ok t => P t
  | .wait t => W t
  | .stop o t => o ≠ .ok ∧ F t

theorem ends_andThen {P Q W F : State → Prop} {r : Run} {f : State → Run} (h : Ends P W F r)
    (hf : ∀ t, P t → Ends Q W F (f t)) : Ends Q W F (andThen r f) := by
  cases r with
  | ok t => exact hf t h
  | wait t => exact h
  | stop o t => exact h

theorem ends_imp {P Q W F G : State → Prop} {r : Run} (h : Ends P W F r) (hp : ∀ t, P t → Q t) (hf : ∀ t, F t → G t) :
    Ends Q W G r := by
  cases r with
  | ok t => exact hp t h
  | wait t => exact h
  | stop o t => exact ⟨h.1, hf t h.2⟩

/-- A run that goes on does so in `P`. -/
def OkIn (P : State → Prop) : Run → Prop
  | .ok t => P t
  | .wait _ => True
  | .stop _ _ => True

theorem okIn_of_sat {P : State → Prop} {r : Run} (h : Sat P r) : OkIn P r := by
  cases r with
  | ok t => exact h
  | wait t => exact trivial
  | stop o t => exact trivial

theorem okIn_imp {P Q : State → Prop} {r : Run} (h : OkIn P r) (hpq : ∀ t, P t → Q t) : OkIn Q r := by
  cases r with
  | ok t => exact hpq t h
  | wait t => exact trivial
  | stop o t => exact trivial

theorem okIn_andThen {P Q : State → Prop} {r : Run} {f : State → Run} (h : OkIn P r) (hf : ∀ t, P t → OkIn Q (f t)) :
    OkIn Q (andThen r f) := by
  cases r with
  | ok t => exact hf t h
  | wait t => exact trivial
  | stop o t => exact trivial

/-! ## What a transaction changes of the block -/

/-- `t` is `s` but for what a transaction changes: the environment, the draws, the history. -/
def Transacted (s t : State) : Prop :=
  ∃ e ds k es, t = { s with env := e, draws := ds, drawn := k, history := es }

theorem transacted_refl (s : State) : Transacted s s := ⟨_, _, _, _, rfl⟩

theorem transacted_stable (s : State) : StableTxn (Transacted s) where
  draw := by
    rintro _ ⟨e, ds, k, es, rfl⟩
    cases ds <;> exact ⟨_, _, _, _, rfl⟩
  event := by
    rintro x m _ ⟨e, ds, k, es, rfl⟩
    exact ⟨_, _, _, _, rfl⟩

theorem transacted_at (s : State) (cfg : Params) (r : Nat) : StableAt (Transacted s) cfg r := by
  rintro bs _ - ⟨e, ds, k, es, rfl⟩
  exact ⟨_, _, _, _, rfl⟩

/-- A run that does not wait and is not stopped with `Ok`, as a transaction is. -/
def Prompt : Run → Prop
  | .ok _ => True
  | .wait _ => False
  | .stop o _ => o ≠ .ok

theorem prompt_andThen {r : Run} {f : State → Run} (h : Prompt r) (hf : ∀ t, Prompt (f t)) : Prompt (andThen r f) := by
  cases r with
  | ok t => exact hf t
  | wait t => exact h
  | stop o t => exact h

theorem busWrite1_prompt (r : Nat) (v : Byte) (s : State) : Prompt (busWrite1 r v s) := by
  unfold busWrite1
  split
  · exact trivial
  · exact OpOutcome.noConfusion

theorem busWriteChunk_prompt (r : Nat) (bs : List Byte) (s : State) : Prompt (busWriteChunk r bs s) := by
  unfold busWriteChunk
  split
  · exact trivial
  · exact OpOutcome.noConfusion

theorem busWriteBlk_prompt (r : Nat) (bs : List Byte) (s : State) : Prompt (busWriteBlk r bs s) := by
  unfold busWriteBlk
  generalize blockChunks bs = cs
  induction cs generalizing s with
  | nil => exact trivial
  | cons c cs ih => exact prompt_andThen (busWriteChunk_prompt r c s) ih

/-- What a transaction can do, from what it cannot change and that it does not wait. -/
theorem ends_of_transacted {P W F : State → Prop} {r : Run} {s : State} (ht : Prompt r) (hs : Sat (Transacted s) r)
    (h : ∀ t, Transacted s t → P t ∧ F t) : Ends P W F r := by
  cases r with
  | ok t => exact (h t hs).1
  | wait t => exact absurd ht id
  | stop o t => exact ⟨ht, (h t hs).2⟩

theorem busWrite1_ends {P W F : State → Prop} (r : Nat) (v : Byte) (s : State) (h : ∀ t, Transacted s t → P t ∧ F t) :
    Ends P W F (busWrite1 r v s) :=
  ends_of_transacted (busWrite1_prompt r v s)
    (busWrite1_keeps (transacted_stable s) r v s (transacted_at s _ r) (transacted_refl s)) h

theorem busWriteBlk_ends {P W F : State → Prop} (r : Nat) (bs : List Byte) (s : State) (h : ∀ t, Transacted s t → P t ∧ F t) :
    Ends P W F (busWriteBlk r bs s) :=
  ends_of_transacted (busWriteBlk_prompt r bs s)
    (busWriteBlk_keeps (transacted_stable s) r bs s (transacted_at s _ r) (transacted_refl s)) h

theorem busRead1_ends {P W F : State → Prop} (k : Byte → State → Run) (s : State) (hf : ∀ t, Transacted s t → F t)
    (hk : ∀ b t, Transacted s t → Ends P W F (k b t)) : Ends P W F (busRead1 s k) := by
  have hd := (transacted_stable s).draw s (transacted_refl s)
  unfold busRead1
  split <;> rename_i heq <;> rw [heq] at hd
  · exact hk _ _ ((transacted_stable s).event _ _ _ hd)
  · exact ⟨OpOutcome.noConfusion, hf _ ((transacted_stable s).event _ _ _ hd)⟩

end Sys2Proof.Proofs.RunEnds

/-! PROOFS. The block's state (10_state.md): two states that differ only where the block does not look make the same
step (R21, R35, R67, R70, R212). -/

namespace Sys2Proof.Proofs.Blindness

open Sys2Proof.Machine Sys2Proof.Safety Sys2Proof.Laws Sys2Proof.Proofs.Acceptance

/-! ## States the block cannot tell apart -/

/-- Relations between two environments and between two values of `gpio` that no operation of the block can use to tell two states
apart: a delivery and a command at the controller keep the first, and related values of `gpio` have the same shared bit (R21). -/
structure Unseen (E : Env → Env → Prop) (G : Byte → Byte → Prop) : Prop where
  deliver : ∀ cfg r bs {e e'}, E e e' → E (Machine.deliver cfg r bs e) (Machine.deliver cfg r bs e')
  command : ∀ c {e e' : Env}, E e e' → E { e with lcd := lcdCommand c e.lcd } { e' with lcd := lcdCommand c e'.lcd }
  same : ∀ g, G g g
  sharedBit : ∀ {g g'}, G g g' → g' &&& shared = g &&& shared

/-- Two states that differ in the environment and in `gpio` only, and there as `E` and `G` say. -/
def Alike (E : Env → Env → Prop) (G : Byte → Byte → Prop) (s t : State) : Prop :=
  ∃ e g, t = { s with env := e, gpio := g } ∧ E s.env e ∧ G s.gpio g

/-- Two runs that end the same way in states that are alike. -/
inductive RunsAlike (E : Env → Env → Prop) (G : Byte → Byte → Prop) : Run → Run → Prop where
  | ok {s t : State} (h : Alike E G s t) : RunsAlike E G (.ok s) (.ok t)
  | wait {s t : State} (h : Alike E G s t) : RunsAlike E G (.wait s) (.wait t)
  | stop {s t : State} (o : OpOutcome) (h : Alike E G s t) : RunsAlike E G (.stop o s) (.stop o t)

/-- A function of the state that takes states that are alike to states that are alike. -/
def KeepsAlike (E : Env → Env → Prop) (G : Byte → Byte → Prop) (f : State → State) : Prop :=
  ∀ s t, Alike E G s t → Alike E G (f s) (f t)

section

variable {E : Env → Env → Prop} {G : Byte → Byte → Prop}

theorem alike_cfg {s t : State} (h : Alike E G s t) : t.cfg = s.cfg := by
  obtain ⟨e, g, rfl, -, -⟩ := h; rfl

theorem alike_ddrb {s t : State} (h : Alike E G s t) : t.ddrb = s.ddrb := by
  obtain ⟨e, g, rfl, -, -⟩ := h; rfl

theorem alike_setGpio (hU : Unseen E G) (v : Byte) {s t : State} (h : Alike E G s t) :
    Alike E G { s with gpio := v } { t with gpio := v } := by
  obtain ⟨e, g, rfl, he, -⟩ := h; exact ⟨e, v, rfl, he, hU.same v⟩

theorem runsAlike_andThen {r r' : Run} {f f' : State → Run} (h : RunsAlike E G r r')
    (hf : ∀ s t, Alike E G s t → RunsAlike E G (f s) (f' t)) : RunsAlike E G (andThen r f) (andThen r' f') := by
  cases h with
  | ok h => exact hf _ _ h
  | wait h => exact .wait h
  | stop o h => exact .stop o h

/-! ## Transactions -/

theorem takeDraw_alike {s t : State} (h : Alike E G s t) :
    ∃ d s' t', takeDraw s = (d, s') ∧ takeDraw t = (d, t') ∧ Alike E G s' t' := by
  obtain ⟨e, g, rfl, he, hg⟩ := h
  cases hd : s.draws with
  | nil => simp only [takeDraw, hd]; exact ⟨_, _, _, rfl, rfl, e, g, rfl, he, hg⟩
  | cons d ds => simp only [takeDraw, hd]; exact ⟨_, _, _, rfl, rfl, e, g, rfl, he, hg⟩

/-- A delivery and the event of its transaction. -/
theorem recordDelivery_alike (hU : Unseen E G) (x : Txn) (m : Ending) (r : Nat) (bs : List Byte) {s t : State}
    (h : Alike E G s t) :
    Alike E G (record x m { s with env := deliver s.cfg r bs s.env }) (record x m { t with env := deliver t.cfg r bs t.env }) := by
  obtain ⟨e, g, rfl, he, hg⟩ := h
  exact ⟨_, g, rfl, hU.deliver _ r bs he, hg⟩

theorem recordPart_alike (hU : Unseen E G) (x : Txn) (m : Ending) (k : Option Nat) (r : Nat) (bs : List Byte) {s t : State}
    (h : Alike E G s t) :
    Alike E G (record x m { s with env := deliverPart s.cfg k r bs s.env })
      (record x m { t with env := deliverPart t.cfg k r bs t.env }) := by
  cases k with
  | none => obtain ⟨e, g, rfl, he, hg⟩ := h; exact ⟨e, g, rfl, he, hg⟩
  | some n => exact recordDelivery_alike hU x m r (bs.take n) h

theorem busWrite1_alike (hU : Unseen E G) (r : Nat) (v : Byte) {s t : State} (h : Alike E G s t) :
    RunsAlike E G (busWrite1 r v s) (busWrite1 r v t) := by
  obtain ⟨d, s', t', hs, ht, h'⟩ := takeDraw_alike h
  rw [busWrite1, busWrite1, hs, ht]
  cases d with
  | ok b => exact .ok (recordDelivery_alike hU _ _ r [v] h')
  | nack k => exact .stop _ (recordPart_alike hU _ _ k r [v] h')

theorem busWriteChunk_alike (hU : Unseen E G) (r : Nat) (bs : List Byte) {s t : State} (h : Alike E G s t) :
    RunsAlike E G (busWriteChunk r bs s) (busWriteChunk r bs t) := by
  obtain ⟨d, s', t', hs, ht, h'⟩ := takeDraw_alike h
  rw [busWriteChunk, busWriteChunk, hs, ht]
  cases d with
  | ok b => exact .ok (recordDelivery_alike hU _ _ r bs h')
  | nack k => exact .stop _ (recordPart_alike hU _ _ k r bs h')

theorem busWriteChunks_alike (hU : Unseen E G) (r : Nat) (cs : List (List Byte)) :
    ∀ s t, Alike E G s t → RunsAlike E G (busWriteChunks r cs s) (busWriteChunks r cs t) := by
  induction cs with
  | nil => exact fun _ _ h => .ok h
  | cons c cs ih => exact fun _ _ h => runsAlike_andThen (busWriteChunk_alike hU r c h) ih

theorem busWriteBlk_alike (hU : Unseen E G) (r : Nat) (bs : List Byte) {s t : State} (h : Alike E G s t) :
    RunsAlike E G (busWriteBlk r bs s) (busWriteBlk r bs t) := busWriteChunks_alike hU r _ _ _ h

theorem busRead1_alike {k k' : Byte → State → Run} {s t : State} (h : Alike E G s t)
    (hk : ∀ b s t, Alike E G s t → RunsAlike E G (k b s) (k' b t)) : RunsAlike E G (busRead1 s k) (busRead1 t k') := by
  obtain ⟨d, s', t', hs, ht, e, g, rfl, he, hg⟩ := takeDraw_alike h
  rw [busRead1, busRead1, hs, ht]
  cases d with
  | ok b => exact hk b _ _ ⟨e, g, rfl, he, hg⟩
  | nack _ => exact .stop _ ⟨e, g, rfl, he, hg⟩

/-! ## The write primitive -/

theorem pollIterate_alike (hU : Unseen E G) (p : Poll) {s t : State} (h : Alike E G s t) :
    RunsAlike E G (pollIterate p s) (pollIterate p t) := by
  rw [pollIterate, pollIterate, alike_cfg h]
  refine runsAlike_andThen (busWrite1_alike hU _ _ h) fun s t h => busRead1_alike (alike_setGpio hU p.hi h) fun b s t h => ?_
  rw [alike_cfg h]
  refine runsAlike_andThen (busWriteBlk_alike hU _ _ h) ?_
  rintro s t ⟨e, g, rfl, he, -⟩
  dsimp only
  split
  · split
    · exact .stop _ ⟨e, p.lo, rfl, he, hU.same _⟩
    · exact .wait ⟨e, p.lo, rfl, he, hU.same _⟩
  · exact busWrite1_alike hU _ _ ⟨e, p.lo, rfl, he, hU.same _⟩

theorem pollIfPending_alike (hU : Unseen E G) (op : OpKind) (j : Job) (js : List Job) {s t : State} (h : Alike E G s t) :
    RunsAlike E G (pollIfPending op j js s) (pollIfPending op j js t) := by
  have hbit : t.gpio &&& shared = s.gpio &&& shared := by
    obtain ⟨e, g, rfl, -, hg⟩ := h; exact hU.sharedBit hg
  simp only [pollIfPending, pollStart, pollHi, pollLo, alike_cfg h, alike_ddrb h, hbit]
  split
  · exact runsAlike_andThen (busWrite1_alike hU _ _ h) fun s t h => pollIterate_alike hU _ (alike_setGpio hU _ h)
  · exact .ok h

theorem lastByte_related (hU : Unseen E G) (buf : List Byte) {g g' : Byte} (hg : G g g') :
    G (lastByte g buf) (lastByte g' buf) := by
  cases buf with
  | nil => exact hg
  | cons b bs => exact hU.same _

theorem flush_alike (hU : Unseen E G) (buf : List Byte) {s t : State} (h : Alike E G s t) :
    RunsAlike E G (flush buf s) (flush buf t) := by
  rw [flush, flush, alike_cfg h]
  refine runsAlike_andThen (busWriteBlk_alike hU _ buf h) ?_
  rintro s t ⟨e, g, rfl, he, hg⟩
  exact .ok ⟨e, _, rfl, he, lastByte_related hU buf hg⟩

theorem sendValues_alike (hU : Unseen E G) (mask : Byte) (vs buf : List Byte) :
    ∀ s t, Alike E G s t → RunsAlike E G (sendValues mask vs buf s) (sendValues mask vs buf t) := by
  induction vs generalizing buf with
  | nil => exact fun _ _ h => .ok h
  | cons v vs ih =>
    intro s t h
    simp only [sendValues, alike_cfg h]
    split
    · exact runsAlike_andThen (flush_alike hU _ h) (ih [])
    · exact ih _ s t h

theorem rearm_alike (hU : Unseen E G) (j : Job) {s t : State} (h : Alike E G s t) : RunsAlike E G (rearm j s) (rearm j t) := by
  obtain ⟨e, g, rfl, he, hg⟩ := h
  dsimp only [rearm]
  split
  · exact busWrite1_alike hU _ _ ⟨e, g, rfl, he, hg⟩
  · exact .ok ⟨e, g, rfl, he, hg⟩

theorem sendJob_alike (hU : Unseen E G) (j : Job) {s t : State} (h : Alike E G s t) :
    RunsAlike E G (sendJob j s) (sendJob j t) := by
  have hmask : controlMask t.cfg t.gpio j.isData = controlMask s.cfg s.gpio j.isData := by
    obtain ⟨e, g, rfl, -, hg⟩ := h
    simp only [controlMask, hU.sharedBit hg]
  rw [sendJob, sendJob, hmask]
  exact runsAlike_andThen (sendValues_alike hU _ _ _ s t h) fun _ _ h => rearm_alike hU j h

theorem runJobs_alike (hU : Unseen E G) (op : OpKind) (js : List Job) :
    ∀ s t, Alike E G s t → RunsAlike E G (runJobs op js s) (runJobs op js t) := by
  induction js with
  | nil => exact fun _ _ h => .ok h
  | cons j js ih =>
    exact fun _ _ h => runsAlike_andThen
      (runsAlike_andThen (pollIfPending_alike hU op j js h) fun _ _ h => sendJob_alike hU j h) ih

/-! ## Whole operations -/

theorem endOperation_alike (hU : Unseen E G) (op : OpKind) (o : OpOutcome) : KeepsAlike E G (endOperation op o) := by
  rintro s t ⟨e, g, rfl, he, hg⟩
  cases op with
  | plain => exact ⟨e, g, rfl, he, hg⟩
  | release => rw [endOperation_release, endOperation_release]; exact ⟨e, g, rfl, he, hg⟩
  | bringUp =>
    by_cases ho : o = .ok
    · subst ho; exact ⟨e, g, rfl, he, hg⟩
    · rw [endOperation_bringUp_failed o ho, endOperation_bringUp_failed o ho]
      exact ⟨e, unsetShadow, rfl, he, hU.same _⟩

theorem finish_alike (hU : Unseen E G) (op : OpKind) {r r' : Run} (h : RunsAlike E G r r') :
    Alike E G (finish op r) (finish op r') := by
  cases h with
  | ok h => exact endOperation_alike hU op .ok _ _ h
  | wait h => exact h
  | stop o h => exact endOperation_alike hU op o _ _ h

theorem runPlain_alike (hU : Unseen E G) (js : List Job) : KeepsAlike E G (runPlain js) :=
  fun s t h => finish_alike hU .plain (runJobs_alike hU .plain js s t h)

theorem tearDown_alike (hU : Unseen E G) {s t : State} (h : Alike E G s t) : RunsAlike E G (tearDown s) (tearDown t) := by
  rw [tearDown, tearDown, alike_cfg h]
  refine runsAlike_andThen (busWrite1_alike hU _ _ h) fun s t h => ?_
  rw [alike_cfg h]
  exact busWriteBlk_alike hU _ _ h

theorem registerLoad_alike (hU : Unseen E G) {s t : State} (h : Alike E G s t) :
    RunsAlike E G (registerLoad s) (registerLoad t) := by
  rw [registerLoad, registerLoad, alike_cfg h]
  refine runsAlike_andThen (busWrite1_alike hU _ _ h) fun s t h => ?_
  rw [alike_cfg h]
  refine runsAlike_andThen (busWriteBlk_alike hU _ _ h) fun s t h => ?_
  rw [alike_cfg h]
  refine runsAlike_andThen (busWrite1_alike hU _ _ h) ?_
  rintro s t ⟨e, g, rfl, he, -⟩
  exact .ok ⟨e, 0x00, rfl, he, hU.same _⟩

theorem bringUp_alike (hU : Unseen E G) {s t : State} (h : Alike E G s t) : RunsAlike E G (bringUp s) (bringUp t) := by
  refine runsAlike_andThen (registerLoad_alike hU h) fun s t h => ?_
  have hjobs : bringUpJobs t = bringUpJobs s := by obtain ⟨e, g, rfl, -, -⟩ := h; rfl
  rw [hjobs]
  exact runJobs_alike hU _ _ s t h

/-! ## Gates -/

theorem refuse_alike (why : RefuseReason) : KeepsAlike E G (refuse why) := by
  rintro s t ⟨e, g, rfl, he, hg⟩; exact ⟨e, g, rfl, he, hg⟩

theorem whenIdle_alike {f : State → State} (hf : KeepsAlike E G f) : KeepsAlike E G (whenIdle f) := by
  intro s t h
  have hseq : t.seq = s.seq := by obtain ⟨e, g, rfl, -, -⟩ := h; rfl
  cases hs : s.seq with
  | idle => rw [whenIdle_idle f s hs, whenIdle_idle f t (hseq.trans hs)]; exact hf s t h
  | polling p => rw [whenIdle_polling f s p hs, whenIdle_polling f t p (hseq.trans hs)]; exact h

theorem whenReady_alike {f : State → State} (hf : KeepsAlike E G f) : KeepsAlike E G (whenReady f) := by
  refine whenIdle_alike fun s t h => ?_
  have hphase : t.phase = s.phase := by obtain ⟨e, g, rfl, -, -⟩ := h; rfl
  simp only [hphase]
  split
  · exact hf s t h
  · exact refuse_alike .phase s t h

theorem whenAddressable_alike (r : Nat) {f : State → State} (hf : KeepsAlike E G f) : KeepsAlike E G (whenAddressable r f) := by
  intro s t h
  have hhandle : t.handle = s.handle := by obtain ⟨e, g, rfl, -, -⟩ := h; rfl
  simp only [whenAddressable, hhandle]
  split
  · exact refuse_alike .noHandle s t h
  · split
    · exact hf s t h
    · exact refuse_alike .registerRange s t h

/-! ## Every instruction, every step -/

/-- Every instruction takes states that are alike to states that are alike. -/
theorem exec_alike (hU : Unseen E G) (i : Instr) : ∃ f, (∀ s, exec i s = .next (f s)) ∧ KeepsAlike E G f := by
  have runs : ∀ js, KeepsAlike E G (runPlain js) := runPlain_alike hU
  cases i
  case init addr busid =>
    refine ⟨_, fun _ => rfl, whenIdle_alike ?_⟩
    rintro s t ⟨e, g, rfl, he, hg⟩
    dsimp only
    split
    · split
      · exact finish_alike hU _ (bringUp_alike hU ⟨e, g, rfl, he, hg⟩)
      · exact refuse_alike .addrRange _ _ ⟨e, g, rfl, he, hg⟩
    · exact refuse_alike .phase _ _ ⟨e, g, rfl, he, hg⟩
  case teardown =>
    refine ⟨_, fun _ => rfl, whenReady_alike ?_⟩
    rintro s t ⟨e, g, rfl, he, hg⟩
    exact finish_alike hU _ (tearDown_alike hU ⟨e, g, rfl, he, hg⟩)
  case setCursor col row =>
    refine ⟨_, fun _ => rfl, whenReady_alike fun s t h => ?_⟩
    rw [alike_cfg h]
    split
    · exact runs _ s t h
    · exact refuse_alike .columnRange s t h
  case defineGlyph slot bm =>
    refine ⟨_, fun _ => rfl, whenReady_alike fun s t h => ?_⟩
    rw [alike_cfg h]
    split
    · exact runs _ s t h
    · exact refuse_alike .glyphRange s t h
  case busWrite1 r v =>
    exact ⟨_, fun _ => rfl, whenIdle_alike (whenAddressable_alike r fun _ _ h => finish_alike hU _ (busWrite1_alike hU r v h))⟩
  case busWriteBlk r bs =>
    refine ⟨_, fun _ => rfl, whenIdle_alike (whenAddressable_alike r fun s t h => ?_)⟩
    split
    · exact refuse_alike .emptyBlock s t h
    · exact finish_alike hU _ (busWriteBlk_alike hU r bs h)
  case busRead1 =>
    refine ⟨_, fun _ => rfl, whenIdle_alike (whenAddressable_alike 0 fun s t h => finish_alike hU _ (busRead1_alike h ?_))⟩
    rintro b s t ⟨e, g, rfl, he, hg⟩
    exact .ok ⟨e, g, rfl, he, hg⟩
  case encodeNybbles mask v =>
    refine ⟨_, fun _ => rfl, ?_⟩
    rintro s t ⟨e, g, rfl, he, hg⟩
    exact ⟨e, g, rfl, he, hg⟩
  case ctlSetDdram | ctlSetCgram | ctlFunctionSet | ctlShift | ctlDisplayControl | ctlEntryMode | ctlHome | ctlClear =>
    refine ⟨_, fun _ => rfl, ?_⟩
    rintro s t ⟨e, g, rfl, he, hg⟩
    exact ⟨_, g, rfl, hU.command _ he, hg⟩
  -- The operations that are writes and no more, from a state in which at most a display-mode shadow is new.
  all_goals
    refine ⟨_, fun _ => rfl, whenReady_alike ?_⟩
    rintro s t ⟨e, g, rfl, he, hg⟩
    exact runs _ _ _ ⟨e, g, rfl, he, hg⟩

theorem resumeOperation_alike (hU : Unseen E G) (p : Poll) : KeepsAlike E G (resumeOperation p) := fun _ _ h =>
  finish_alike hU p.op <| runsAlike_andThen
    (runsAlike_andThen (pollIterate_alike hU p h) fun _ _ h => sendJob_alike hU p.job h) (runJobs_alike hU p.op p.rest)

theorem rejectPacket_alike (port : Port) : KeepsAlike E G (rejectPacket port) := by
  cases port
  case ctl => exact fun _ _ h => h
  all_goals exact refuse_alike .notAnOperation

/-- Two states that are alike make the same step, to states that are alike. -/
theorem step_alike (hU : Unseen E G) {s s' t : State} (h : Alike E G s t) (hs : step s = .next s') :
    ∃ t', step t = .next t' ∧ Alike E G s' t' := by
  have hseq : t.seq = s.seq := by obtain ⟨e, g, rfl, -, -⟩ := h; rfl
  have hinbox : t.inbox = s.inbox := by obtain ⟨e, g, rfl, -, -⟩ := h; rfl
  rcases step_cases s s' hs with ⟨p, hp, rfl⟩ | ⟨hi, hq, rfl⟩ | ⟨p, rest, hi, hq, hrun⟩
  · exact ⟨_, step_polling (hseq.trans hp), resumeOperation_alike hU p s t h⟩
  · exact ⟨t, step_waiting (hseq.trans hi) (hinbox.trans hq), h⟩
  · have htaken : Alike E G { s with inbox := rest } { t with inbox := rest } := by
      obtain ⟨e, g, rfl, he, hg⟩ := h; exact ⟨e, g, rfl, he, hg⟩
    rw [step_request (hseq.trans hi) (hinbox.trans hq)]
    rcases hrun with ⟨i, hd, hx⟩ | ⟨⟨err, hd⟩, rfl⟩ <;> rw [← alike_cfg h] at hd
    · obtain ⟨f, hf, hk⟩ := exec_alike hU i
      obtain rfl : f { s with inbox := rest } = s' := by rw [hf] at hx; injection hx
      exact ⟨_, (runPacket_decoded (s := { t with inbox := rest }) hd).trans (hf _), hk _ _ htaken⟩
    · exact ⟨_, runPacket_rejected (s := { t with inbox := rest }) hd, rejectPacket_alike p.port _ _ htaken⟩

end

/-! ## The two statements -/

/-- Any two environments, and the same `gpio`. -/
theorem unseen_env : Unseen (fun _ _ => True) (fun g g' => g' = g) where
  deliver _ _ _ _ _ _ := trivial
  command _ _ _ _ := trivial
  same _ := rfl
  sharedBit h := by rw [h]

/-- The same environment, and any two values of `gpio` with one shared bit. -/
theorem unseen_gpio : Unseen (fun e e' => e' = e) (fun g g' => g' &&& shared = g &&& shared) where
  deliver _ _ _ _ _ h := by rw [h]
  command _ _ _ h := by rw [h]
  same _ := rfl
  sharedBit h := h

/-- Settles O59: states that differ in the environment only are alike, and a step keeps them so. -/
theorem blockIsBlindToTheEnvironment : Obligations.BlockIsBlindToTheEnvironment := by
  intro s t e hs
  obtain ⟨t', ht', e', g', rfl, -, rfl⟩ := step_alike unseen_env ⟨e, s.gpio, rfl, trivial, rfl⟩ hs
  exact ⟨e', ht'⟩

/-- Settles O60: states that differ in bits 7:1 of `gpio` only are alike, and a step keeps them so. -/
theorem onlySharedBitOfGpioMatters : Obligations.OnlySharedBitOfGpioMatters := by
  intro s t g hg hs
  obtain ⟨t', ht', e', g', rfl, rfl, hg'⟩ := step_alike unseen_gpio ⟨s.env, g, rfl, rfl, hg⟩ hs
  exact ⟨g', ht', hg'⟩

end Sys2Proof.Proofs.Blindness

/-! PROOFS. The block's state (10_state.md): the invariant of the block (R22, R25, R26, R41, R83, R193). -/

namespace Sys2Proof.Proofs.BlockInvariant

open Sys2Proof.Machine Sys2Proof.Safety Sys2Proof.Laws Sys2Proof.Proofs.RunEnds

/-! ## Bytes with a shared bit of 0 -/

theorem place4_shared (o : NybbleOrder) (n : Nybble) : place4 o n &&& shared = 0 := by
  cases o <;> revert n <;> decide

theorem or_shared {a b : Byte} (ha : a &&& shared = 0) (hb : b &&& shared = 0) : (a ||| b) &&& shared = 0 := by
  have hdist : (a ||| b) &&& shared = (a &&& shared) ||| (b &&& shared) := by ext i; simp [Bool.and_or_distrib_right]
  rw [hdist, ha, hb]; rfl

/-- Under a mask with a shared bit of 0 so are the four bytes of a quad. -/
theorem enc_shared {cfg : Params} {mask : Byte} (hm : mask &&& shared = 0) (v : Byte) :
    ∀ b ∈ enc cfg mask v, b &&& shared = 0 := by
  have hstrobe : strobe &&& shared = 0 := by decide
  have hq (n : Nybble) : (mask ||| place4 cfg.order n) &&& shared = 0 := or_shared hm (place4_shared _ n)
  intro b hb
  simp only [enc, List.mem_cons, List.not_mem_nil, or_false] at hb
  rcases hb with rfl | rfl | rfl | rfl
  · exact or_shared (hq _) hstrobe
  · exact hq _
  · exact or_shared (hq _) hstrobe
  · exact hq _

theorem lastByte_shared {g : Byte} {bs : List Byte} (hg : g &&& shared = 0) (h : ∀ b ∈ bs, b &&& shared = 0) :
    lastByte g bs &&& shared = 0 := by
  induction bs generalizing g with
  | nil => exact hg
  | cons b bs ih => exact ih (h b List.mem_cons_self) fun c hc => h c (List.mem_cons_of_mem _ hc)

/-! ## A run of writes while the shadows are live -/

/-- The block within an operation whose writes may run: the shadows in range, the handle open, the phase that of the operation. -/
def Live (op : OpKind) (s : State) : Prop :=
  DefaultEncodings s.cfg ∧ ShadowsInRange s ∧ s.handle ≠ none ∧
    ((op = .bringUp ∧ s.phase = .uninit) ∨ (op = .plain ∧ s.phase = .ready))

/-- The block within an operation that waits in its poll (R133). -/
def Waiting (op : OpKind) (s : State) : Prop :=
  Live op s ∧ s.gpio = 0x40 ∧ s.ddrb = 0x02 ∧ ∃ p, s.seq = .polling p ∧ p.op = op ∧ p.lo = 0x40 ∧ p.hi = 0x60

/-- A run that keeps the block live and waits as a poll does. -/
abbrev LiveRun (op : OpKind) : Run → Prop := Ends (Live op) (Waiting op) (Live op)

theorem live_transacted {op : OpKind} {s t : State} (h : Live op s) (ht : Transacted s t) : Live op t := by
  obtain ⟨e, ds, k, es, rfl⟩ := ht; exact h

theorem live_setGpio {op : OpKind} {s : State} {v : Byte} (h : Live op s) (hv : v &&& shared = 0) :
    Live op { s with gpio := v } := by
  obtain ⟨hc, ⟨-, hd, hm⟩, hh, hp⟩ := h
  exact ⟨hc, ⟨hv, hd, hm⟩, hh, hp⟩

theorem live_setDdrb {op : OpKind} {s : State} {d : Byte} (h : Live op s) (hd : d = 0x00 ∨ d = 0x02) :
    Live op { s with ddrb := d } := by
  obtain ⟨hc, ⟨hg, -, hm⟩, hh, hp⟩ := h
  exact ⟨hc, ⟨hg, hd, hm⟩, hh, hp⟩

theorem live_gpio {op : OpKind} {s : State} (h : Live op s) : s.gpio &&& shared = 0 := by
  obtain ⟨-, ⟨hg, -⟩, -⟩ := h; exact hg

theorem live_ddrb {op : OpKind} {s : State} (h : Live op s) : s.ddrb = 0x00 ∨ s.ddrb = 0x02 := by
  obtain ⟨-, ⟨-, hd, -⟩, -⟩ := h; exact hd

theorem live_busyDir {op : OpKind} {s : State} (h : Live op s) : s.cfg.busyDir = 0x02 := default_busyDir h.1

/-- Clearing and setting the direction bit stays within the two values of the direction shadow. -/
theorem ddrb_cleared {op : OpKind} {s : State} (h : Live op s) : s.ddrb &&& ~~~s.cfg.busyDir = 0x00 := by
  rw [live_busyDir h]
  rcases live_ddrb h with hd | hd <;> rw [hd] <;> decide

theorem ddrb_set {op : OpKind} {s : State} (h : Live op s) : s.ddrb ||| s.cfg.busyDir = 0x02 := by
  rw [live_busyDir h]
  rcases live_ddrb h with hd | hd <;> rw [hd] <;> decide

theorem busWrite1_live {op : OpKind} (r : Nat) (v : Byte) {s : State} (h : Live op s) : LiveRun op (busWrite1 r v s) :=
  busWrite1_ends r v s fun _ ht => ⟨live_transacted h ht, live_transacted h ht⟩

theorem flush_live {op : OpKind} {s : State} {buf : List Byte} (h : Live op s) (hb : ∀ b ∈ buf, b &&& shared = 0) :
    LiveRun op (flush buf s) := by
  have hblk : LiveRun op (busWriteBlk s.cfg.regOut buf s) :=
    busWriteBlk_ends _ buf s fun _ ht => ⟨live_transacted h ht, live_transacted h ht⟩
  exact ends_andThen hblk fun t ht => live_setGpio ht (lastByte_shared (live_gpio ht) hb)

theorem sendValues_live {op : OpKind} {mask : Byte} (hm : mask &&& shared = 0) (vs : List Byte) {buf : List Byte} {s : State}
    (h : Live op s) (hb : ∀ b ∈ buf, b &&& shared = 0) : LiveRun op (sendValues mask vs buf s) := by
  induction vs generalizing buf s with
  | nil => exact h
  | cons v vs ih =>
    have hb' : ∀ b ∈ buf ++ enc s.cfg mask v, b &&& shared = 0 := fun b hmem =>
      (List.mem_append.1 hmem).elim (hb b) (enc_shared hm v b)
    rw [sendValues]
    split
    · exact ends_andThen (flush_live h hb') fun t ht => ih ht (by simp)
    · exact ih h hb'

theorem controlMask_shared {op : OpKind} {s : State} (h : Live op s) (isData : Bool) :
    controlMask s.cfg s.gpio isData &&& shared = 0 := by
  rw [controlMask, live_gpio h, default_rsBit h.1]
  cases isData <;> decide

theorem sendJob_live {op : OpKind} (j : Job) {s : State} (h : Live op s) : LiveRun op (sendJob j s) := by
  refine ends_andThen (sendValues_live (controlMask_shared h j.isData) j.vals h (by simp)) fun t ht => ?_
  unfold rearm
  split
  · exact busWrite1_live _ _ (live_setDdrb ht (.inr (ddrb_set ht)))
  · exact ht

/-- A live block in its poll, the busy pin an input. -/
def InPoll (op : OpKind) (s : State) : Prop := Live op s ∧ s.ddrb = 0x02

theorem inPoll_transacted {op : OpKind} {s t : State} (h : InPoll op s) (ht : Transacted s t) : InPoll op t ∧ Live op t := by
  obtain ⟨e, ds, k, es, rfl⟩ := ht; exact ⟨h, h.1⟩

/-- One iteration: the poll's patterns keep the shared bit 0, and the direction bit is cleared when it ends. -/
theorem pollIterate_live {op : OpKind} (p : Poll) {s : State} (h : InPoll op s) (hop : p.op = op)
    (hlo : p.lo = 0x40) (hhi : p.hi = 0x60) : LiveRun op (pollIterate p s) := by
  have hlo0 : p.lo &&& shared = 0 := by rw [hlo]; decide
  have hhi0 : p.hi &&& shared = 0 := by rw [hhi]; decide
  refine ends_andThen (P := InPoll op) (busWrite1_ends _ _ _ fun _ => inPoll_transacted h) fun t ⟨ht, htd⟩ => ?_
  have hraised : InPoll op { t with gpio := p.hi } := ⟨live_setGpio ht hhi0, htd⟩
  refine busRead1_ends _ _ (fun _ hu => (inPoll_transacted hraised hu).2) fun b u hu => ?_
  have hread : InPoll op u := (inPoll_transacted hraised hu).1
  refine ends_andThen (P := InPoll op) (busWriteBlk_ends _ _ _ fun _ => inPoll_transacted hread) fun w ⟨hw, hwd⟩ => ?_
  have hlow : Live op { w with gpio := p.lo } := live_setGpio hw hlo0
  split
  · split
    · exact ⟨OpOutcome.noConfusion, hlow⟩
    · exact ⟨hlow, hlo, hwd, _, rfl, hop, hlo, hhi⟩
  · exact busWrite1_live _ _ (live_setDdrb hlow (.inl (ddrb_cleared hw)))

theorem pollIfPending_live (op : OpKind) (j : Job) (js : List Job) {s : State} (h : Live op s) :
    LiveRun op (pollIfPending op j js s) := by
  have hlo : pollLo s.cfg s.gpio = 0x40 := by rw [pollLo, live_gpio h, default_readbackBit h.1]; rfl
  unfold pollIfPending
  split
  · rename_i hp
    have hd : s.ddrb = 0x02 := (live_ddrb h).resolve_left fun h0 => by simp [pollPending, h0] at hp
    refine ends_andThen (P := InPoll op) (busWrite1_ends _ _ s fun _ => inPoll_transacted ⟨h, hd⟩) fun t ⟨ht, htd⟩ => ?_
    exact pollIterate_live _ ⟨live_setGpio ht (by rw [hlo]; decide), htd⟩ rfl hlo (by rw [pollHi, hlo]; rfl)
  · exact h

theorem runJobs_live (op : OpKind) (js : List Job) {s : State} (h : Live op s) : LiveRun op (runJobs op js s) := by
  induction js generalizing s with
  | nil => exact h
  | cons j js ih =>
    exact ends_andThen (ends_andThen (pollIfPending_live op j js h) fun _ ht => sendJob_live j ht) fun _ ht => ih ht

/-! ## The states between steps -/

theorem blockOk_waiting {op : OpKind} {s : State} (h : Waiting op s) : BlockOk s := by
  obtain ⟨⟨hc, hr, hh, hphase⟩, hg, hd, p, hs, rfl, hlo, hhi⟩ := h
  refine ⟨hc, fun _ => hr, fun q hq => ?_, fun hi => by simp [hs] at hi⟩
  obtain rfl : p = q := by simpa [hs] using hq
  exact ⟨hlo, hhi, hg.trans hlo.symm, hd, hh, hphase⟩

theorem blockOk_ready {s : State} (hs : s.seq = .idle) (hc : DefaultEncodings s.cfg) (hr : ShadowsInRange s)
    (hh : s.handle ≠ none) (hp : s.phase = .ready) : BlockOk s :=
  ⟨hc, fun _ => hr, fun q hq => by simp [hs] at hq, fun _ => by simp [hh, hp]⟩

theorem blockOk_closed {s : State} (hs : s.seq = .idle) (hc : DefaultEncodings s.cfg) (hh : s.handle = none)
    (hp : s.phase ≠ .ready) : BlockOk s :=
  ⟨hc, fun hl => hl.elim (absurd · hp) fun ⟨q, hq⟩ => by simp [hs] at hq, fun q hq => by simp [hs] at hq,
    fun _ => by simp [hh, hp]⟩

/-- A block that takes a request is live for a writing operation if it is ready. -/
theorem live_of_ready {s : State} (h : BlockOk s) (hr : Ready s) : Live .plain s := by
  obtain ⟨hc, hshadows, -, hhandle⟩ := h
  exact ⟨hc, hshadows (.inl hr.1), (hhandle hr.2).2 hr.1, .inr ⟨rfl, hr.1⟩⟩

theorem live_prepared {i : Instr} {s u : State} (h : Live .plain s) (hu : Prepared i s u) : Live .plain u := by
  obtain ⟨hc, ⟨hg, hd, hm⟩, hh, hp⟩ := h
  have hmodes : ModesOk u := hu.modes hc hm
  rw [hu.eq]
  exact ⟨hc, ⟨hg, hd, hmodes⟩, hh, hp⟩

theorem finish_plain_blockOk {r : Run} (h : LiveRun .plain r) : BlockOk (finish .plain r) := by
  have ended {t : State} (o : OpOutcome) (ht : Live .plain t) : BlockOk (endOperation .plain o t) := by
    obtain ⟨hc, hr, hh, hp | hp⟩ := ht
    · cases hp.1
    · exact blockOk_ready rfl hc hr hh hp.2
  cases r with
  | ok t => exact ended .ok h
  | wait t => exact blockOk_waiting h
  | stop o t => exact ended o h.2

/-- The block during a bring-up, whatever its shadows. -/
def ComingUp (s : State) : Prop := DefaultEncodings s.cfg ∧ s.phase = .uninit

theorem comingUp_of_live {s : State} (h : Live .bringUp s) : ComingUp s := by
  obtain ⟨hc, -, -, hp | hp⟩ := h
  · exact ⟨hc, hp.2⟩
  · cases hp.1

theorem finish_bringUp_blockOk {r : Run} (h : Ends (Live .bringUp) (Waiting .bringUp) ComingUp r) :
    BlockOk (finish .bringUp r) := by
  cases r with
  | ok t =>
    obtain ⟨hc, hr, hh, -⟩ := h
    exact blockOk_ready rfl hc hr hh rfl
  | wait t => exact blockOk_waiting h
  | stop o t =>
    obtain ⟨ho, hc, hp⟩ := h
    rw [finish_stop, endOperation_bringUp_failed o ho]
    exact blockOk_closed rfl hc rfl (by simp [hp])

/-- The same with the handle that INIT has opened. -/
def ComingUpOpen (s : State) : Prop := ComingUp s ∧ s.handle ≠ none

theorem comingUpOpen_transacted {s t : State} (h : ComingUpOpen s) (ht : Transacted s t) : ComingUpOpen t ∧ ComingUp t := by
  obtain ⟨e, ds, k, es, rfl⟩ := ht; exact ⟨h, h.1⟩

theorem live_loadShadows {s : State} (h : ComingUpOpen s) : Live .bringUp (loadShadows s) := by
  obtain ⟨⟨hc, hp⟩, hh⟩ := h
  refine ⟨hc, ?_, hh, .inl ⟨rfl, hp⟩⟩
  simp only [ShadowsInRange, loadShadows_gpio, loadShadows_ddrb, loadShadows_displaycontrol, loadShadows_displaymode,
    loadShadows_displayshift, default_ddrInit hc, default_shiftInit hc, default_modeInit hc, default_ctrlInit hc]
  decide

/-- The register load makes the shadows live (R161). -/
theorem bringUp_ends {s : State} (h : ComingUpOpen s) : Ends (Live .bringUp) (Waiting .bringUp) ComingUp (bringUp s) := by
  refine ends_andThen (P := Live .bringUp) ?_ fun t ht => ends_imp (runJobs_live _ _ ht) (fun _ => id) fun _ => comingUp_of_live
  refine ends_andThen (P := ComingUpOpen) (busWrite1_ends _ _ _ fun _ => comingUpOpen_transacted h) fun t ht => ?_
  refine ends_andThen (P := ComingUpOpen) (busWriteBlk_ends _ _ _ fun _ => comingUpOpen_transacted ht) fun u hu => ?_
  exact ends_andThen (P := ComingUpOpen) (busWrite1_ends _ _ _ fun _ => comingUpOpen_transacted hu) fun w => live_loadShadows

/-- The block during TEARDOWN. -/
def Released (s : State) : Prop := DefaultEncodings s.cfg ∧ s.phase = .released

theorem released_transacted {s t : State} (h : Released s) (ht : Transacted s t) : Released t ∧ Released t := by
  obtain ⟨e, ds, k, es, rfl⟩ := ht; exact ⟨h, h⟩

/-- TEARDOWN never waits, and however it ends the handle is closed (R165). -/
theorem tearDown_blockOk {s : State} (h : Released s) : BlockOk (finish .release (tearDown s)) := by
  have hends : Ends Released (fun _ => False) Released (tearDown s) :=
    ends_andThen (P := Released) (busWrite1_ends _ _ _ fun _ => released_transacted h)
      fun t ht => busWriteBlk_ends _ _ _ fun _ => released_transacted ht
  have ended {t : State} (o : OpOutcome) (ht : Released t) : BlockOk (endOperation .release o t) := by
    rw [endOperation_release]
    exact blockOk_closed rfl ht.1 rfl (by simp [ht.2])
  cases hr : tearDown s with
  | ok t => rw [hr] at hends; exact ended .ok hends
  | wait t => rw [hr] at hends; exact hends.elim
  | stop o t => rw [hr] at hends; exact ended o hends.2

/-- No transaction touches what the invariant speaks of. -/
theorem idleBlockOk_stable : StableTxn fun t => BlockOk t ∧ t.seq = .idle where
  draw s h := by unfold takeDraw; split <;> exact h
  event _ _ _ h := h

theorem finish_busOp_blockOk {r : Run} (h : Sat (fun t => BlockOk t ∧ t.seq = .idle) r) : BlockOk (finish .plain r) := by
  refine (finish_sat h fun o t ⟨hb, hs⟩ => ?_).1
  rw [endOperation_plain, ← hs]
  exact ⟨hb, rfl⟩

theorem exec_blockOk {i : Instr} {s t : State} (h : BlockOk s) (hx : exec i s = .next t) : BlockOk t := by
  rcases exec_cases i s t hx with ⟨rfl, -⟩ | ⟨-, why, rfl⟩ | ⟨c, rfl⟩ | ⟨bs, rfl⟩ | ⟨hs, -, -, hbus⟩ |
    ⟨hs, hp, addr, busid, -, -, rfl⟩ | ⟨hr, -, rfl⟩ | ⟨hr, -, u, js, hu, rfl, -⟩
  · exact h
  · exact h
  · exact h
  · exact h
  · have hat : ∀ cfg r, StableAt (fun t => BlockOk t ∧ t.seq = .idle) cfg r := fun _ _ _ _ _ ht => ht
    rcases hbus with ⟨r, v, -, rfl⟩ | ⟨r, bs, -, rfl⟩ | rfl
    · exact finish_busOp_blockOk (busWrite1_keeps idleBlockOk_stable r v s (hat _ _) ⟨h, hs⟩)
    · exact finish_busOp_blockOk (busWriteBlk_keeps idleBlockOk_stable r bs s (hat _ _) ⟨h, hs⟩)
    · exact finish_busOp_blockOk (busRead1_keeps idleBlockOk_stable _ s ⟨h, hs⟩ fun _ _ ht => ht)
  · exact finish_bringUp_blockOk (bringUp_ends ⟨⟨h.1, hp⟩, Option.some_ne_none _⟩)
  · exact tearDown_blockOk ⟨h.1, rfl⟩
  · exact finish_plain_blockOk (runJobs_live _ _ (live_prepared (live_of_ready h hr) hu))

theorem resumeOperation_blockOk {p : Poll} {s : State} (h : BlockOk s) (hs : s.seq = .polling p) :
    BlockOk (resumeOperation p s) := by
  obtain ⟨hc, hshadows, hposition, -⟩ := h
  obtain ⟨hlo, hhi, -, hd, hh, hphase⟩ := hposition p hs
  have hlive : Live p.op s := ⟨hc, hshadows (.inr ⟨p, hs⟩), hh, hphase⟩
  have hrun : LiveRun p.op (andThen (andThen (pollIterate p s) (sendJob p.job)) (runJobs p.op p.rest)) :=
    ends_andThen (ends_andThen (pollIterate_live p ⟨hlive, hd⟩ rfl hlo hhi) fun _ ht => sendJob_live _ ht)
      fun _ ht => runJobs_live _ _ ht
  unfold resumeOperation
  rcases hphase with ⟨hop, -⟩ | ⟨hop, -⟩ <;> rw [hop] at hrun ⊢
  · exact finish_bringUp_blockOk (ends_imp hrun (fun _ => id) fun _ => comingUp_of_live)
  · exact finish_plain_blockOk hrun

/-- Settles O53: a run of writes keeps the shadows in range and waits as a poll does, and each way an operation ends leaves the
handle open exactly in READY. -/
theorem blockInvariantKept : Obligations.BlockInvariantKept := by
  intro s t h hstep
  rcases step_cases s t hstep with ⟨p, hp, rfl⟩ | ⟨-, -, rfl⟩ | ⟨p, rest, -, -, ⟨i, -, hx⟩ | ⟨-, rfl⟩⟩
  · exact resumeOperation_blockOk h hp
  · exact h
  · exact exec_blockOk (s := { s with inbox := rest }) h hx
  · rcases rejectPacket_cases p.port { s with inbox := rest } with he | he <;> rw [he] <;> exact h

end Sys2Proof.Proofs.BlockInvariant

/-! PROOFS. The block's state (10_state.md): how an operation's run ends in the state it leaves: a bring-up that fails (R164), the
frame of the writing operations (R191), the direction bit (R39, R143). -/

namespace Sys2Proof.Proofs.OperationEnds

open Sys2Proof.Machine Sys2Proof.Safety Sys2Proof.Laws Sys2Proof.Proofs.RunEnds

/-! ## What the end of an operation shows -/

/-- What no run of an operation changes: the phase and what was reported (R26, R200). -/
structure SameReport (s t : State) : Prop where
  phase : t.phase = s.phase
  outcomes : t.outcomes = s.outcomes

theorem sameReport_stable (s : State) : Stable (SameReport s) where
  draw t h := ⟨by simp [h.phase], by simp [h.outcomes]⟩
  event _ _ _ h := ⟨h.phase, h.outcomes⟩
  out _ _ _ _ h := ⟨h.phase, h.outcomes⟩
  dir _ _ _ _ h := ⟨h.phase, h.outcomes⟩
  gpio _ _ h := ⟨h.phase, h.outcomes⟩
  ddrb _ _ h := ⟨h.phase, h.outcomes⟩
  seq _ _ h := ⟨h.phase, h.outcomes⟩

theorem bringUp_sameReport (s : State) : Sat (SameReport s) (bringUp s) :=
  bringUp_keeps (sameReport_stable s) (fun _ _ _ _ _ h => ⟨h.phase, h.outcomes⟩) (fun _ h => ⟨h.phase, h.outcomes⟩) s ⟨rfl, rfl⟩

/-- A run that is stopped is stopped with an error. -/
theorem moves_stop_error {s t : State} {o : OpOutcome} (h : Moves s (.stop o t)) : o ≠ .ok := by
  obtain ⟨-, -, new, -, ⟨n, rfl, -⟩ | ⟨x, before, rfl, -⟩⟩ := h <;> exact OpOutcome.noConfusion

/-- A bring-up that is over has made the block ready, or has reported an error and dropped the handle (R160, R164). -/
theorem finish_bringUp_over {s : State} {r : Run} (hm : Moves s r) (hk : Sat (SameReport s) r)
    (hi : (finish .bringUp r).seq = .idle) :
    ((finish .bringUp r).outcomes = s.outcomes ++ [.ok] ∧ (finish .bringUp r).phase = .ready ∧
      (finish .bringUp r).handle = s.handle) ∨
    ∃ o, o ≠ .ok ∧ (finish .bringUp r).outcomes = s.outcomes ++ [o] ∧ (finish .bringUp r).phase = s.phase ∧
      (finish .bringUp r).handle = none := by
  cases r with
  | ok t =>
    rw [finish_ok, endOperation_bringUp_ok, ← hk.outcomes]
    exact .inl ⟨rfl, rfl, hm.1⟩
  | wait t =>
    obtain ⟨-, ⟨p, hp⟩, -⟩ := hm
    rw [finish_wait, hp] at hi; cases hi
  | stop o t =>
    have ho := moves_stop_error hm
    rw [finish_stop, endOperation_bringUp_failed o ho, ← hk.outcomes]
    exact .inr ⟨o, ho, rfl, hk.phase, rfl⟩

/-- Settles O33: the run of INIT, at once or after polls, keeps phase and reports until its end, and its end is one of two. -/
theorem failedInitLeavesNoInstance : Obligations.FailedInitLeavesNoInstance := by
  refine ⟨fun addr busid s t hs hp ha hx hi => ?_, fun p s t hs hop hstep hi => ?_⟩
  · rw [Acceptance.exec_init_accepted busid hs hp ha] at hx
    injection hx with hx
    subst hx
    obtain h | ⟨o, ho, hout, hphase, hhandle⟩ := finish_bringUp_over (bringUp_moves _) (bringUp_sameReport _) hi
    · exact .inl h
    · exact .inr ⟨o, ho, hout, hphase.trans hp, hhandle⟩
  · rw [Acceptance.step_polling hs] at hstep
    injection hstep with hstep
    subst hstep
    unfold resumeOperation at hi ⊢
    have hm := resume_moves p s
    have hk := resume_keeps (sameReport_stable s) p s ⟨rfl, rfl⟩
    rw [hop] at hm hk hi ⊢
    exact finish_bringUp_over hm hk hi

/-! ## The frame of a writing operation -/

/-- However an operation of writes ends, the history has only grown. -/
theorem runPlain_history (js : List Job) (u : State) : u.history <+: (runPlain js u).history := by
  have hm := runJobs_moves .plain js u
  unfold runPlain
  cases hr : runJobs .plain js u with
  | ok v => rw [hr] at hm; obtain ⟨-, -, new, he, -⟩ := hm; exact ⟨new, he.symm⟩
  | wait v => rw [hr] at hm; obtain ⟨-, -, new, he, -⟩ := hm; exact ⟨new, he.symm⟩
  | stop o v => rw [hr] at hm; obtain ⟨-, -, new, he, -⟩ := hm; exact ⟨new, he.symm⟩

/-- What an operation of writes leaves of the state it starts from, but for what it reports. -/
theorem runPlain_frame (js : List Job) (u : State) :
    let t := runPlain js u
    t.cfg = u.cfg ∧ t.phase = u.phase ∧ t.handle = u.handle ∧ t.inbox = u.inbox ∧ t.result = u.result ∧
      t.displaycontrol = u.displaycontrol ∧ t.displaymode = u.displaymode ∧ t.displayshift = u.displayshift ∧
      u.outcomes <+: t.outcomes := by
  obtain ⟨v, hv, ⟨p, -, he⟩ | ⟨o, he⟩⟩ := runPlain_cases js u <;> rw [he]
  · exact ⟨hv.cfg, hv.phase, hv.handle, hv.inbox, hv.result, hv.displaycontrol, hv.displaymode, hv.displayshift, [],
      by rw [hv.outcomes, List.append_nil]⟩
  · exact ⟨hv.cfg, hv.phase, hv.handle, hv.inbox, hv.result, hv.displaycontrol, hv.displaymode, hv.displayshift, [o],
      by rw [hv.outcomes]⟩

/-- A change of shadows leaves the rest. -/
theorem prepared_keeps {i : Instr} {s u : State} (h : Prepared i s u) :
    u.cfg = s.cfg ∧ u.phase = s.phase ∧ u.handle = s.handle ∧ u.inbox = s.inbox ∧ u.result = s.result ∧
      u.history = s.history ∧ u.outcomes = s.outcomes := by
  rw [h.eq]; exact ⟨rfl, rfl, rfl, rfl, rfl, rfl, rfl⟩

/-- A display-control operation of the table of R192 is one command write. -/
theorem writesOf_oneCommand {i : Instr} {c : Byte} {s s' : State} (h : oneCommand s i = some (c, s')) :
    writesOf s i = some (s', [cmdJob c]) := by
  cases i
  case init | teardown | writeCmd | writeData | setCursor | defineGlyph | writeText | busWrite1 | busWriteBlk | busRead1 |
      encodeNybbles | ctlSetDdram | ctlSetCgram | ctlFunctionSet | ctlShift | ctlDisplayControl | ctlEntryMode | ctlHome |
      ctlClear => cases h
  all_goals exact congrArg (Option.map fun r : Byte × State => (r.2, [cmdJob r.1])) h

/-- In READY the operation's own shadow is new however it ends (R191). -/
theorem exec_shadows {i : Instr} {c : Byte} {s s' t : State} (h : oneCommand s i = some (c, s')) (hr : Ready s)
    (hx : exec i s = .next t) :
    t.displaycontrol = s'.displaycontrol ∧ t.displaymode = s'.displaymode ∧ t.displayshift = s'.displayshift := by
  rw [exec_writesOf i s s' _ (writesOf_oneCommand h) hr] at hx
  injection hx with hx
  obtain ⟨-, -, -, -, -, hcontrol, hmode, hshift, -⟩ := runPlain_frame [cmdJob c] s'
  exact hx ▸ ⟨hcontrol, hmode, hshift⟩

/-- Settles O48: such an operation does nothing, refuses, or is a run of writes after a change of its own shadow at most. -/
theorem frameOfWritingOperations : Obligations.FrameOfWritingOperations := by
  intro i s t hi hx
  have hown : ∀ c s', oneCommand s i = some (c, s') → Ready s → _ := fun c s' h hr => exec_shadows h hr hx
  rcases exec_writing i s t hi hx with ⟨rfl, -⟩ | ⟨-, why, rfl⟩ | ⟨-, u, js, hu, rfl, -⟩
  · exact ⟨rfl, rfl, rfl, rfl, rfl, fun _ => rfl, fun _ => rfl, fun _ => rfl, hown, List.prefix_rfl, List.prefix_rfl⟩
  · exact ⟨rfl, rfl, rfl, rfl, rfl, fun _ => rfl, fun _ => rfl, fun _ => rfl, hown, List.prefix_rfl, List.prefix_append _ _⟩
  · obtain ⟨hcfg, hphase, hhandle, hinbox, hresult, hcontrol, hmode, hshift, hout⟩ := runPlain_frame js u
    have hhist := runPlain_history js u
    obtain ⟨ecfg, ephase, ehandle, einbox, eresult, ehist, eout⟩ := prepared_keeps hu
    exact ⟨hcfg.trans ecfg, hphase.trans ephase, hhandle.trans ehandle, hinbox.trans einbox, hresult.trans eresult,
      fun h => hcontrol.trans (hu.control h), fun h => hmode.trans (hu.mode h), fun h => hshift.trans (hu.shift h), hown,
      ehist ▸ hhist, eout ▸ hout⟩

/-! ## The direction bit -/

/-- `t` has the configuration of `s`, and the direction shadow `d`. -/
def DirIs (s : State) (d : Byte) (t : State) : Prop := t.cfg = s.cfg ∧ t.ddrb = d

/-- Writes to the output register leave the direction shadow. -/
theorem dirIs_stable (s : State) (d : Byte) : StableOut (DirIs s d) where
  draw t h := ⟨(takeDraw_cfg t).trans h.1, (takeDraw_ddrb t).trans h.2⟩
  event _ _ _ h := h
  out _ _ _ _ h := h
  gpio _ _ h := h

theorem busWrite1_dirIs {s t : State} {d : Byte} (r : Nat) (v : Byte) (h : DirIs s d t) : OkIn (DirIs s d) (busWrite1 r v t) :=
  okIn_of_sat (busWrite1_keeps (dirIs_stable s d).toStableTxn r v t (fun _ _ _ h => h) h)

theorem busWriteBlk_dirIs {s t : State} {d : Byte} (r : Nat) (bs : List Byte) (h : DirIs s d t) :
    OkIn (DirIs s d) (busWriteBlk r bs t) :=
  okIn_of_sat (busWriteBlk_keeps (dirIs_stable s d).toStableTxn r bs t (fun _ _ _ h => h) h)

theorem busRead1_okIn {s t : State} {d : Byte} {P : State → Prop} {k : Byte → State → Run} (h : DirIs s d t)
    (hk : ∀ b u, DirIs s d u → OkIn P (k b u)) : OkIn P (busRead1 t k) := by
  have hd := (dirIs_stable s d).draw t h
  unfold busRead1
  split <;> rename_i heq
  · rw [heq] at hd; exact hk _ _ hd
  · exact trivial

/-- A poll that is over has cleared the direction bit (R133). -/
theorem pollIterate_dir {s t : State} {d : Byte} (p : Poll) (h : DirIs s d t) :
    OkIn (DirIs s (d &&& ~~~s.cfg.busyDir)) (pollIterate p t) := by
  refine okIn_andThen (busWrite1_dirIs _ _ h) fun t ht => busRead1_okIn (s := s) (d := d) ht fun b u hu => ?_
  refine okIn_andThen (busWriteBlk_dirIs _ _ hu) fun w ⟨hc, hd⟩ => ?_
  split
  · split <;> exact trivial
  · exact busWrite1_dirIs _ _ ⟨hc, by rw [hc, hd]⟩

/-- The configuration of `s`, and NORMAL. -/
def NormalAs (s t : State) : Prop := t.cfg = s.cfg ∧ InNormal t

theorem normalAs_of_cleared {s t : State} {d : Byte} (h : DirIs s (d &&& ~~~s.cfg.busyDir) t) : NormalAs s t := by
  obtain ⟨hc, hd⟩ := h
  refine ⟨hc, ?_⟩
  rw [InNormal, hc, hd, BitVec.and_assoc]; simp

/-- After step 1 of a write the block is in NORMAL (R131). -/
theorem pollIfPending_normalAs (op : OpKind) (j : Job) (js : List Job) (s : State) :
    OkIn (NormalAs s) (pollIfPending op j js s) := by
  by_cases hn : InNormal s
  · rw [pollIfPending_normal op j js s hn]
    exact ⟨rfl, hn⟩
  · rw [pollIfPending_pending op j js s hn]
    refine okIn_andThen (busWrite1_dirIs (s := s) (d := s.ddrb) _ _ ⟨rfl, rfl⟩) fun t ht => ?_
    exact okIn_imp (pollIterate_dir (s := s) (d := s.ddrb) _ ht) fun _ => normalAs_of_cleared

/-- The configuration of `s`, and the direction bit set exactly if `b`. -/
def PendingAs (s : State) (b : Bool) (t : State) : Prop := t.cfg = s.cfg ∧ (InPending t ↔ b = true)

/-- Steps 2 to 4 of a write in NORMAL set the direction bit exactly if the write re-arms (R137). -/
theorem sendJob_pendingAs {s t : State} (j : Job) (hb : s.cfg.busyDir ≠ 0) (h : NormalAs s t) :
    OkIn (PendingAs s (rearms s.cfg j)) (sendJob j t) := by
  obtain ⟨hc, hn⟩ := h
  rw [InNormal, hc] at hn
  have hflush := flushAll_keeps (dirIs_stable s t.ddrb)
    (blockChunks (j.vals.flatMap (enc t.cfg (controlMask t.cfg t.gpio j.isData)))) t ⟨hc, rfl⟩
  rw [sendJob, sendValues_blocks]
  refine okIn_andThen (okIn_of_sat hflush) fun u ⟨hcu, hdu⟩ => ?_
  unfold rearm
  split <;> rename_i hr <;> rw [hcu] at hr
  · refine okIn_imp (busWrite1_dirIs (s := s) (d := t.ddrb ||| s.cfg.busyDir) _ _ ⟨hcu, by rw [hdu, hcu]⟩)
      fun v ⟨hcv, hdv⟩ => ⟨hcv, ?_⟩
    have hset : (t.ddrb ||| s.cfg.busyDir) &&& s.cfg.busyDir = s.cfg.busyDir := by
      ext i; simp; cases t.ddrb[i] <;> simp
    rw [InPending, hcv, hdv, hset]
    exact iff_of_true hb hr
  · refine ⟨hcu, ?_⟩
    rw [InPending, hcu, hdu]
    exact iff_of_false (fun h => h hn) hr

/-- Whether the last of some writes re-arms. -/
def lastRearms (cfg : Params) (j : Job) : List Job → Bool
  | [] => rearms cfg j
  | k :: ks => lastRearms cfg k ks

/-- Writes one after another, the first past its poll, leave POLL_PENDING exactly if the last one re-arms (R143). -/
theorem sendThenRun_pendingAs {s t : State} (op : OpKind) (j : Job) (js : List Job) (hb : s.cfg.busyDir ≠ 0) (h : NormalAs s t) :
    OkIn (PendingAs s (lastRearms s.cfg j js)) (andThen (sendJob j t) (runJobs op js)) := by
  induction js generalizing j t with
  | nil => exact okIn_andThen (sendJob_pendingAs j hb h) fun _ => id
  | cons k ks ih =>
    refine okIn_andThen (sendJob_pendingAs j hb h) fun u ⟨hc, _⟩ => ?_
    rw [runJobs, andThen_assoc]
    exact okIn_andThen (pollIfPending_normalAs op k ks u) fun v ⟨hcv, hn⟩ => ih k ⟨hcv.trans hc, hn⟩

theorem runJobs_pendingAs {s : State} (op : OpKind) (j : Job) (js : List Job) (hb : s.cfg.busyDir ≠ 0) :
    OkIn (PendingAs s (lastRearms s.cfg j js)) (runJobs op (j :: js) s) := by
  rw [runJobs, andThen_assoc]
  exact okIn_andThen (pollIfPending_normalAs op j js s) fun _ h => sendThenRun_pendingAs op j js hb h

/-- A poll that goes on, the write that waited, and the writes after it. -/
theorem resume_pendingAs (p : Poll) (s : State) (hb : s.cfg.busyDir ≠ 0) :
    OkIn (PendingAs s (lastRearms s.cfg p.job p.rest))
      (andThen (andThen (pollIterate p s) (sendJob p.job)) (runJobs p.op p.rest)) := by
  rw [andThen_assoc]
  exact okIn_andThen (pollIterate_dir (s := s) (d := s.ddrb) p ⟨rfl, rfl⟩)
    fun _ h => sendThenRun_pendingAs p.op p.job p.rest hb (normalAs_of_cleared h)

/-! ### The last write of an operation -/

theorem rearms_iff (cfg : Params) (j : Job) : rearms cfg j = true ↔ ∃ c, j = ⟨[c], false⟩ ∧ isPollable cfg c = true := by
  refine ⟨fun h => ?_, ?_⟩
  · obtain ⟨vals, isData⟩ := j
    match isData, vals, h with
    | false, [c], h => exact ⟨c, rfl, h⟩
  · rintro ⟨c, rfl, h⟩; exact h

theorem lastRearms_iff (cfg : Params) (j : Job) (js : List Job) :
    lastRearms cfg j js = true ↔ ∃ c, (j :: js).getLast? = some ⟨[c], false⟩ ∧ isPollable cfg c = true := by
  induction js generalizing j with
  | nil => simpa [lastRearms] using rearms_iff cfg j
  | cons k ks ih => rw [lastRearms, ih k, List.getLast?_cons_cons]

theorem lastRearms_of_none {cfg : Params} {j : Job} {js : List Job} (h : ∀ k ∈ j :: js, rearms cfg k = false) :
    lastRearms cfg j js = false := by
  induction js generalizing j with
  | nil => exact h j List.mem_cons_self
  | cons k ks ih => exact ih fun l hl => h l (List.mem_cons_of_mem _ hl)

/-- The command of an operation of the table of R192 is pollable for CLEAR and HOME only. -/
theorem oneCommand_pollable {i : Instr} {c : Byte} {s s' : State} (hc : DefaultEncodings s.cfg)
    (h : oneCommand s i = some (c, s')) : isPollable s.cfg c = endsPending s.cfg i := by
  cases i <;> simp only [oneCommand, Option.some.injEq, Prod.mk.injEq, reduceCtorEq] at h <;> obtain ⟨rfl, -⟩ := h
  case clear => simp [isPollable, endsPending, default_pollable hc]
  case home => simp [isPollable, endsPending, default_pollable hc, default_cmdHome hc]
  case displayOn | displayOff | cursorOn | cursorOff | blinkOn | blinkOff | toggleCursor | toggleBlink =>
    exact not_pollable hc _ (bit_or _ _ (by rw [default_cmdDisplay hc]; decide))
  case scrollLeft | scrollRight => exact not_pollable hc _ (bit_or _ _ (by rw [default_cmdShift hc]; decide))
  case leftToRight | rightToLeft | autoscrollOn | autoscrollOff =>
    exact not_pollable hc _ (bit_or _ _ (by rw [default_cmdEntry hc]; decide))

theorem splitLines_ne_nil (newline : Byte) (text : List Byte) : splitLines newline text ≠ [] := by
  cases text with
  | nil => exact List.cons_ne_nil _ _
  | cons b bs =>
    rw [splitLines]
    split
    · exact List.cons_ne_nil _ _
    · split <;> exact List.cons_ne_nil _ _

theorem textJobs_ne_nil (cfg : Params) (text : List Byte) : textJobs cfg text ≠ [] := by
  unfold textJobs
  split
  · rename_i h; exact absurd h (splitLines_ne_nil _ _)
  · exact List.cons_ne_nil _ _

/-- The writes of an operation are one or more, and the last re-arms exactly for the operations that end in POLL_PENDING. -/
theorem writesOf_lastRearms {i : Instr} {s s' : State} {jobs : List Job} (hc : DefaultEncodings s.cfg)
    (h : writesOf s i = some (s', jobs)) : ∃ j js, jobs = j :: js ∧ lastRearms s.cfg j js = endsPending s.cfg i := by
  have oneCommandCase (h : (oneCommand s i).map (fun r : Byte × State => (r.2, [cmdJob r.1])) = some (s', jobs)) :
      ∃ j js, jobs = j :: js ∧ lastRearms s.cfg j js = endsPending s.cfg i := by
    obtain ⟨⟨c, u⟩, hone, heq⟩ := Option.map_eq_some_iff.1 h
    injection heq with _ hjobs
    exact ⟨_, _, hjobs.symm, oneCommand_pollable hc hone⟩
  cases i
  case writeCmd c => cases h; exact ⟨_, _, rfl, rfl⟩
  case writeData bs => cases h; exact ⟨_, _, rfl, rearms_data _ _⟩
  case setCursor col row =>
    rw [writesOf] at h
    split at h
    · cases h
      exact ⟨_, _, rfl, not_pollable hc _ (bit_or _ _ (by rw [default_cmdSetDdram hc]; decide))⟩
    · cases h
  case defineGlyph slot bm =>
    rw [writesOf] at h
    split at h
    · cases h
      exact ⟨_, _, rfl, not_pollable hc _ (by rw [default_cmdSetDdram hc]; decide)⟩
    · cases h
  case writeText text =>
    cases h
    obtain ⟨j, js, hj⟩ := List.exists_cons_of_ne_nil (textJobs_ne_nil s.cfg text)
    exact ⟨j, js, hj, lastRearms_of_none (hj ▸ textJobs_rearms hc text)⟩
  all_goals exact oneCommandCase h

/-- A writing operation that is admitted is a run of its writes or refuses its operands. -/
theorem exec_writesOf_or_refused {i : Instr} {s : State} (hi : writesOnly i = true) (hr : Ready s) :
    (∃ s' js, writesOf s i = some (s', js)) ∨ ∃ why, exec i s = .next (refusedAs why s) := by
  cases i <;> simp only [writesOnly, Bool.false_eq_true] at hi
  case setCursor col row =>
    by_cases h : ddramAddress s.cfg col row ≤ 0x7F
    · exact .inl ⟨_, _, if_pos h⟩
    · exact .inr ⟨.columnRange, congrArg Host.Outcome.next ((whenReady_ready _ s hr).trans (if_neg h))⟩
  case defineGlyph slot bm =>
    by_cases h : slot.toNat ≤ 7 ∧ bm.length = 8
    · exact .inl ⟨_, _, if_pos h⟩
    · exact .inr ⟨.glyphRange, congrArg Host.Outcome.next ((whenReady_ready _ s hr).trans (if_neg h))⟩
  all_goals exact .inl ⟨_, _, rfl⟩

/-! ### The two statements' common end -/

theorem endOperation_ok_ddrb (op : OpKind) (s : State) : (endOperation op .ok s).ddrb = s.ddrb := by
  cases op <;> rfl

/-- An operation that reports `Ok` ends as its run went on: in POLL_PENDING exactly if its last write re-arms. -/
theorem finish_pendingAs {op : OpKind} {r : Run} {s : State} {b : Bool} (hm : Moves s r) (hk : Sat (SameReport s) r)
    (hp : OkIn (PendingAs s b) r) (ho : (finish op r).outcomes = s.outcomes ++ [.ok]) :
    InPending (finish op r) ↔ b = true := by
  cases r with
  | ok t =>
    rw [finish_ok, InPending, endOperation_cfg, endOperation_ok_ddrb]
    exact hp.2
  | wait t =>
    rw [finish_wait, hk.outcomes] at ho
    simp at ho
  | stop o t =>
    rw [finish_stop, endOperation_outcomes, hk.outcomes] at ho
    exact absurd (List.cons.inj (List.append_cancel_left ho)).1 (moves_stop_error hm)

theorem default_busyDir_ne_zero {cfg : Params} (h : DefaultEncodings cfg) : cfg.busyDir ≠ 0 := by
  rw [default_busyDir h]; decide

/-- Settles O51: only a poll's end clears the direction bit and only step 4 of a write sets it, so the last write decides. -/
theorem directionBitTellsTheLastWrite : Obligations.DirectionBitTellsTheLastWrite := by
  refine ⟨fun i s t hi hr hc hx ho => ?_, fun p s t hs hc hstep ho => ?_⟩
  · obtain ⟨s', jobs, hw⟩ | ⟨why, hrefused⟩ := exec_writesOf_or_refused hi hr
    · obtain ⟨j, js, rfl, hlast⟩ := writesOf_lastRearms hc hw
      obtain ⟨ecfg, -, -, -, eout, -⟩ := writesOf_keeps i s s' _ hw
      rw [exec_writesOf i s s' _ hw hr] at hx
      injection hx with hx
      subst hx
      have hpend := runJobs_pendingAs (s := s') .plain j js (by rw [ecfg]; exact default_busyDir_ne_zero hc)
      rw [ecfg, hlast] at hpend
      exact finish_pendingAs (runJobs_moves .plain (j :: js) s')
        (runJobs_keeps (sameReport_stable s') .plain (j :: js) s' ⟨rfl, rfl⟩) hpend (eout ▸ ho)
    · rw [hrefused] at hx
      injection hx with hx
      subst hx
      exact absurd (List.cons.inj (List.append_cancel_left ho)).1 OpOutcome.noConfusion
  · rw [Acceptance.step_polling hs] at hstep
    injection hstep with hstep
    subst hstep
    rw [← lastRearms_iff]
    exact finish_pendingAs (resume_moves p s) (resume_keeps (sameReport_stable s) p s ⟨rfl, rfl⟩)
      (resume_pendingAs p s (default_busyDir_ne_zero hc)) ho

end Sys2Proof.Proofs.OperationEnds

/-! PROOFS. The block's state (10_state.md): the bring-up with a device that is not busy (R37, R160 to R162). -/

namespace Sys2Proof.Proofs.BringUp

open Sys2Proof.Machine Sys2Proof.Safety Sys2Proof.Laws

/-! ## Part 1, the register load -/

/-- The register load of INIT under the handle `h`, its transactions completed. -/
theorem registerLoad_done {bytes : List Byte} {rest : List Draw} {s : State} (h : Handle) (hlen : 3 ≤ bytes.length)
    (hd : DrawsOk bytes rest s) : registerLoad { s with handle := some h } = .ok (loaded h s) := by
  match bytes, hlen with
  | x0 :: x1 :: x2 :: bytes, _ =>
    have load {u : State} (hu : DrawsOk (x0 :: x1 :: x2 :: bytes) rest u) :
        registerLoad u = .ok (loadShadows (wrote (.w1 u.cfg.regs.config u.cfg.cfgNonseq) u.cfg.regs.config [u.cfg.cfgNonseq]
          (wrote (.wb 0 (safeRegs u.cfg)) 0 (safeRegs u.cfg)
            (wrote (.w1 u.cfg.regs.config u.cfg.cfgSeq) u.cfg.regs.config [u.cfg.cfgSeq] u)))) := by
      have h1 := drawsOk_tail hu (wrote_draws (.w1 u.cfg.regs.config u.cfg.cfgSeq) u.cfg.regs.config [u.cfg.cfgSeq] u)
      have h2 := drawsOk_tail h1 (wrote_draws (.wb 0 (safeRegs u.cfg)) 0 (safeRegs u.cfg) _)
      rw [registerLoad, busWrite1_done (drawsOk_cons hu), andThen_ok, wrote_cfg,
        busWriteBlk_one 0 (safeRegs u.cfg) _ (by simp [safeRegs]) (by simp [safeRegs, blockMax]),
        busWriteChunk_done (drawsOk_cons h1), andThen_ok, wrote_cfg, wrote_cfg, busWrite1_done (drawsOk_cons h2), andThen_ok]
    exact load (u := { s with handle := some h }) hd

/-- The three transactions of the register load. -/
def loadTrace (h : Option Handle) : List Event :=
  [⟨h, .w1 5 0x00, .done⟩, ⟨h, .wb 0 (safeRegs paramsDefault), .done⟩, ⟨h, .w1 5 0x20, .done⟩]

theorem loaded_history (h : Handle) {s : State} (hc : DefaultEncodings s.cfg) : (loaded h s).history =
    s.history ++ loadTrace (some h) := by
  simp [loadTrace, loaded, default_regs hc, regNumbersDefault, default_cfgSeq hc, default_cfgNonseq hc, default_safeRegs hc]

/-- The eight bytes of the bring-up (R162). -/
theorem bringUpJobs_loaded (h : Handle) {s : State} (hc : DefaultEncodings s.cfg) : bringUpJobs (loaded h s) =
    [cmdJob 0x33, cmdJob 0x32, cmdJob 0x28, cmdJob 0x01, cmdJob 0x14, cmdJob 0x06, cmdJob 0x0C, cmdJob 0x02] := by
  show [cmdJob cmdInit1, cmdJob cmdInit2, cmdJob (s.cfg.cmdFunction ||| s.cfg.flag2Line), cmdJob cmdClear,
    cmdJob (s.cfg.cmdShift ||| s.cfg.shiftInit), cmdJob (s.cfg.cmdEntry ||| s.cfg.modeInit),
    cmdJob (s.cfg.cmdDisplay ||| s.cfg.ctrlInit), cmdJob s.cfg.cmdHome] = _
  rw [default_cmdFunction hc, default_flag2Line hc, default_cmdShift hc, default_shiftInit hc, default_cmdEntry hc,
    default_modeInit hc, default_cmdDisplay hc, default_ctrlInit hc, default_cmdHome hc]
  rfl

/-! ## Part 2, twice a poll and four commands -/

/-- After a poll that is over at its first read, three commands that are not pollable, and one that is. -/
def burst (b c1 c2 c3 c4 : Byte) (s : State) : State :=
  sentPollable c4 (sentCommand c3 (sentCommand c2 (sentCommand c1 (polled b s))))

/-- The five transactions of a poll that is over at its first read, the shared bit being 0. -/
def pollTrace (h : Option Handle) (b : Byte) : List Event :=
  [⟨h, .w1 9 0x40, .done⟩, ⟨h, .w1 9 0x60, .done⟩, ⟨h, .r1, .byte b⟩, ⟨h, .wb 9 [0x40, 0x60, 0x40], .done⟩, ⟨h, .w1 0 0x00, .done⟩]

/-- The transaction of a command byte, the shared bit being 0. -/
def quadEvent (h : Option Handle) (c : Byte) : Event := ⟨h, .wb 9 (enc paramsDefault 0x00 c), .done⟩

/-- The ten transactions of a burst. -/
def burstTrace (h : Option Handle) (b c1 c2 c3 c4 : Byte) : List Event :=
  pollTrace h b ++ [quadEvent h c1, quadEvent h c2, quadEvent h c3, quadEvent h c4, ⟨h, .w1 0 0x02, .done⟩]

theorem runJobs_burst (op : OpKind) (js : List Job) {b c1 c2 c3 c4 : Byte} {bytes : List Byte} {rest : List Draw} {s : State}
    (hp : InPending s) (hb : busyFlag b = false) (h1 : isPollable s.cfg c1 = false) (h2 : isPollable s.cfg c2 = false)
    (h3 : isPollable s.cfg c3 = false) (h4 : isPollable s.cfg c4 = true)
    (hlen : 10 ≤ bytes.length) (hread : bytes[2]? = some b) (hd : DrawsOk bytes rest s) :
    runJobs op (cmdJob c1 :: cmdJob c2 :: cmdJob c3 :: cmdJob c4 :: js) s = runJobs op js (burst b c1 c2 c3 c4 s) := by
  match bytes, hlen with
  | x0 :: x1 :: x2 :: x3 :: x4 :: y1 :: y2 :: y3 :: y4 :: y5 :: bytes, _ =>
    obtain rfl : x2 = b := Option.some.inj hread
    have hn1 : InNormal (sentCommand c1 (polled x2 s)) := sentCommand_normal _ _ (polled_normal x2 s)
    have hn2 := sentCommand_normal c2 _ hn1
    have hn3 := sentCommand_normal c3 _ hn2
    have hd1 : DrawsOk (y1 :: y2 :: y3 :: y4 :: y5 :: bytes) rest (polled x2 s) := drawsOk_drop 5 hd (by simp) (by simp)
    have hd2 := drawsOk_tail hd1 (sentCommand_draws c1 _)
    have hd3 := drawsOk_tail hd2 (sentCommand_draws c2 _)
    have hd4 := drawsOk_tail hd3 (sentCommand_draws c3 _)
    rw [runJobs_polled op _ _ x0 x1 x2 x3 x4 _ rest s hp hb hd,
      sendJob_command c1 y1 _ rest _ (by simpa using h1) hd1, andThen_ok, runJobs_normal op _ _ _ hn1,
      sendJob_command c2 y2 _ rest _ (by simpa using h2) hd2, andThen_ok, runJobs_normal op _ _ _ hn2,
      sendJob_command c3 y3 _ rest _ (by simpa using h3) hd3, andThen_ok, runJobs_normal op _ _ _ hn3,
      sendJob_pollable c4 y4 y5 _ rest _ (by simpa using h4) hd4, andThen_ok]
    rfl

/-- `t` is `s` after `n` transactions recorded as `es`, with the values `g` and `d` of `gpio` and `ddrb`. -/
def SentFrom (s : State) (g d : Byte) (n : Nat) (es : List Event) (t : State) : Prop :=
  ∃ e, t = { s with gpio := g, ddrb := d, env := e, draws := s.draws.drop n, history := s.history ++ es }

theorem sentFrom_poll {s t : State} {g : Byte} {n : Nat} {es : List Event} (b : Byte) (hc : DefaultEncodings s.cfg)
    (hg : g &&& shared = 0) (h : SentFrom s g 0x02 n es t) :
    SentFrom s 0x40 0x00 (n + 5) (es ++ pollTrace s.handle b) (polled b t) := by
  obtain ⟨e, he⟩ := h
  refine ⟨(polled b t).env, ?_⟩
  simp [pollTrace, he, polled, pollEntered, iterated, wroteDir, wroteBlock, gotByte, wroteOut, wrote, hg, strobe,
    default_readbackBit hc, default_regOut hc, default_busyDir hc, default_regs hc, regNumbersDefault]

theorem sentFrom_command {s t : State} {g d : Byte} {n : Nat} {es : List Event} (c : Byte) (hc : DefaultEncodings s.cfg)
    (hg : g &&& shared = 0) (h : SentFrom s g d n es t) :
    SentFrom s (place4 .straight (lowNybble c)) d (n + 1) (es ++ [quadEvent s.handle c]) (sentCommand c t) := by
  obtain ⟨e, he⟩ := h
  refine ⟨(sentCommand c t).env, ?_⟩
  simp [quadEvent, he, sentCommand, sentQuad, wroteBlock, wrote, hg, default_regOut hc, default_order hc, default_enc hc]

theorem sentFrom_setDir {s t : State} {g : Byte} {n : Nat} {es : List Event} (hc : DefaultEncodings s.cfg)
    (h : SentFrom s g 0x00 n es t) :
    SentFrom s g 0x02 (n + 1) (es ++ [⟨s.handle, .w1 0 0x02, .done⟩]) (wroteDir (t.ddrb ||| t.cfg.busyDir) t) := by
  obtain ⟨e, he⟩ := h
  refine ⟨(wroteDir (t.ddrb ||| t.cfg.busyDir) t).env, ?_⟩
  simp [he, wroteDir, wrote, default_busyDir hc, default_regs hc, regNumbersDefault]

theorem sentFrom_burst {s t : State} {g : Byte} {n : Nat} {es : List Event} (b c1 c2 c3 c4 : Byte) (hc : DefaultEncodings s.cfg)
    (hg : g &&& shared = 0) (h : SentFrom s g 0x02 n es t) :
    SentFrom s (place4 .straight (lowNybble c4)) 0x02 (n + 10) (es ++ burstTrace s.handle b c1 c2 c3 c4)
      (burst b c1 c2 c3 c4 t) := by
  have hclean (c : Byte) : place4 .straight (lowNybble c) &&& shared = 0 := BlockInvariant.place4_shared _ _
  have h1 := sentFrom_command c1 hc (by decide) (sentFrom_poll b hc hg h)
  have h4 := sentFrom_command c4 hc (hclean c3) (sentFrom_command c3 hc (hclean c2) (sentFrom_command c2 hc (hclean c1) h1))
  have h5 := sentFrom_setDir hc h4
  simp only [List.append_assoc] at h5
  exact h5

theorem sentFrom_draws {s t : State} {g d : Byte} {n : Nat} {es : List Event} (h : SentFrom s g d n es t) :
    t.draws = s.draws.drop n := by
  obtain ⟨e, rfl⟩ := h; rfl

theorem sentFrom_cfg {s t : State} {g d : Byte} {n : Nat} {es : List Event} (h : SentFrom s g d n es t) : t.cfg = s.cfg := by
  obtain ⟨e, rfl⟩ := h; rfl

theorem sentFrom_pending {s t : State} {g : Byte} {n : Nat} {es : List Event} (hc : DefaultEncodings s.cfg)
    (h : SentFrom s g 0x02 n es t) : InPending t := by
  obtain ⟨e, rfl⟩ := h
  have hdir := default_busyDir hc
  show (0x02 : Byte) &&& s.cfg.busyDir ≠ 0
  rw [hdir]; decide

/-! ## The whole of INIT -/

theorem pollable_of_default {cfg : Params} (hc : DefaultEncodings cfg) {c : Byte} (h : c = 0x01 ∨ c = 0x02) :
    isPollable cfg c = true := by
  rw [isPollable, default_pollable hc]; rcases h with rfl | rfl <;> decide

/-- After the register load the block polls before its first write (R161). -/
theorem sentFrom_loaded (h : Handle) {s : State} (hc : DefaultEncodings s.cfg) :
    SentFrom (loaded h s) 0x00 0x02 0 [] (loaded h s) :=
  ⟨(loaded h s).env, by simp [loaded, default_ddrInit hc]⟩

/-- The first four bytes of the bring-up, and all eight. -/
def firstBurst (b1 : Byte) (t : State) : State := burst b1 0x33 0x32 0x28 0x01 t

def bothBursts (b1 b2 : Byte) (t : State) : State := burst b2 0x14 0x06 0x0C 0x02 (firstBurst b1 t)

theorem sentFrom_firstBurst (b1 : Byte) (h : Handle) {s : State} (hc : DefaultEncodings s.cfg) :
    SentFrom (loaded h s) 0x02 0x02 10 (burstTrace (some h) b1 0x33 0x32 0x28 0x01) (firstBurst b1 (loaded h s)) :=
  sentFrom_burst (s := loaded h s) b1 _ _ _ _ hc (by decide) (sentFrom_loaded h hc)

theorem sentFrom_bothBursts (b1 b2 : Byte) (h : Handle) {s : State} (hc : DefaultEncodings s.cfg) :
    SentFrom (loaded h s) 0x04 0x02 20
      (burstTrace (some h) b1 0x33 0x32 0x28 0x01 ++ burstTrace (some h) b2 0x14 0x06 0x0C 0x02)
      (bothBursts b1 b2 (loaded h s)) :=
  sentFrom_burst (s := loaded h s) b2 _ _ _ _ hc (by decide) (sentFrom_firstBurst b1 h hc)

/-- The bring-up, its transactions completed and no read busy, is a register load and two bursts. -/
theorem bringUp_done {b1 b2 : Byte} {bytes : List Byte} {rest : List Draw} {s : State} (h : Handle) (hc : DefaultEncodings s.cfg)
    (hd : DrawsOk bytes rest s) (hlen : bytes.length = 23) (h1 : bytes[5]? = some b1) (h2 : bytes[15]? = some b2)
    (hb1 : busyFlag b1 = false) (hb2 : busyFlag b2 = false) :
    bringUp { s with handle := some h } = .ok (bothBursts b1 b2 (loaded h s)) := by
  have slow {cfg : Params} (hcfg : DefaultEncodings cfg) {c : Byte} (hne : c &&& 0xFC ≠ 0) : isPollable cfg c = false :=
    not_pollable hcfg c hne
  have hloaded := sentFrom_loaded h hc
  have hfirst := sentFrom_firstBurst b1 h hc
  have hc1 : DefaultEncodings (loaded h s).cfg := hc
  have hc2 : DefaultEncodings (firstBurst b1 (loaded h s)).cfg := by rw [sentFrom_cfg hfirst]; exact hc
  have hd1 := drawsOk_drop (t := loaded h s) 3 hd (by omega) (loaded_draws h s)
  have hd2 := drawsOk_drop 10 hd1 (by rw [List.length_drop]; omega) (sentFrom_draws hfirst)
  have firstRun : runJobs .bringUp _ (loaded h s) = runJobs .bringUp _ (firstBurst b1 (loaded h s)) :=
    runJobs_burst (c1 := 0x33) (c2 := 0x32) (c3 := 0x28) (c4 := 0x01) .bringUp
      [cmdJob 0x14, cmdJob 0x06, cmdJob 0x0C, cmdJob 0x02] (sentFrom_pending hc1 hloaded) hb1
      (slow hc1 (by decide)) (slow hc1 (by decide)) (slow hc1 (by decide)) (pollable_of_default hc1 (.inl rfl))
      (by rw [List.length_drop]; omega) (by rw [List.getElem?_drop]; exact h1) hd1
  have secondRun : runJobs .bringUp _ (firstBurst b1 (loaded h s)) = .ok (bothBursts b1 b2 (loaded h s)) :=
    runJobs_burst (c1 := 0x14) (c2 := 0x06) (c3 := 0x0C) (c4 := 0x02) .bringUp [] (sentFrom_pending hc1 hfirst) hb2
      (slow hc2 (by decide)) (slow hc2 (by decide)) (slow hc2 (by decide)) (pollable_of_default hc2 (.inr rfl))
      (by rw [List.length_drop, List.length_drop]; omega) (by rw [List.getElem?_drop, List.getElem?_drop]; exact h2) hd2
  rw [bringUp, registerLoad_done h (by omega) hd, andThen_ok, bringUpJobs_loaded h hc, firstRun, secondRun]

/-- The register load and the two bursts make up the trace of the rule. -/
theorem initTrace_bursts (h : Handle) (b1 b2 : Byte) : initTrace h b1 b2 =
    loadTrace (some h) ++
      (burstTrace (some h) b1 0x33 0x32 0x28 0x01 ++ burstTrace (some h) b2 0x14 0x06 0x0C 0x02) := rfl

/-- Settles O30: the register load's three transactions and two bursts of ten. -/
theorem initCompletes : Obligations.InitCompletes := by
  intro addr busid bytes b1 b2 rest s hs hp hc ha hd hlen h1 h2 hb1 hb2
  obtain ⟨e, he⟩ := sentFrom_bothBursts b1 b2 ⟨addr.setWidth 7, busid⟩ hc
  have hdraws : (loaded ⟨addr.setWidth 7, busid⟩ s).draws.drop 20 = rest := by
    have hused : 3 + 20 = (bytes.map Draw.ok).length := by rw [List.length_map, hlen]
    rw [loaded_draws, List.drop_drop, hd, hused, List.drop_left]
  rw [Acceptance.exec_init_accepted busid hs hp ha, bringUp_done _ hc hd hlen h1 h2 hb1 hb2, he, hdraws, loaded_history _ hc,
    List.append_assoc, ← initTrace_bursts, finish_ok, endOperation_bringUp_ok, ← hs]
  refine ⟨e, ?_⟩
  simp [loaded, default_shiftInit hc, default_modeInit hc, default_ctrlInit hc]

end Sys2Proof.Proofs.BringUp

/-! PROOFS. The block's state (10_state.md): what the expander's pins and the controller do under the writes of the block, and that the
mode shadows are what the controller holds (R23, R40, R91). -/

namespace Sys2Proof.Proofs.ShadowsAtController

open Sys2Proof.Machine Sys2Proof.Safety Sys2Proof.Laws

/-! ## The pins -/

/-- The expander in non-sequential mode, its direction register and its output latch known (under the default numbers). -/
structure Pins (cfg : Params) (dir latch : Byte) (e : Env) : Prop where
  mode : NonSequential cfg e.mem
  dir : memRead 0 e.mem = some dir
  latch : memRead 10 e.mem = some latch

/-- What the controller makes of bytes that appear at the pins one after another. -/
def pinsRun (cfg : Params) (dir : Byte) : Byte → List Byte → Lcd → Lcd
  | _, [], l => l
  | old, b :: bs, l => pinsRun cfg dir b bs (pinsChange cfg dir old b l)

section

variable {cfg : Params} {dir old : Byte}

theorem gpioByte_pins (hc : DefaultEncodings cfg) (b : Byte) {e : Env} (h : Pins cfg dir old e) :
    Pins cfg dir b (storeAt cfg 9 b e) ∧ (storeAt cfg 9 b e).lcd = pinsChange cfg dir old b e.lcd := by
  obtain ⟨⟨v, hv, hn⟩, hd, hl⟩ := h
  obtain ⟨h10, h0, h5⟩ := gpio_write_mem b e.mem
  have hconfig : cfg.regs.config = 5 := by rw [default_regs hc]; rfl
  rw [storeAt_gpio hc b e dir old hd hl]
  exact ⟨⟨⟨v, by rw [hconfig] at hv ⊢; exact h5.trans hv, hn⟩, h0.trans hd, h10⟩, rfl⟩

theorem gpioBytes_pins (hc : DefaultEncodings cfg) (bs : List Byte) {e : Env} (h : Pins cfg dir old e) :
    Pins cfg dir (lastByte old bs) (storeSame cfg 9 bs e) ∧ (storeSame cfg 9 bs e).lcd = pinsRun cfg dir old bs e.lcd := by
  induction bs generalizing old e with
  | nil => exact ⟨h, rfl⟩
  | cons b bs ih =>
    obtain ⟨hb, hlcd⟩ := gpioByte_pins hc b h
    obtain ⟨hbs, hrun⟩ := ih hb
    exact ⟨hbs, by rw [storeSame, hrun, hlcd, pinsRun]⟩

/-- A delivery to the output register shows its bytes at the pins (R55, R56). -/
theorem deliverOut_pins (hc : DefaultEncodings cfg) (bs : List Byte) {e : Env} (h : Pins cfg dir old e) :
    Pins cfg dir (lastByte old bs) (deliver cfg cfg.regOut bs e) ∧
      (deliver cfg cfg.regOut bs e).lcd = pinsRun cfg dir old bs e.lcd := by
  rw [default_regOut hc, deliver_nonseq cfg 9 bs e h.mode]
  exact gpioBytes_pins hc bs (e := { e with ptr := 9 }) ⟨h.mode, h.dir, h.latch⟩

/-- A byte for the direction register changes no level the controller sees. -/
theorem deliverDir_pins (hc : DefaultEncodings cfg) (d : Byte) {e : Env} (h : Pins cfg dir old e) :
    Pins cfg d old (deliver cfg cfg.regs.dir [d] e) ∧ (deliver cfg cfg.regs.dir [d] e).lcd = e.lcd := by
  obtain ⟨hmode, hd, hl⟩ := h
  have hregs := default_regs hc
  have hdir : cfg.regs.dir = 0 := by rw [hregs]; rfl
  have hmem : (deliver cfg 0 [d] e).mem = memWrite 0 d e.mem := by
    rw [deliver_one_mem cfg 0 d e (by decide), storeFile, hregs, if_neg (by decide)]
  have hlcd : (deliver cfg 0 [d] e).lcd = e.lcd := by
    rw [deliver_nonseq cfg 0 [d] e hmode, storeSame, storeSame, storeAt_inside cfg 0 d _ (by decide), storeReg, hregs]
    rfl
  rw [hdir]
  refine ⟨⟨?_, ?_, ?_⟩, hlcd⟩
  · obtain ⟨v, hv, hn⟩ := hmode
    exact ⟨v, by rw [hmem, memRead_memWrite_other _ _ _ _ (by rw [hregs]; decide), hv], hn⟩
  · rw [hmem, memRead_memWrite_same]
  · rw [hmem, memRead_memWrite_other _ _ _ _ (by decide), hl]

/-! ## What the controller takes -/

/-- A quad, every pin an output and the strobe low: the controller on a byte boundary has the byte (R62, R123). -/
theorem pinsRun_quad (hc : DefaultEncodings cfg) {mask : Byte} (hm : mask &&& 0x7E = 0) (v : Byte) {l : Lcd}
    (ho : old &&& strobe = 0) (he : l.eight = false) (hh : l.half = .even) :
    pinsRun cfg 0x00 old (enc cfg mask v) l = received (mask.getLsbD 7) v { l with samples := l.samples + 2 } := by
  have hlow (n : Nybble) : (mask ||| place4 .straight n) &&& strobe = 0 := (pins_of_quad mask n 0 hm).2.2.2.2
  have hquad : enc cfg mask v = [mask ||| place4 .straight (highNybble v) ||| strobe, mask ||| place4 .straight (highNybble v),
      mask ||| place4 .straight (lowNybble v) ||| strobe, mask ||| place4 .straight (lowNybble v)] := by
    simp [enc, default_order hc]
  rw [hquad]
  simp only [pinsRun]
  rw [pins_rise cfg _ old _ l ho, pins_fall hc mask _ l hm, pins_rise cfg _ _ _ _ (hlow _), pins_fall hc mask _ _ hm,
    lcdNybble_samples,
    ← lcdNybble_byte l.samples (l.samples + 1) (mask.getLsbD 7) v { l with samples := l.samples + 2 } he hh]
  simp [lcdNybble, he, hh]

/-- The poll's pattern falling: one pulse of a read, whatever the busy pin floats to (R249). -/
theorem pins_readPulse (hc : DefaultEncodings cfg) {lo : Byte} (hlo : lo = 0x40 ∨ lo = 0x41) (l : Lcd) :
    pinsChange cfg 0x02 (lo ||| strobe) lo l = lcdReadPulse l.samples { l with samples := l.samples + 1 } := by
  have hfall : (lo ||| strobe) &&& strobe ≠ 0 ∧ lo &&& strobe = 0 ∧ (0x02 : Byte) &&& strobe = 0 := by
    rcases hlo with rfl | rfl <;> decide
  have hread : pinLevel 0x02 (lo ||| strobe) 0x40 l.samples 6 = true := by rcases hlo with rfl | rfl <;> rfl
  rw [pinsChange, if_pos hfall, strobeFall]
  simp only [default_readbackBit hc, hread, if_true]

/-- The two pulses of a poll's read are a whole byte read: they change nothing but the count of samples (R247, R249). -/
theorem pinsRun_poll (hc : DefaultEncodings cfg) {lo : Byte} (hlo : lo = 0x40 ∨ lo = 0x41) {l : Lcd} (he : l.eight = false)
    (hh : l.half = .even) :
    pinsRun cfg 0x02 (lo ||| strobe) [lo, lo ||| strobe, lo] l = { l with samples := l.samples + 2 } := by
  have hlow : lo &&& strobe = 0 := by rcases hlo with rfl | rfl <;> decide
  simp only [pinsRun]
  rw [pins_readPulse hc hlo l, pins_rise cfg _ _ _ _ hlow, pins_readPulse hc hlo]
  simp [lcdReadPulse, he, hh]

/-- A command that does not select the 8-bit interface leaves the 4-bit one. -/
theorem received_eight {c : Byte} {l : Lcd} (he : l.eight = false) (hc : ∀ n f y, decodeCmd8 c ≠ some (.functionSet true n f y)) :
    (received false c l).eight = false := by
  unfold received
  dsimp only
  split
  · rename_i cmd hcmd
    cases cmd with
    | functionSet d n f y =>
      cases d with
      | false => rfl
      | true => exact absurd hcmd (hc n f y)
    | _ => exact he
  · exact he

end

/-! ## States in step -/

/-- In terms of the pins: the expander and the controller as completed operations leave them (R242, R243, R247, R248). -/
theorem synced_iff {s : State} (hc : DefaultEncodings s.cfg) : Synced s ↔
    (∃ old, Pins s.cfg s.ddrb old s.env ∧ old &&& strobe = 0) ∧ (s.ddrb = 0x00 ∨ s.ddrb = 0x02) ∧ s.env.lcd.eight = false ∧
      s.env.lcd.half = .even := by
  have hdir : s.cfg.regs.dir = 0 := by rw [default_regs hc]; rfl
  have holat : s.cfg.regs.olat = 10 := by rw [default_regs hc]; rfl
  unfold Synced
  rw [hdir, holat]
  constructor
  · rintro ⟨hm, hd, hr, ⟨v, hv, hs⟩, he, hh⟩
    exact ⟨⟨v, ⟨hm, hd, hv⟩, hs⟩, hr, he, hh⟩
  · rintro ⟨⟨v, ⟨hm, hd, hv⟩, hs⟩, hr, he, hh⟩
    exact ⟨hm, hd, hr, ⟨v, hv, hs⟩, he, hh⟩

theorem synced_normal {s : State} (hc : DefaultEncodings s.cfg) (hS : Synced s) (hn : InNormal s) : s.ddrb = 0x00 := by
  obtain ⟨-, hr, -⟩ := (synced_iff hc).1 hS
  refine hr.resolve_right fun h => ?_
  rw [InNormal, h, default_busyDir hc] at hn
  exact absurd hn (by decide)

theorem synced_pending {s : State} (hc : DefaultEncodings s.cfg) (hS : Synced s) (hp : InPending s) : s.ddrb = 0x02 := by
  obtain ⟨-, hr, -⟩ := (synced_iff hc).1 hS
  refine hr.resolve_left fun h => ?_
  rw [InPending, h, default_busyDir hc] at hp
  exact absurd hp (by decide)

theorem sharedMask_bits (g : Byte) : (g &&& shared) &&& 0x7E = 0 ∧ (g &&& shared).getLsbD 7 = false := by
  revert g; decide +kernel

/-- A command sent in NORMAL is the command the controller takes. -/
theorem sentCommand_received {s : State} (hc : DefaultEncodings s.cfg) (hS : Synced s) (hn : InNormal s) (c : Byte) :
    (sentCommand c s).env.lcd = received false c { s.env.lcd with samples := s.env.lcd.samples + 2 } ∧
      ((∀ n f y, decodeCmd8 c ≠ some (.functionSet true n f y)) → Synced (sentCommand c s)) := by
  obtain ⟨⟨old, hpins, hold⟩, -, he, hh⟩ := (synced_iff hc).1 hS
  have hd := synced_normal hc hS hn
  obtain ⟨hm, hrs⟩ := sharedMask_bits s.gpio
  rw [hd] at hpins
  obtain ⟨hpins', hlcd⟩ := deliverOut_pins hc (enc s.cfg (s.gpio &&& shared) c) hpins
  rw [pinsRun_quad hc hm c hold he hh, hrs] at hlcd
  have henv : (sentCommand c s).env = deliver s.cfg s.cfg.regOut (enc s.cfg (s.gpio &&& shared) c) s.env := rfl
  refine ⟨henv ▸ hlcd, fun h8 => (synced_iff (by simpa using hc)).2 ?_⟩
  rw [sentCommand_ddrb, sentCommand_cfg, hd, henv, hlcd]
  refine ⟨⟨_, hpins', ?_⟩, .inl rfl, received_eight he h8, (received_keeps _ _ _).1.trans hh⟩
  rw [lastByte_enc, default_order hc]
  exact (pins_of_quad _ _ 0 hm).2.2.2.2

/-- The deliveries of a poll with the idle pattern `lo` (R133). -/
theorem polled_env (b : Byte) {lo : Byte} {s : State} (hlo : pollLo s.cfg s.gpio = lo) :
    (polled b s).env = deliver s.cfg s.cfg.regs.dir [s.ddrb &&& ~~~s.cfg.busyDir]
      (deliver s.cfg s.cfg.regOut [lo, lo ||| strobe, lo]
        (deliver s.cfg s.cfg.regOut [lo ||| strobe] (deliver s.cfg s.cfg.regOut [lo] s.env))) := by
  rw [pollLo] at hlo
  simp [polled, pollEntered, iterated, hlo]

theorem pollLo_cases {cfg : Params} (hc : DefaultEncodings cfg) (g : Byte) : pollLo cfg g = 0x40 ∨ pollLo cfg g = 0x41 := by
  rw [pollLo, default_readbackBit hc]
  revert g; decide +kernel

/-- A poll that is over at its first read leaves the controller as it was. -/
theorem polled_synced {s : State} (hc : DefaultEncodings s.cfg) (hS : Synced s) (hp : InPending s) (b : Byte) :
    (polled b s).env.lcd = { s.env.lcd with samples := s.env.lcd.samples + 2 } ∧ Synced (polled b s) := by
  obtain ⟨⟨old, hpins, hold⟩, -, he, hh⟩ := (synced_iff hc).1 hS
  have hd := synced_pending hc hS hp
  rw [hd] at hpins
  have hlo := pollLo_cases hc s.gpio
  have henv := polled_env b (s := s) rfl
  generalize pollLo s.cfg s.gpio = lo at hlo henv
  have hlow : lo &&& strobe = 0 := by rcases hlo with rfl | rfl <;> decide
  obtain ⟨p1, l1⟩ := deliverOut_pins hc [lo] hpins
  obtain ⟨p2, l2⟩ := deliverOut_pins hc [lo ||| strobe] p1
  obtain ⟨p3, l3⟩ := deliverOut_pins hc [lo, lo ||| strobe, lo] p2
  obtain ⟨p4, l4⟩ := deliverDir_pins hc (s.ddrb &&& ~~~s.cfg.busyDir) p3
  simp only [lastByte] at p4 l2 l3
  rw [pinsRun, pinsRun, pins_rise _ _ _ _ _ hold] at l1
  rw [pinsRun, pinsRun, pins_rise _ _ _ _ _ hlow, l1] at l2
  rw [l2, pinsRun_poll hc hlo he hh] at l3
  rw [l3, ← henv] at l4
  rw [← henv] at p4
  have hcleared : (polled b s).ddrb = 0x00 := by rw [polled_ddrb, hd, default_busyDir hc]; decide
  refine ⟨l4, (synced_iff (by simpa using hc)).2 ⟨⟨lo, ?_, hlow⟩, .inl hcleared, ?_, ?_⟩⟩
  · rw [polled_cfg, polled_ddrb]; exact p4
  · rw [l4]; exact he
  · rw [l4]; exact hh

/-! ## A command that reaches the controller -/

/-- A write of one command that completes at once, from NORMAL or after a poll, is the command the controller takes. -/
theorem runPlain_received {c : Byte} {s : State} (hc : DefaultEncodings s.cfg) (hS : Synced s) (h1 : CompletesAtOnce 1 s)
    (hslow : isPollable s.cfg c = false) (h8 : ∀ n f y, decodeCmd8 c ≠ some (.functionSet true n f y)) :
    ∃ k, (runPlain [cmdJob c] s).env.lcd = received false c { s.env.lcd with samples := k } ∧ Synced (runPlain [cmdJob c] s) := by
  obtain ⟨bytes, rest, hlen, hdone⟩ := h1
  obtain ⟨x, rfl⟩ := List.length_eq_one_iff.1 hlen
  rcases hdone with ⟨hn, hd⟩ | ⟨hp, x0, x1, b, x3, x4, hb, hd⟩
  · have hrun : runPlain [cmdJob c] s = endedOk (sentCommand c s) := by
      rw [runPlain, runJobs_normal .plain _ _ s hn, sendJob_command c x [] rest s hslow hd]; rfl
    obtain ⟨hlcd, hsync⟩ := sentCommand_received hc hS hn c
    rw [hrun]
    exact ⟨_, hlcd, hsync h8⟩
  · have hrun : runPlain [cmdJob c] s = endedOk (sentCommand c (polled b s)) := by
      have hd' : DrawsOk [x] rest (polled b s) := drawsOk_drop 5 hd (by simp) (polled_draws b s)
      rw [runPlain, runJobs_polled .plain _ _ x0 x1 b x3 x4 [x] rest s hp hb hd,
        sendJob_command c x [] rest _ (by simpa using hslow) hd']; rfl
    obtain ⟨hpolled, hsync'⟩ := polled_synced hc hS hp b
    obtain ⟨hlcd, hsync⟩ := sentCommand_received (s := polled b s) (by simpa using hc) hsync' (polled_normal b s) c
    rw [hrun]
    exact ⟨s.env.lcd.samples + 2 + 2, by rw [endedOk_env, hlcd, hpolled], hsync h8⟩

/-! ## The bytes of the mode shadows (R91) -/

theorem decodeCmd8_display {v : Byte} (h : v ≤ 0x07) :
    decodeCmd8 (0x08 ||| v) = some (.displayControl (v.getLsbD 2) (v.getLsbD 1) (v.getLsbD 0)) := by
  revert v; decide +kernel

theorem decodeCmd8_entry {v : Byte} (h : v ≤ 0x03) : decodeCmd8 (0x04 ||| v) = some (.entryMode (v.getLsbD 1) (v.getLsbD 0)) := by
  revert v; decide +kernel

theorem decodeCmd8_shift {v : Byte} (h : v = 0x08 ∨ v = 0x0C) :
    decodeCmd8 (0x10 ||| v) = some (.shift (v.getLsbD 3) (v.getLsbD 2) 0) := by
  rcases h with rfl | rfl <;> rfl

/-- A byte the controller decodes to a command is that command. -/
theorem received_command {c : Byte} {cmd : LcdCmd} (h : decodeCmd8 c = some cmd) (l : Lcd) :
    received false c l = lcdCommand cmd { l with received := l.received ++ [(false, c)], exec := .fixed } := by
  unfold received
  simp only [h]

/-! ## The operations on each shadow (R172 to R185) -/

theorem exec_control {i : Instr} {s : State} (hi : mayChangeControl i = true) (hr : Ready s) (hc : DefaultEncodings s.cfg)
    (h : s.displaycontrol ≤ 0x07) : ∃ v ≤ 0x07, exec i s = .next (setDisplaycontrol v s) := by
  have run (f : State → State) : (.next (whenReady f s) : Host.Outcome State Fault Refusal) = .next (f s) := by
    rw [whenReady_ready f s hr]
  have hon : s.cfg.flagDisplayOn ≤ 0x07 := by rw [default_flagDisplayOn hc]; decide
  have hcursor : s.cfg.flagCursorOn ≤ 0x07 := by rw [default_flagCursorOn hc]; decide
  have hblink : s.cfg.flagBlinkOn ≤ 0x07 := by rw [default_flagBlinkOn hc]; decide
  cases i <;> simp only [mayChangeControl, Bool.false_eq_true] at hi
  case displayOn => exact ⟨_, or_le_seven _ _ h hon, run _⟩
  case displayOff => exact ⟨_, and_le _ _ _ h, run _⟩
  case cursorOn => exact ⟨_, or_le_seven _ _ h hcursor, run _⟩
  case cursorOff => exact ⟨_, and_le _ _ _ h, run _⟩
  case blinkOn => exact ⟨_, or_le_seven _ _ h hblink, run _⟩
  case blinkOff => exact ⟨_, and_le _ _ _ h, run _⟩
  case toggleCursor => exact ⟨_, xor_le_seven _ _ h hcursor, run _⟩
  case toggleBlink => exact ⟨_, xor_le_seven _ _ h hblink, run _⟩

theorem exec_mode {i : Instr} {s : State} (hi : mayChangeMode i = true) (hr : Ready s) (hc : DefaultEncodings s.cfg)
    (h : s.displaymode ≤ 0x03) : ∃ v ≤ 0x03, exec i s = .next (setDisplaymode v s) := by
  have run (f : State → State) : (.next (whenReady f s) : Host.Outcome State Fault Refusal) = .next (f s) := by
    rw [whenReady_ready f s hr]
  have hleft : s.cfg.flagEntryLeft ≤ 0x03 := by rw [default_flagEntryLeft hc]; decide
  have hshift : s.cfg.flagEntryShift ≤ 0x03 := by rw [default_flagEntryShift hc]; decide
  cases i <;> simp only [mayChangeMode, Bool.false_eq_true] at hi
  case leftToRight => exact ⟨_, or_le_three _ _ h hleft, run _⟩
  case rightToLeft => exact ⟨_, and_le _ _ _ h, run _⟩
  case autoscrollOn => exact ⟨_, or_le_three _ _ h hshift, run _⟩
  case autoscrollOff => exact ⟨_, and_le _ _ _ h, run _⟩

theorem exec_shift {i : Instr} {s : State} (hi : mayChangeShift i = true) (hr : Ready s) (hc : DefaultEncodings s.cfg) :
    ∃ v, (v = 0x08 ∨ v = 0x0C) ∧ exec i s = .next (setDisplayshift v s) := by
  have run (f : State → State) : (.next (whenReady f s) : Host.Outcome State Fault Refusal) = .next (f s) := by
    rw [whenReady_ready f s hr]
  cases i <;> simp only [mayChangeShift, Bool.false_eq_true] at hi
  case scrollLeft => exact ⟨_, .inl (default_flagDisplayMove hc), run _⟩
  case scrollRight => exact ⟨_, .inr (by rw [default_flagDisplayMove hc, default_flagMoveRight hc]; rfl), run _⟩

/-- A command that the controller decodes as `cmd` has its effect there, and the shadows stand. -/
theorem runPlain_decoded {c : Byte} {cmd : LcdCmd} {s : State} (hc : DefaultEncodings s.cfg) (hS : Synced s)
    (h1 : CompletesAtOnce 1 s) (hslow : c &&& 0xFC ≠ 0) (hcmd : decodeCmd8 c = some cmd)
    (h8 : ∀ n f y, cmd ≠ .functionSet true n f y) :
    let t := runPlain [cmdJob c] s
    (∃ l, t.env.lcd = lcdCommand cmd l) ∧ t.displaycontrol = s.displaycontrol ∧ t.displaymode = s.displaymode ∧
      t.displayshift = s.displayshift ∧ Synced t := by
  obtain ⟨k, hlcd, hsync⟩ := runPlain_received hc hS h1 (not_pollable hc c hslow) fun n f y h =>
    h8 n f y (Option.some.inj (hcmd.symm.trans h))
  obtain ⟨-, -, -, -, -, hcontrol, hmode, hshift, -⟩ := OperationEnds.runPlain_frame [cmdJob c] s
  exact ⟨⟨_, hlcd.trans (received_command hcmd _)⟩, hcontrol, hmode, hshift, hsync⟩

theorem setDisplaycontrol_matches {v : Byte} {s t : State} (hc : DefaultEncodings s.cfg) (hS : Synced s) (h1 : CompletesAtOnce 1 s)
    (hv : v ≤ 0x07) (ht : setDisplaycontrol v s = t) :
    t.env.lcd.displayOn = t.displaycontrol.getLsbD 2 ∧ t.env.lcd.cursorOn = t.displaycontrol.getLsbD 1 ∧
      t.env.lcd.blinkOn = t.displaycontrol.getLsbD 0 ∧ Synced t := by
  rw [setDisplaycontrol, default_cmdDisplay hc] at ht
  obtain ⟨⟨l, hlcd⟩, hshadow, -, -, hsync⟩ := runPlain_decoded (s := { s with displaycontrol := v }) hc hS h1
    (bit_or 0x08 v (by decide)) (decodeCmd8_display hv) fun _ _ _ => LcdCmd.noConfusion
  rw [← ht, hlcd, hshadow]
  exact ⟨rfl, rfl, rfl, hsync⟩

theorem setDisplaymode_matches {v : Byte} {s t : State} (hc : DefaultEncodings s.cfg) (hS : Synced s) (h1 : CompletesAtOnce 1 s)
    (hv : v ≤ 0x03) (ht : setDisplaymode v s = t) :
    t.env.lcd.entryLeft = t.displaymode.getLsbD 1 ∧ t.env.lcd.entryShift = t.displaymode.getLsbD 0 ∧ Synced t := by
  rw [setDisplaymode, default_cmdEntry hc] at ht
  obtain ⟨⟨l, hlcd⟩, -, hshadow, -, hsync⟩ := runPlain_decoded (s := { s with displaymode := v }) hc hS h1
    (bit_or 0x04 v (by decide)) (decodeCmd8_entry hv) fun _ _ _ => LcdCmd.noConfusion
  rw [← ht, hlcd, hshadow]
  exact ⟨rfl, rfl, hsync⟩

theorem setDisplayshift_matches {v : Byte} {s t : State} (hc : DefaultEncodings s.cfg) (hS : Synced s) (h1 : CompletesAtOnce 1 s)
    (hv : v = 0x08 ∨ v = 0x0C) (ht : setDisplayshift v s = t) :
    t.env.lcd.moveDisplay = t.displayshift.getLsbD 3 ∧ t.env.lcd.moveRight = t.displayshift.getLsbD 2 ∧ Synced t := by
  rw [setDisplayshift, default_cmdShift hc] at ht
  obtain ⟨⟨l, hlcd⟩, -, -, hshadow, hsync⟩ := runPlain_decoded (s := { s with displayshift := v }) hc hS h1
    (bit_or 0x10 v (by decide)) (decodeCmd8_shift hv) fun _ _ _ => LcdCmd.noConfusion
  rw [← ht, hlcd, hshadow]
  exact ⟨rfl, rfl, hsync⟩

/-- Settles O47: the command of a shadow decodes to the shadow's bits, and it reaches a controller in step. -/
theorem displayShadowMatchesController : Obligations.DisplayShadowMatchesController := by
  intro i s t hr hc hS h1 hx
  have ended {u : State} (h : exec i s = .next u) : u = t := by rw [h] at hx; injection hx
  refine ⟨fun hi h => ?_, fun hi h => ?_, fun hi => ?_⟩
  · obtain ⟨v, hv, hexec⟩ := exec_control hi hr hc h
    exact setDisplaycontrol_matches hc hS h1 hv (ended hexec)
  · obtain ⟨v, hv, hexec⟩ := exec_mode hi hr hc h
    exact setDisplaymode_matches hc hS h1 hv (ended hexec)
  · obtain ⟨v, hv, hexec⟩ := exec_shift hi hr hc
    exact setDisplayshift_matches hc hS h1 hv (ended hexec)

end Sys2Proof.Proofs.ShadowsAtController

/-! PROOFS. The expander's register space (20_memory.md): what every step keeps, and the register file's form (R50). -/

namespace Sys2Proof.Proofs.StepKeeps

open Sys2Proof.Machine Sys2Proof.Safety Sys2Proof.Laws

/-- `P` is kept by each change of the state that some step makes. -/
structure StableStep (P : State → Prop) : Prop extends Stable P where
  anywhere : ∀ cfg r, StableAt P cfg r
  load : ∀ s, P s → P (loadShadows s)
  ending : ∀ op o s, P s → P (endOperation op o s)
  refused : ∀ why s, P s → P (refusedAs why s)
  command : ∀ c s, P s → P (atController c s)
  result : ∀ bs s, P s → P { s with result := bs }
  opened : ∀ h s, P s → P { s with handle := some h }
  released : ∀ s, P s → P { s with phase := .released }
  modes : ∀ c m d s, P s → P { s with displaycontrol := c, displaymode := m, displayshift := d }
  taken : ∀ p rest s, s.inbox = p :: rest → P s → P { s with inbox := rest }

section

variable {P : State → Prop}

theorem prepared_keeps (hP : StableStep P) {i : Instr} {s u : State} (hu : Prepared i s u) (h : P s) : P u := by
  rw [hu.eq]; exact hP.modes _ _ _ s h

theorem finish_keeps (hP : StableStep P) {op : OpKind} {r : Run} (h : Sat P r) : P (finish op r) :=
  finish_sat h (hP.ending op)

/-- Every instruction keeps what each of its changes keeps. -/
theorem exec_keeps (hP : StableStep P) {i : Instr} {s t : State} (hx : exec i s = .next t) (h : P s) : P t := by
  have hTxn := hP.toStableTxn
  rcases exec_cases i s t hx with ⟨rfl, -⟩ | ⟨-, why, rfl⟩ | ⟨c, rfl⟩ | ⟨bs, rfl⟩ | ⟨-, -, -, hbus⟩ |
    ⟨-, -, addr, busid, -, -, rfl⟩ | ⟨-, -, rfl⟩ | ⟨-, -, u, js, hu, rfl, -⟩
  · exact h
  · exact hP.refused why s h
  · exact hP.command c s h
  · exact hP.result bs s h
  · rcases hbus with ⟨r, v, -, rfl⟩ | ⟨r, bs, -, rfl⟩ | rfl
    · exact finish_keeps hP (busWrite1_keeps hTxn r v s (hP.anywhere _ _) h)
    · exact finish_keeps hP (busWriteBlk_keeps hTxn r bs s (hP.anywhere _ _) h)
    · exact finish_keeps hP (busRead1_keeps hTxn _ s h fun b => hP.result [b])
  · exact finish_keeps hP (bringUp_keeps hP.toStable hP.anywhere hP.load _ (hP.opened _ s h))
  · exact finish_keeps hP (tearDown_keeps hTxn hP.anywhere _ (hP.released s h))
  · exact finish_keeps hP (runJobs_keeps hP.toStable .plain js u (prepared_keeps hP hu h))

/-- Every step keeps what each of its changes keeps. -/
theorem step_keeps (hP : StableStep P) {s t : State} (hstep : step s = .next t) (h : P s) : P t := by
  rcases step_cases s t hstep with ⟨p, -, rfl⟩ | ⟨-, -, rfl⟩ | ⟨p, rest, -, hq, hrun⟩
  · exact finish_keeps hP (resume_keeps hP.toStable p s h)
  · exact h
  · have htaken := hP.taken p rest s hq h
    rcases hrun with ⟨i, -, hx⟩ | ⟨-, rfl⟩
    · exact exec_keeps hP hx htaken
    · rcases rejectPacket_cases p.port { s with inbox := rest } with he | he <;> rw [he]
      · exact htaken
      · exact hP.refused _ _ htaken

end

/-! ## The register file -/

/-- Only a delivery changes the register file, and it keeps the form (R50). -/
theorem memoryOk_stable : StableStep MemoryOk where
  draw s h := by rw [MemoryOk, takeDraw_env, takeDraw_cfg]; exact h
  event _ _ _ h := h
  out cfg bs s _ h := deliver_fileOk s.cfg cfg.regOut bs s.env h
  dir cfg bs s _ h := deliver_fileOk s.cfg cfg.regs.dir bs s.env h
  anywhere _ r bs s _ h := deliver_fileOk s.cfg r bs s.env h
  gpio _ _ h := h
  ddrb _ _ h := h
  seq _ _ h := h
  load _ h := h
  ending op o s h := by rw [MemoryOk, endOperation_env, endOperation_cfg]; exact h
  refused _ _ h := h
  command _ _ h := h
  result _ _ h := h
  opened _ _ h := h
  released _ h := h
  modes _ _ _ _ h := h
  taken _ _ _ _ h := h

/-- Settles O52: a step changes the register file by deliveries only, and each keeps it canonical and in range. -/
theorem memoryStaysCanonical : Obligations.MemoryStaysCanonical :=
  fun _ _ h hstep => step_keeps memoryOk_stable hstep h

end Sys2Proof.Proofs.StepKeeps

/-! PROOFS. The expander's register space (20_memory.md): the blocks that the quads of a write are cut into (R112, R136). -/

namespace Sys2Proof.Proofs.QuadBlocks

open Sys2Proof.Machine Sys2Proof.Laws

/-- The quads of the first eight values are the first block (R136). -/
theorem quads_split (cfg : Params) (mask : Byte) (vals : List Byte) :
    (vals.flatMap (enc cfg mask)).take blockMax = (vals.take 8).flatMap (enc cfg mask) ∧
      (vals.flatMap (enc cfg mask)).drop blockMax = (vals.drop 8).flatMap (enc cfg mask) := by
  have hlen := quads_length cfg mask (vals.take 8)
  rw [List.length_take] at hlen
  have hsplit : vals.flatMap (enc cfg mask) = (vals.take 8).flatMap (enc cfg mask) ++ (vals.drop 8).flatMap (enc cfg mask) := by
    rw [← List.flatMap_append, List.take_append_drop]
  by_cases h8 : 8 ≤ vals.length
  · have hfull : ((vals.take 8).flatMap (enc cfg mask)).length = blockMax := by rw [hlen, blockMax]; omega
    rw [hsplit, ← hfull]
    exact ⟨List.take_left, List.drop_left⟩
  · have hshort : ((vals.take 8).flatMap (enc cfg mask)).length ≤ blockMax := by rw [hlen, blockMax]; omega
    have hnil : vals.drop 8 = [] := List.drop_eq_nil_of_le (by omega)
    rw [hsplit, hnil, List.flatMap_nil, List.append_nil]
    exact ⟨List.take_of_length_le hshort, List.drop_eq_nil_of_le hshort⟩

theorem quads_ne_nil (cfg : Params) (mask : Byte) {vals : List Byte} (h : vals ≠ []) : vals.flatMap (enc cfg mask) ≠ [] := by
  obtain ⟨v, vs, rfl⟩ := List.exists_cons_of_ne_nil h
  exact List.cons_ne_nil _ _

/-- The blocks of the quads of some values: those of the first eight, and the blocks of the rest. -/
theorem blockChunks_quads (cfg : Params) (mask : Byte) {vals : List Byte} (h : vals ≠ []) :
    blockChunks (vals.flatMap (enc cfg mask)) =
      (vals.take 8).flatMap (enc cfg mask) :: blockChunks ((vals.drop 8).flatMap (enc cfg mask)) := by
  obtain ⟨htake, hdrop⟩ := quads_split cfg mask vals
  rw [blockChunks_cons _ (quads_ne_nil cfg mask h), htake, hdrop]

/-- Every block of a write is the quads of one to eight values. -/
theorem quadBlock_of_mem (cfg : Params) (mask : Byte) (vals : List Byte) :
    ∀ c ∈ blockChunks (vals.flatMap (enc cfg mask)), ∃ vs, vs ≠ [] ∧ vs.length ≤ 8 ∧ c = vs.flatMap (enc cfg mask) := by
  induction h : vals.length using Nat.strong_induction_on generalizing vals with
  | _ n ih =>
    subst h
    intro c hmem
    by_cases hv : vals = []
    · subst hv; cases hmem
    · have hpos : 0 < vals.length := List.length_pos_iff.2 hv
      rw [blockChunks_quads cfg mask hv] at hmem
      rcases List.mem_cons.1 hmem with rfl | hmem
      · exact ⟨vals.take 8, by simp [List.take_eq_nil_iff, hv], by rw [List.length_take]; omega, rfl⟩
      · exact ih (vals.drop 8).length (by rw [List.length_drop]; omega) (vals.drop 8) rfl c hmem

end Sys2Proof.Proofs.QuadBlocks

/-! PROOFS. The expander's register space (20_memory.md): the transactions the block issues (R51, R59, R98, R116). -/

namespace Sys2Proof.Proofs.AllowedTransactions

open Sys2Proof.Machine Sys2Proof.Safety Sys2Proof.Laws Sys2Proof.Proofs.RunEnds Sys2Proof.Proofs.BlockInvariant
open Sys2Proof.Proofs.StepKeeps Sys2Proof.Proofs.QuadBlocks

/-! ## The queue -/

/-- Requests only leave the queue. -/
theorem hostOnly_stable : StableStep HostOnly where
  draw s h := by rw [HostOnly, takeDraw_inbox]; exact h
  event _ _ _ h := h
  out _ _ _ _ h := h
  dir _ _ _ _ h := h
  anywhere _ _ _ _ _ h := h
  gpio _ _ h := h
  ddrb _ _ h := h
  seq _ _ h := h
  load _ h := h
  ending op o s h := by rw [HostOnly, endOperation_inbox]; exact h
  refused _ _ h := h
  command _ _ h := h
  result _ _ h := h
  opened _ _ h := h
  released _ h := h
  modes _ _ _ _ h := h
  taken p rest s hq h q hmem := h q (hq ▸ List.mem_cons_of_mem p hmem)

/-- No request at the host's port is a micro-operation (R92, R214). -/
theorem decodeHost_not_busOp {bs rest : List Byte} {i : Instr} (h : decodeHost bs = .ok (i, rest)) : isBusOp i = false := by
  unfold decodeHost decInit decWriteCmd decWriteData decSetCursor decDefineGlyph decWriteText at h
  repeat' split at h
  all_goals cases h
  all_goals rfl

theorem decode_host_not_busOp {o : NybbleOrder} {p : Packet} {i : Instr} (hp : p.port = .host) (h : decode o p = .ok i) :
    isBusOp i = false := by
  have hat : decodeAt o p.port p.bytes = decodeHost p.bytes := by rw [hp]; rfl
  rw [decode, hat] at h
  split at h
  · rename_i j hd
    cases h; exact decodeHost_not_busOp hd
  · cases h
  · cases h

/-! ## One transaction -/

/-- `t` is `s` after the transaction `x`, completed or not. -/
def Issued (x : Txn) (s t : State) : Prop := Transacted s t ∧ ∃ m, t.history = s.history ++ [⟨s.handle, x, m⟩]

theorem sat_and {P Q : State → Prop} {r : Run} (hP : Sat P r) (hQ : Sat Q r) : Sat (fun t => P t ∧ Q t) r := by
  cases r <;> exact ⟨hP, hQ⟩

theorem record_issued (x : Txn) (m : Ending) (e : Env) (s : State) :
    (record x m { (takeDraw s).2 with env := e }).history = s.history ++ [⟨s.handle, x, m⟩] := by simp

theorem busWrite1_issued (r : Nat) (v : Byte) (s : State) : Sat (Issued (.w1 r v) s) (busWrite1 r v s) := by
  refine sat_and (busWrite1_keeps (transacted_stable s) r v s (transacted_at s _ r) (transacted_refl s)) ?_
  have hrec := fun m e => record_issued (.w1 r v) m e s
  unfold busWrite1
  split <;> rename_i heq <;> rw [heq] at hrec
  · exact ⟨_, hrec _ _⟩
  · exact ⟨_, hrec _ _⟩

theorem busWriteChunk_issued (r : Nat) (bs : List Byte) (s : State) : Sat (Issued (.wb r bs) s) (busWriteChunk r bs s) := by
  refine sat_and (busWriteChunk_keeps (transacted_stable s) r bs s (transacted_at s _ r) (transacted_refl s)) ?_
  have hrec := fun m e => record_issued (.wb r bs) m e s
  unfold busWriteChunk
  split <;> rename_i heq <;> rw [heq] at hrec
  · exact ⟨_, hrec _ _⟩
  · exact ⟨_, hrec _ _⟩

/-! ## Runs whose transactions are allowed -/

/-- The history so far is allowed, and `P`. -/
def Logged (P : State → Prop) (s : State) : Prop := HistoryOk s ∧ P s

/-- A run that keeps the history allowed, and goes on in `P`. -/
abbrev LoggedRun (P : State → Prop) : Run → Prop := Ends (Logged P) HistoryOk HistoryOk

/-- `P` is kept by whatever a transaction changes. -/
def KeptByTxn (P : State → Prop) : Prop := ∀ s t, P s → Transacted s t → P t

theorem historyOk_issued {x : Txn} {s t : State} (h : HistoryOk s) (hx : AllowedTxn x) (ht : Issued x s t) : HistoryOk t := by
  obtain ⟨-, m, he⟩ := ht
  intro e hmem
  rw [he] at hmem
  rcases List.mem_append.1 hmem with hmem | hmem
  · exact h e hmem
  · rw [List.mem_singleton.1 hmem]; exact hx

theorem loggedRun_of_issued {P : State → Prop} {x : Txn} {s : State} {r : Run} (hP : KeptByTxn P) (h : Logged P s)
    (hx : AllowedTxn x) (hprompt : Prompt r) (hr : Sat (Issued x s) r) : LoggedRun P r := by
  cases r with
  | ok t => exact ⟨historyOk_issued h.1 hx hr, hP s t h.2 hr.1⟩
  | wait t => exact hprompt.elim
  | stop o t => exact ⟨hprompt, historyOk_issued h.1 hx hr⟩

section

variable {P : State → Prop} (hP : KeptByTxn P)

include hP

theorem busWrite1_logged {r : Nat} {v : Byte} {s : State} (h : Logged P s) (hx : AllowedTxn (.w1 r v)) :
    LoggedRun P (busWrite1 r v s) :=
  loggedRun_of_issued hP h hx (busWrite1_prompt r v s) (busWrite1_issued r v s)

theorem busWriteBlk_logged {r : Nat} {bs : List Byte} {s : State} (h : Logged P s) (hne : bs ≠ []) (hl : bs.length ≤ blockMax)
    (hx : AllowedTxn (.wb r bs)) : LoggedRun P (busWriteBlk r bs s) := by
  rw [busWriteBlk_one r bs s hne hl]
  exact loggedRun_of_issued hP h hx (busWriteChunk_prompt r bs s) (busWriteChunk_issued r bs s)

theorem busRead1_logged {Q : State → Prop} {k : Byte → State → Run} {s : State} (h : Logged P s)
    (hk : ∀ b t, Logged P t → LoggedRun Q (k b t)) : LoggedRun Q (busRead1 s k) := by
  have hd := (transacted_stable s).draw s (transacted_refl s)
  have hrec := fun m => record_issued .r1 m (takeDraw s).2.env s
  have hissued : ∀ m, Issued .r1 s (record .r1 m (takeDraw s).2) := fun m => ⟨(transacted_stable s).event _ _ _ hd, m, hrec m⟩
  have hhist : ∀ m, HistoryOk (record .r1 m (takeDraw s).2) := fun m => historyOk_issued (x := .r1) h.1 trivial (hissued m)
  unfold busRead1
  split <;> rename_i heq <;> rw [heq] at hissued hhist
  · exact hk _ _ ⟨hhist _, hP _ _ h.2 (hissued _).1⟩
  · exact ⟨OpOutcome.noConfusion, hhist _⟩

end

theorem live_keptByTxn (op : OpKind) : KeptByTxn (Live op) := fun _ _ => live_transacted

theorem inPoll_keptByTxn (op : OpKind) : KeptByTxn (InPoll op) := fun _ _ h ht => (inPoll_transacted h ht).1

theorem default_keptByTxn : KeptByTxn fun s => DefaultEncodings s.cfg := by
  rintro s _ h ⟨e, ds, k, es, rfl⟩; exact h

/-! ## Transactions by register -/

theorem allowed_config {cfg : Params} (hc : DefaultEncodings cfg) {v : Byte} (hv : v = 0x00 ∨ v = 0x20) :
    AllowedTxn (.w1 cfg.regs.config v) := .inl ⟨by rw [default_regs hc]; rfl, hv⟩

theorem allowed_dir {cfg : Params} (hc : DefaultEncodings cfg) {v : Byte} (hv : v = 0x00 ∨ v = 0x02) :
    AllowedTxn (.w1 cfg.regs.dir v) := .inr (.inl ⟨by rw [default_regs hc]; rfl, hv⟩)

theorem allowed_pattern {cfg : Params} (hc : DefaultEncodings cfg) {v : Byte} (hv : v = 0x40 ∨ v = 0x60) :
    AllowedTxn (.w1 cfg.regOut v) := .inr (.inr ⟨default_regOut hc, hv⟩)

theorem allowed_pulses {cfg : Params} (hc : DefaultEncodings cfg) : AllowedTxn (.wb cfg.regOut [0x40, 0x60, 0x40]) :=
  .inr (.inl ⟨default_regOut hc, rfl⟩)

theorem allowed_safeRegs {cfg : Params} (hc : DefaultEncodings cfg) : AllowedTxn (.wb 0 (safeRegs cfg)) :=
  .inl ⟨rfl, default_safeRegs hc⟩

theorem allowed_quads {cfg : Params} (hc : DefaultEncodings cfg) {mask : Byte} {vals : List Byte}
    (hm : mask = 0x00 ∨ mask = 0x80) (hne : vals ≠ []) (hl : vals.length ≤ 8) :
    AllowedTxn (.wb cfg.regOut (vals.flatMap (enc paramsDefault mask))) :=
  .inr (.inr ⟨default_regOut hc, mask, vals, hm, hne, hl, rfl⟩)

/-! ## The poll -/

theorem pollIterate_logged {op : OpKind} (p : Poll) {s : State} (hlo : p.lo = 0x40) (hhi : p.hi = 0x60)
    (h : Logged (InPoll op) s) : LoggedRun (Live op) (pollIterate p s) := by
  have hlo0 : p.lo &&& shared = 0 := by rw [hlo]; decide
  have hhi0 : p.hi &&& shared = 0 := by rw [hhi]; decide
  have hInPoll := inPoll_keptByTxn op
  refine ends_andThen (busWrite1_logged hInPoll h (allowed_pattern h.2.1.1 (.inr hhi))) fun t ⟨ht, hl, hd⟩ => ?_
  have hraised : Logged (InPoll op) { t with gpio := p.hi } := ⟨ht, live_setGpio hl hhi0, hd⟩
  refine busRead1_logged hInPoll hraised fun b u hu => ?_
  have hpulses : AllowedTxn (.wb u.cfg.regOut [p.lo, p.hi, p.lo]) := by rw [hlo, hhi]; exact allowed_pulses hu.2.1.1
  refine ends_andThen (busWriteBlk_logged hInPoll hu (by simp) (by simp [blockMax]) hpulses) fun w ⟨hw, hlw, hdw⟩ => ?_
  have hlow : Live op { w with gpio := p.lo } := live_setGpio hlw hlo0
  split
  · split
    · exact ⟨OpOutcome.noConfusion, hw⟩
    · exact hw
  · have hcleared := ddrb_cleared hlw
    exact busWrite1_logged (live_keptByTxn op) ⟨hw, live_setDdrb hlow (.inl hcleared)⟩ (allowed_dir hlw.1 (.inl hcleared))

theorem pollIfPending_logged (op : OpKind) (j : Job) (js : List Job) {s : State} (h : Logged (Live op) s) :
    LoggedRun (Live op) (pollIfPending op j js s) := by
  have hlo : pollLo s.cfg s.gpio = 0x40 := by rw [pollLo, live_gpio h.2, default_readbackBit h.2.1]; rfl
  unfold pollIfPending
  split
  · rename_i hp
    have hd : s.ddrb = 0x02 := (live_ddrb h.2).resolve_left fun h0 => by simp [pollPending, h0] at hp
    have hpattern : AllowedTxn (.w1 s.cfg.regOut (pollLo s.cfg s.gpio)) := allowed_pattern h.2.1 (.inl hlo)
    refine ends_andThen (busWrite1_logged (inPoll_keptByTxn op) ⟨h.1, h.2, hd⟩ hpattern) fun t ⟨ht, hl, hdt⟩ => ?_
    exact pollIterate_logged _ hlo (by rw [pollHi, hlo]; rfl) ⟨ht, live_setGpio hl (by rw [hlo]; decide), hdt⟩
  · exact h

/-! ## The quads of a write -/

theorem controlMask_cases {op : OpKind} {s : State} (h : Live op s) (isData : Bool) :
    controlMask s.cfg s.gpio isData = 0x00 ∨ controlMask s.cfg s.gpio isData = 0x80 := by
  rw [controlMask, live_gpio h, default_rsBit h.1]
  cases isData <;> decide

/-- A block of quads under an allowed mask. -/
def QuadBlock (mask : Byte) (c : List Byte) : Prop :=
  ∃ vals, vals ≠ [] ∧ vals.length ≤ 8 ∧ c = vals.flatMap (enc paramsDefault mask)

theorem flush_logged {op : OpKind} {mask : Byte} {c : List Byte} {s : State} (hm : mask = 0x00 ∨ mask = 0x80)
    (hblock : QuadBlock mask c) (h : Logged (Live op) s) : LoggedRun (Live op) (flush c s) := by
  obtain ⟨vals, hne, hl, rfl⟩ := hblock
  have hm0 : mask &&& shared = 0 := by rcases hm with rfl | rfl <;> decide
  have hlen : (vals.flatMap (enc paramsDefault mask)).length ≤ blockMax := by rw [quads_length, blockMax]; omega
  have hblk := busWriteBlk_logged (live_keptByTxn op) h (quads_ne_nil paramsDefault mask hne) hlen
    (allowed_quads h.2.1 hm hne hl)
  refine ends_andThen hblk fun t ⟨ht, hlive⟩ => ⟨ht, live_setGpio hlive (lastByte_shared (live_gpio hlive) fun b hb => ?_)⟩
  obtain ⟨v, -, hb⟩ := List.mem_flatMap.1 hb
  exact enc_shared hm0 v b hb

theorem flushAll_logged {op : OpKind} {mask : Byte} (hm : mask = 0x00 ∨ mask = 0x80) {cs : List (List Byte)}
    (hcs : ∀ c ∈ cs, QuadBlock mask c) {s : State} (h : Logged (Live op) s) : LoggedRun (Live op) (flushAll cs s) := by
  induction cs generalizing s with
  | nil => exact h
  | cons c cs ih =>
    exact ends_andThen (flush_logged hm (hcs c List.mem_cons_self) h) fun _ =>
      ih fun d hd => hcs d (List.mem_cons_of_mem c hd)

theorem sendJob_logged {op : OpKind} (j : Job) {s : State} (h : Logged (Live op) s) : LoggedRun (Live op) (sendJob j s) := by
  have hm := controlMask_cases h.2 j.isData
  rw [sendJob, sendValues_blocks, funext (default_enc h.2.1 _)]
  refine ends_andThen (flushAll_logged hm (quadBlock_of_mem paramsDefault _ j.vals) h) fun t ⟨ht, hlive⟩ => ?_
  unfold rearm
  split
  · have hset := ddrb_set hlive
    exact busWrite1_logged (live_keptByTxn op) ⟨ht, live_setDdrb hlive (.inr hset)⟩ (allowed_dir hlive.1 (.inr hset))
  · exact ⟨ht, hlive⟩

theorem runJobs_logged (op : OpKind) (js : List Job) {s : State} (h : Logged (Live op) s) :
    LoggedRun (Live op) (runJobs op js s) := by
  induction js generalizing s with
  | nil => exact h
  | cons j js ih =>
    exact ends_andThen (ends_andThen (pollIfPending_logged op j js h) fun _ => sendJob_logged j) fun _ => ih

/-! ## Bring-up and teardown -/

theorem safeRegs_block (cfg : Params) : safeRegs cfg ≠ [] ∧ (safeRegs cfg).length ≤ blockMax := by
  simp [safeRegs, blockMax]

theorem tearDown_logged {P : State → Prop} (hP : KeptByTxn P) (hdef : ∀ s, P s → DefaultEncodings s.cfg) {s : State}
    (h : Logged P s) : LoggedRun P (tearDown s) := by
  have hc := hdef s h.2
  refine ends_andThen (busWrite1_logged hP h (allowed_config hc (.inl (default_cfgSeq hc)))) fun t ht => ?_
  obtain ⟨hne, hl⟩ := safeRegs_block t.cfg
  exact busWriteBlk_logged hP ht hne hl (allowed_safeRegs (hdef t ht.2))

/-- The register load begins with the transactions of TEARDOWN (R161, R165). -/
theorem registerLoad_eq (s : State) : registerLoad s =
    andThen (tearDown s) fun u => andThen (busWrite1 u.cfg.regs.config u.cfg.cfgNonseq u) fun w => .ok (loadShadows w) := by
  rw [tearDown, andThen_assoc]; rfl

theorem bringUp_logged {s : State} (h : Logged ComingUpOpen s) : LoggedRun (Live .bringUp) (bringUp s) := by
  have hkept : KeptByTxn ComingUpOpen := fun _ _ hs ht => (comingUpOpen_transacted hs ht).1
  rw [bringUp, registerLoad_eq]
  refine ends_andThen (ends_andThen (tearDown_logged hkept (fun _ hs => hs.1.1) h) fun u hu => ?_) fun t => runJobs_logged _ _
  have hc := hu.2.1.1
  exact ends_andThen (busWrite1_logged hkept hu (allowed_config hc (.inr (default_cfgNonseq hc)))) fun w ⟨hw, hopen⟩ =>
    ⟨hw, live_loadShadows hopen⟩

/-! ## Every step -/

theorem finish_historyOk {P : State → Prop} {op : OpKind} {r : Run} (h : LoggedRun P r) : HistoryOk (finish op r) := by
  have ended (o : OpOutcome) {t : State} (ht : HistoryOk t) : HistoryOk (endOperation op o t) := by
    rw [HistoryOk, endOperation_history]; exact ht
  cases r with
  | ok t => exact ended .ok h.1
  | wait t => exact h
  | stop o t => exact ended o h.2

theorem exec_historyOk {i : Instr} {s t : State} (hbus : isBusOp i = false) (hB : BlockOk s) (hH : HistoryOk s)
    (hx : exec i s = .next t) : HistoryOk t := by
  rcases exec_cases i s t hx with ⟨rfl, -⟩ | ⟨-, why, rfl⟩ | ⟨c, rfl⟩ | ⟨bs, rfl⟩ | ⟨-, -, hbus', -⟩ |
    ⟨-, hp, addr, busid, -, -, rfl⟩ | ⟨-, -, rfl⟩ | ⟨hr, -, u, js, hu, rfl, -⟩
  · exact hH
  · exact hH
  · exact hH
  · exact hH
  · exact absurd (hbus.symm.trans hbus') (by simp)
  · exact finish_historyOk (bringUp_logged ⟨hH, ⟨hB.1, hp⟩, Option.some_ne_none _⟩)
  · exact finish_historyOk (tearDown_logged default_keptByTxn (fun _ => id) ⟨hH, hB.1⟩)
  · have hHu : HistoryOk u := by rw [hu.eq]; exact hH
    exact finish_historyOk (runJobs_logged .plain js ⟨hHu, live_prepared (live_of_ready hB hr) hu⟩)

theorem resumeOperation_historyOk {p : Poll} {s : State} (hB : BlockOk s) (hH : HistoryOk s) (hs : s.seq = .polling p) :
    HistoryOk (resumeOperation p s) := by
  obtain ⟨hc, hshadows, hposition, -⟩ := hB
  obtain ⟨hlo, hhi, -, hd, hh, hphase⟩ := hposition p hs
  have hlive : Live p.op s := ⟨hc, hshadows (.inr ⟨p, hs⟩), hh, hphase⟩
  exact finish_historyOk (ends_andThen (ends_andThen (pollIterate_logged p hlo hhi ⟨hH, hlive, hd⟩) fun _ => sendJob_logged _)
    fun _ => runJobs_logged _ _)

/-- Settles O54: the block is live during every run, so the bytes of each transaction are of the list, and a request at the host's
port is no micro-operation. -/
theorem onlyAllowedTransactions : Obligations.OnlyAllowedTransactions := by
  intro s t hB hHost hH hstep
  refine ⟨step_keeps hostOnly_stable hstep hHost, ?_⟩
  rcases step_cases s t hstep with ⟨p, hp, rfl⟩ | ⟨-, -, rfl⟩ | ⟨p, rest, -, hq, ⟨i, hd, hx⟩ | ⟨-, rfl⟩⟩
  · exact resumeOperation_historyOk hB hH hp
  · exact hH
  · have hport : p.port = .host := hHost p (hq ▸ List.mem_cons_self)
    exact exec_historyOk (s := { s with inbox := rest }) (decode_host_not_busOp hport hd) hB hH hx
  · rcases rejectPacket_cases p.port { s with inbox := rest } with he | he <;> rw [he] <;> exact hH

end Sys2Proof.Proofs.AllowedTransactions

/-! PROOFS. The expander's register space (20_memory.md): where the bytes of a block go (R55 to R57), and the registers that a
writing operation leaves unchanged (R51, R116). -/

namespace Sys2Proof.Proofs.Deliveries

open Sys2Proof.Machine Sys2Proof.Safety Sys2Proof.Laws

/-! ## Non-sequential mode -/

/-- A store to GPIO sets the output latch (R55). -/
theorem storeAt_latch {cfg : Params} {r : Nat} (v : Byte) (e : Env) (hr : r < nregs) (hg : r = cfg.regs.gpio) :
    (storeAt cfg r v e).latch cfg = v := by
  rw [storeAt_inside cfg r v e hr]
  exact latch_known (memRead_storeFile_latch cfg r v e.mem (.inl hg))

theorem memRead_storeAt_same {cfg : Params} {r : Nat} (v : Byte) (e : Env) (hr : r < nregs) :
    memRead r (storeAt cfg r v e).mem = some v := by
  rw [storeAt_inside cfg r v e hr, storeReg_mem, memRead_storeFile_same]

/-- Settles O16: the last byte is stored last, in the register of all the others. -/
theorem nonSequentialBlockStaysInRegister : Obligations.NonSequentialBlockStaysInRegister := by
  intro cfg r bs b e hmode hr
  have hr : r < nregs := Nat.lt_succ_of_le hr
  have hlast : deliver cfg r (bs ++ [b]) e = storeAt cfg r b (storeSame cfg r bs { e with ptr := r }) := by
    rw [deliver_nonseq cfg r _ e hmode, storeSame_append]; rfl
  refine ⟨?_, fun hg => ?_, fun a ha => deliver_nonseq_other cfg r _ e hmode hr a ha, ?_⟩
  · rw [hlast, memRead_storeAt_same b _ hr]
  · rw [hlast, storeAt_latch b _ hr hg]
  · rw [hlast, storeAt_ptr, storeSame_ptr]

/-! ## Sequential mode -/

/-- The bytes after the first leave a register that a store to none of theirs touches. -/
theorem storeSeq_first {cfg : Params} {r a : Nat} {v : Byte} {vs : List Byte} {e : Env} (hlen : r + (v :: vs).length ≤ nregs)
    (h : ∀ k, k < vs.length → ¬ Touches cfg (r + 1 + k) a) :
    memRead a (storeSeq cfg r (v :: vs) e).mem = memRead a (storeFile cfg r v e.mem) := by
  simp only [List.length_cons] at hlen
  rw [storeSeq, storeSeq_other cfg (r + 1) vs _ (by omega) a h, storeAt_inside cfg r v e (by omega), storeReg_mem]

/-- Byte `k` stands in register `r + k`: a later byte for GPIO would set a latch above it only. -/
theorem memRead_storeSeq {cfg : Params} (hgo : cfg.regs.gpio < cfg.regs.olat) {r : Nat} {bs : List Byte} {e : Env}
    (hlen : r + bs.length ≤ nregs) (k : Nat) (hk : k < bs.length) : memRead (r + k) (storeSeq cfg r bs e).mem = some bs[k] := by
  induction bs generalizing r e k with
  | nil => cases hk
  | cons v vs ih =>
    cases k with
    | zero =>
      have huntouched : ∀ m, m < vs.length → ¬ Touches cfg (r + 1 + m) (r + 0) := by
        rintro m - (h | ⟨hg, ho⟩) <;> omega
      rw [storeSeq_first hlen huntouched]
      exact memRead_storeFile_same cfg r v e.mem
    | succ k =>
      simp only [List.length_cons] at hlen hk
      have hnext := ih (r := r + 1) (e := storeAt cfg r v e) (by omega) k (by omega)
      rw [Nat.add_right_comm] at hnext
      exact hnext

/-- Byte `k`, for GPIO, stands in the output latch if no byte reaches the latch's own register. -/
theorem latch_storeSeq {cfg : Params} {r : Nat} {bs : List Byte} {e : Env} (hlen : r + bs.length ≤ nregs) (k : Nat)
    (hk : k < bs.length) (hg : r + k = cfg.regs.gpio) (ho : r + bs.length ≤ cfg.regs.olat) :
    memRead cfg.regs.olat (storeSeq cfg r bs e).mem = some bs[k] := by
  induction bs generalizing r e k with
  | nil => cases hk
  | cons v vs ih =>
    have hlen' := hlen
    simp only [List.length_cons] at hlen' hk ho
    cases k with
    | zero =>
      have huntouched : ∀ m, m < vs.length → ¬ Touches cfg (r + 1 + m) cfg.regs.olat := by
        rintro m hm (h | ⟨hg', -⟩) <;> omega
      rw [storeSeq_first hlen huntouched]
      exact memRead_storeFile_latch cfg r v e.mem (.inl hg)
    | succ k =>
      exact ih (r := r + 1) (e := storeAt cfg r v e) (by omega) k (by omega) (by omega) (by omega)

/-- Settles O17: byte after byte, each in the register after the one before. -/
theorem sequentialBlockFillsRegisters : Obligations.SequentialBlockFillsRegisters := by
  intro cfg r bs e hmode hlen hgo
  rw [deliver_seq cfg r bs e hmode]
  refine ⟨fun k hk => memRead_storeSeq hgo hlen k hk, fun k hk hg ho => ?_, fun a ha => ?_, storeSeq_ptr ..⟩
  · exact latch_known (latch_storeSeq hlen k hk hg ho)
  · exact storeSeq_other cfg r bs _ hlen a ha

/-! ## The registers a writing operation leaves unchanged -/

/-- `t` is in non-sequential mode under the configuration of `s`, and its register file has the same in the registers `U`. -/
structure SameFile (U : Nat → Prop) (s t : State) : Prop where
  cfg : t.cfg = s.cfg
  mode : NonSequential t.cfg t.env.mem
  same : ∀ a, U a → memRead a t.env.mem = memRead a s.env.mem

theorem sameFile_transacted {U : Nat → Prop} (s : State) : StableTxn (SameFile U s) where
  draw t h := ⟨(takeDraw_cfg t).trans h.cfg, by rw [takeDraw_env, takeDraw_cfg]; exact h.mode,
    by rw [takeDraw_env]; exact h.same⟩
  event _ _ _ h := ⟨h.cfg, h.mode, h.same⟩

/-- A delivery to a register whose stores touch neither the configuration register nor `U`. -/
theorem sameFile_at {U : Nat → Prop} {s : State} {cfg : Params} {r : Nat} (hr : s.cfg = cfg → r < nregs)
    (hconfig : s.cfg = cfg → ¬ Touches cfg r cfg.regs.config) (hU : s.cfg = cfg → ∀ a, U a → ¬ Touches cfg r a) :
    StableAt (SameFile U s) cfg r := by
  rintro bs t rfl ⟨hcfg, hmode, hsame⟩
  exact ⟨hcfg, deliver_nonseq_mode t.cfg r bs t.env hmode (hr hcfg.symm) (hconfig hcfg.symm), fun a ha =>
    (deliver_nonseq_other t.cfg r bs t.env hmode (hr hcfg.symm) a (hU hcfg.symm a ha)).trans (hsame a ha)⟩

section

variable {s : State} (hc : DefaultEncodings s.cfg)

include hc

/-- Writes to the output register. -/
theorem sameFile_stableOut {U : Nat → Prop} (hU : ∀ a, U a → ¬ Touches s.cfg s.cfg.regOut a) : StableOut (SameFile U s) where
  toStableTxn := sameFile_transacted s
  out cfg := sameFile_at (by rintro rfl; rw [default_regOut hc]; decide)
    (by rintro rfl; rw [Touches, default_regOut hc, default_regs hc]; decide) (by rintro rfl; exact hU)
  gpio _ _ h := ⟨h.cfg, h.mode, h.same⟩

/-- Writes to the output and the direction register. -/
theorem sameFile_stable {U : Nat → Prop} (hU : ∀ a, U a → ¬ Touches s.cfg s.cfg.regOut a ∧ a ≠ s.cfg.regs.dir) :
    Stable (SameFile U s) where
  toStableOut := sameFile_stableOut hc fun a ha => (hU a ha).1
  dir cfg := sameFile_at (by rintro rfl; rw [default_regs hc]; decide)
    (by rintro rfl; rw [Touches, default_regs hc]; decide)
    (by
      rintro rfl a ha (h | ⟨h, -⟩)
      · exact (hU a ha).2 h
      · rw [default_regs hc] at h; exact absurd h (by decide))
  ddrb _ _ h := ⟨h.cfg, h.mode, h.same⟩
  seq _ _ h := ⟨h.cfg, h.mode, h.same⟩

end

theorem sameFile_end {U : Nat → Prop} {s : State} (op : OpKind) (o : OpOutcome) (t : State) (h : SameFile U s t) :
    SameFile U s (endOperation op o t) := by
  obtain ⟨hcfg, hmode, hsame⟩ := h
  exact ⟨by rw [endOperation_cfg, hcfg], by rw [endOperation_env, endOperation_cfg]; exact hmode,
    by rw [endOperation_env]; exact hsame⟩

theorem sameFile_prepared {U : Nat → Prop} {i : Instr} {s u : State} (hm : NonSequential s.cfg s.env.mem) (hu : Prepared i s u) :
    SameFile U s u := by
  rw [hu.eq]; exact ⟨rfl, hm, fun _ _ => rfl⟩

/-- Settles O49: the writes go to the output and the direction register, and in NORMAL to the direction register only where one
re-arms the poll. -/
theorem expanderFrameOfWritingOperations : Obligations.ExpanderFrameOfWritingOperations := by
  intro i s t hi hc hm hx
  rcases exec_writing i s t hi hx with ⟨rfl, -⟩ | ⟨-, why, rfl⟩ | ⟨-, u, js, hu, rfl, hrearm⟩
  · exact ⟨fun _ _ _ => rfl, fun _ _ _ _ => rfl⟩
  · exact ⟨fun _ _ _ => rfl, fun _ _ _ _ => rfl⟩
  · refine ⟨fun a ha hd => ?_, fun hn hfast a ha => ?_⟩
    · have hstable := sameFile_stable hc (U := fun a => ¬ Touches s.cfg s.cfg.regOut a ∧ a ≠ s.cfg.regs.dir) fun _ => id
      have hend := finish_sat (runJobs_keeps hstable .plain js u (sameFile_prepared hm hu)) (sameFile_end .plain)
      exact hend.same a ⟨ha, hd⟩
    · have hstable := sameFile_stableOut hc (U := fun a => ¬ Touches s.cfg s.cfg.regOut a) fun _ => id
      have hnone := hrearm hc
      rw [hfast, if_neg (by simp)] at hnone
      have hu' := sameFile_prepared (U := fun a => ¬ Touches s.cfg s.cfg.regOut a) hm hu
      have hnu : InNormal u := by rw [hu.eq]; exact hn
      have hend := finish_sat (runJobs_normal_keeps hstable .plain js u hnu (by rw [hu'.cfg]; exact hnone) hu')
        (sameFile_end .plain)
      exact hend.same a ha

end Sys2Proof.Proofs.Deliveries

/-! PROOFS. The expander's register space (20_memory.md): the destination of every transaction (R71). -/

namespace Sys2Proof.Proofs.Destinations

open Sys2Proof.Machine Sys2Proof.Safety Sys2Proof.Laws

/-- From `s` to `t` the history has grown by events addressed by `h`. -/
def AddsTo (h : Option Handle) (s t : State) : Prop := ∃ new, t.history = s.history ++ new ∧ ∀ e ∈ new, e.dest = h

/-- From `s` to `t` the handle was kept or closed, and every new event was addressed by it. -/
def StaysWithHandle (s t : State) : Prop := (t.handle = s.handle ∨ t.handle = none) ∧ AddsTo s.handle s t

theorem addsTo_of_same_history {s t : State} (h : Option Handle) (he : t.history = s.history) : AddsTo h s t :=
  ⟨[], by rw [he, List.append_nil], List.forall_mem_nil _⟩

theorem endOperation_handle (op : OpKind) (o : OpOutcome) (s : State) :
    (endOperation op o s).handle = s.handle ∨ (endOperation op o s).handle = none := by
  cases op with
  | plain => exact .inl rfl
  | release => exact .inr (by rw [endOperation_release])
  | bringUp =>
    by_cases ho : o = .ok
    · subst ho; exact .inl rfl
    · exact .inr (by rw [endOperation_bringUp_failed o ho]; rfl)

theorem staysWithHandle_end {s t : State} (op : OpKind) (o : OpOutcome) (hh : t.handle = s.handle) (h : AddsTo s.handle s t) :
    StaysWithHandle s (endOperation op o t) := by
  rw [StaysWithHandle, AddsTo, endOperation_history, ← hh]
  exact ⟨endOperation_handle op o t, hh ▸ h⟩

/-- A run keeps the handle it began with and addresses its events by it; its end may close the handle. -/
theorem finish_staysWithHandle {s : State} {r : Run} (op : OpKind) (h : Moves s r) : StaysWithHandle s (finish op r) := by
  have clean {t : State} {new : List Event} (he : t.history = s.history ++ new) (hclean : Clean s.handle new) :
      AddsTo s.handle s t := ⟨new, he, fun e hmem => (hclean e hmem).1⟩
  cases r with
  | ok t =>
    obtain ⟨hh, -, new, he, hclean⟩ := h
    exact staysWithHandle_end op .ok hh (clean he hclean)
  | wait t =>
    obtain ⟨hh, -, new, he, hclean⟩ := h
    exact ⟨.inl hh, clean he hclean⟩
  | stop o t =>
    obtain ⟨hh, -, new, he, ⟨n, -, hclean⟩ | ⟨x, before, -, rfl, hclean⟩⟩ := h
    · exact staysWithHandle_end op o hh (clean he hclean)
    · refine staysWithHandle_end op o hh ⟨_, he, fun e hmem => ?_⟩
      rcases List.mem_append.1 hmem with hmem | hmem
      · exact (hclean e hmem).1
      · rw [List.mem_singleton.1 hmem]

/-- An instruction issues nothing, or it stays with the open handle, or it is an INIT that stays with that of its operands. -/
theorem exec_staysWithHandle {i : Instr} {s t : State} (hx : exec i s = .next t) :
    (t.handle = s.handle ∧ t.history = s.history) ∨ ((∀ addr busid, i ≠ .init addr busid) ∧ StaysWithHandle s t) ∨
      ∃ addr busid, i = .init addr busid ∧ StaysWithHandle { s with handle := some ⟨addr.setWidth 7, busid⟩ } t := by
  have notInit (h : isBusOp i = true ∨ writesOnly i = true) : ∀ addr busid, i ≠ .init addr busid := by
    rintro addr busid rfl; rcases h with h | h <;> cases h
  rcases exec_cases i s t hx with ⟨rfl, -⟩ | ⟨-, why, rfl⟩ | ⟨c, rfl⟩ | ⟨bs, rfl⟩ | ⟨-, -, hbus, hrun⟩ |
    ⟨-, -, addr, busid, rfl, -, rfl⟩ | ⟨-, rfl, rfl⟩ | ⟨-, hw, u, js, hu, rfl, -⟩
  · exact .inl ⟨rfl, rfl⟩
  · exact .inl ⟨rfl, rfl⟩
  · exact .inl ⟨rfl, rfl⟩
  · exact .inl ⟨rfl, rfl⟩
  · refine .inr (.inl ⟨notInit (.inl hbus), ?_⟩)
    rcases hrun with ⟨r, v, -, rfl⟩ | ⟨r, bs, -, rfl⟩ | rfl
    · exact finish_staysWithHandle .plain (busWrite1_moves r v s)
    · exact finish_staysWithHandle .plain (busWriteBlk_moves r bs s)
    · exact finish_staysWithHandle .plain (busRead1_moves _ s fun _ _ => moves_same rfl rfl rfl)
  · exact .inr (.inr ⟨addr, busid, rfl, finish_staysWithHandle .bringUp (bringUp_moves _)⟩)
  · exact .inr (.inl ⟨fun _ _ => Instr.noConfusion,
      finish_staysWithHandle .release (moves_from (s := s) rfl rfl rfl (tearDown_moves _))⟩)
  · refine .inr (.inl ⟨notInit (.inr hw), finish_staysWithHandle .plain ?_⟩)
    rw [hu.eq]
    exact moves_from rfl rfl rfl (runJobs_moves .plain js _)

/-- Settles O58: the handle changes before the first transaction of a run or after its last, and every event bears it. -/
theorem transactionsAddressTheHandle : Obligations.TransactionsAddressTheHandle := by
  refine ⟨fun i s t hinit hx => ?_, fun addr busid s t hx => ?_, fun p s t hs hstep => ?_⟩
  · rcases exec_staysWithHandle hx with ⟨hh, he⟩ | ⟨-, h⟩ | ⟨addr, busid, rfl, -⟩
    · exact ⟨.inl hh, addsTo_of_same_history _ he⟩
    · exact h
    · exact absurd rfl (hinit addr busid)
  · rcases exec_staysWithHandle hx with ⟨hh, he⟩ | ⟨hinit, -⟩ | ⟨addr', busid', hi, hh, hadds⟩
    · exact ⟨.inl hh, addsTo_of_same_history _ he⟩
    · exact absurd rfl (hinit addr busid)
    · cases hi; exact ⟨.inr hh, hadds⟩
  · rw [Acceptance.step_polling hs] at hstep
    cases hstep
    exact finish_staysWithHandle p.op (resume_moves p s)

end Sys2Proof.Proofs.Destinations

/-! PROOFS. The expander's register space (20_memory.md): a poll that waits for the device to be ready (R70, R134, R141). -/

namespace Sys2Proof.Proofs.PollExit

open Sys2Proof.Machine Sys2Proof.Safety Sys2Proof.Laws

/-! ## Counting transactions -/

theorem sentBlocks_history_length (cs : List (List Byte)) (s : State) :
    (sentBlocks cs s).history.length = s.history.length + cs.length := by
  induction cs generalizing s with
  | nil => rfl
  | cons c cs ih => rw [sentBlocks, ih]; simp; omega

theorem sentJob_history_length (j : Job) (s : State) :
    (sentJob j s).history.length = s.history.length + jobTxns s.cfg j := by
  have hblocks := sentBlocks_history_length (blockChunks (j.vals.flatMap (enc s.cfg (controlMask s.cfg s.gpio j.isData)))) s
  rw [quadBlocks_length] at hblocks
  rw [sentJob, jobTxns]
  split
  · simp [hblocks]; omega
  · exact hblocks

/-! ## One step of the poll -/

/-- After the iteration of a poll that read `b`, which is not busy, and the direction write that ends the poll (R133). -/
def pollOver (p : Poll) (b : Byte) (s : State) : State := wroteDir (s.ddrb &&& ~~~s.cfg.busyDir) (iterated p.lo p.hi b s)

@[simp] theorem pollOver_cfg (p : Poll) (b : Byte) (s : State) : (pollOver p b s).cfg = s.cfg := by simp [pollOver]
@[simp] theorem pollOver_outcomes (p : Poll) (b : Byte) (s : State) : (pollOver p b s).outcomes = s.outcomes := by simp [pollOver]
@[simp] theorem pollOver_draws (p : Poll) (b : Byte) (s : State) : (pollOver p b s).draws = s.draws.drop 4 := by
  simp [pollOver, List.drop_drop]
@[simp] theorem pollOver_history_length (p : Poll) (b : Byte) (s : State) :
    (pollOver p b s).history.length = s.history.length + 4 := by simp [pollOver]

theorem pollOver_normal (p : Poll) (b : Byte) (s : State) : InNormal (pollOver p b s) := by
  simp [InNormal, pollOver, BitVec.and_assoc]

/-- A step whose read is busy, the poll unbounded: the poll waits, one iteration further (log 4). -/
theorem step_busy {p : Poll} {s : State} {x0 b x2 : Byte} {rest : List Draw} (hs : s.seq = .polling p)
    (hb : busyFlag b = true) (hmax : s.cfg.pollMax = none) (hd : DrawsOk [x0, b, x2] rest s) :
    step s = .next { iterated p.lo p.hi b s with seq := .polling { p with n := p.n + 1 } } := by
  have hgoes : pollGivesUp s.cfg (p.n + 1) = false := by rw [pollGivesUp, hmax]
  rw [Acceptance.step_polling hs, resumeOperation, pollIterate_busy p x0 b x2 rest s hb hgoes hd]
  rfl

/-- A step whose read is not busy, with no further write: the poll is over, the write that waited goes out, the operation
ends. -/
theorem step_exit {p : Poll} {s : State} {x0 b x2 x3 : Byte} {own : List Byte} {rest : List Draw} (hs : s.seq = .polling p)
    (hop : p.op = .plain) (hrest : p.rest = []) (hb : busyFlag b = false) (hlen : own.length = jobTxns s.cfg p.job)
    (hd : DrawsOk ([x0, b, x2, x3] ++ own) rest s) :
    step s = .next (endedOk (sentJob p.job (pollOver p b s))) := by
  have hown : DrawsOk (own ++ []) rest (pollOver p b s) := by
    rw [List.append_nil]
    exact drawsOk_drop 4 hd (by simp) (pollOver_draws p b s)
  rw [Acceptance.step_polling hs, resumeOperation, hop, hrest, pollIterate_exit p x0 b x2 x3 own rest s hb hd, andThen_ok,
    ← pollOver, sendJob_done p.job own [] rest _ hown (by simpa using hlen), andThen_ok]
  rfl

/-! ## The whole poll -/

theorem run_step {s t : Sys2Proof.core.State} (h : Sys2Proof.core.step s = .next t) (n : Nat) :
    Sys2Proof.core.run (n + 1) s = Sys2Proof.core.run n t := by
  rw [Host.Core.run, h]

/-- What a write that waited leaves, sent once the poll is over: NORMAL unless it re-arms (R137). -/
theorem sentJob_normal_iff (j : Job) {s : State} (hn : InNormal s) (hb : s.cfg.busyDir ≠ 0) :
    (sentJob j s).ddrb &&& (sentJob j s).cfg.busyDir = 0 ↔ rearms s.cfg j = false := by
  have hset : (s.ddrb ||| s.cfg.busyDir) &&& s.cfg.busyDir = s.cfg.busyDir := by
    ext i; simp; cases s.ddrb[i] <;> simp
  obtain ⟨hcfg, -, -, -, -, -, hddrb⟩ := sentJob_keeps j s
  rw [hcfg, hddrb]
  cases rearms s.cfg j with
  | false => exact iff_of_true hn rfl
  | true => rw [if_pos rfl, hset]; exact iff_of_false hb (by simp)

/-- Settles O26: by induction on the busy reads, a step each. -/
theorem pollEndsWhenDeviceIsReady : Obligations.PollEndsWhenDeviceIsReady := by
  intro bs own x0 b x2 x3 rest p s hs hmax hop hrest hbusy hbs hb hlen hd
  induction bs generalizing p s with
  | nil =>
    obtain ⟨-, -, -, -, hout, hdraws, -⟩ := sentJob_keeps p.job (pollOver p b s)
    refine ⟨_, run_step (step_exit hs hop hrest hb hlen hd) 0, rfl, ?_, ?_, ?_, ?_⟩
    · simp [hout]
    · simpa using sentJob_normal_iff p.job (pollOver_normal p b s) (by simpa using hbusy)
    · simp [hdraws, hd, busyDraws, ← hlen]
    · simp [sentJob_history_length]; omega
  | cons y bs ih =>
    have hy : busyFlag y = true := hbs y List.mem_cons_self
    have hd' : DrawsOk [0x00, y, 0x00] (busyDraws bs ++ (([x0, b, x2, x3] ++ own).map Draw.ok ++ rest)) s := by
      rw [DrawsOk, hd]; simp [busyDraws]
    obtain ⟨t, hrun, hidle, hout, hdir, hdraws, hhist⟩ := ih (p := { p with n := p.n + 1 })
      (s := { iterated p.lo p.hi y s with seq := .polling { p with n := p.n + 1 } }) rfl (by simpa using hmax) hop hrest
      (by simpa using hbusy) (fun z hz => hbs z (List.mem_cons_of_mem y hz)) (by simpa using hlen) (by simp [hd, busyDraws])
    refine ⟨t, (run_step (step_busy hs hy hmax hd') _).trans hrun, hidle, by simpa using hout, by simpa using hdir, hdraws, ?_⟩
    simp at hhist ⊢
    omega

end Sys2Proof.Proofs.PollExit

/-! PROOFS. The expander's register space (20_memory.md): what is written to the output register is what the controller takes (R54,
R62, R91, R123, R136). -/

namespace Sys2Proof.Proofs.WritesAtController

open Sys2Proof.Machine Sys2Proof.Safety Sys2Proof.Laws Sys2Proof.Proofs.ShadowsAtController Sys2Proof.Proofs.QuadBlocks

/-! ## A write that completes at once -/

/-- Its poll, if any, leaves the controller in step and as it was, and its own transactions run from NORMAL (R131, R143). -/
theorem runPlain_atOnce {j : Job} {s : State} (hc : DefaultEncodings s.cfg) (hS : Synced s)
    (h : CompletesAtOnce (jobTxns s.cfg j) s) :
    ∃ u k, u.cfg = s.cfg ∧ Synced u ∧ InNormal u ∧ u.env.lcd = { s.env.lcd with samples := k } ∧
      runPlain [j] s = endedOk (sentJob j u) := by
  obtain ⟨bytes, rest, hlen, ⟨hn, hd⟩ | ⟨hp, x0, x1, b, x3, x4, hb, hd⟩⟩ := h
  · refine ⟨s, _, rfl, hS, hn, rfl, ?_⟩
    rw [runPlain, runJobs_normal .plain j [] s hn, sendJob_done j bytes [] rest s (by simpa using hd) hlen]; rfl
  · obtain ⟨hlcd, hsync⟩ := polled_synced hc hS hp b
    refine ⟨polled b s, _, polled_cfg b s, hsync, polled_normal b s, hlcd, ?_⟩
    have hown : DrawsOk (bytes ++ []) rest (polled b s) := by
      rw [List.append_nil]; exact drawsOk_drop 5 hd (by simp) (polled_draws b s)
    rw [runPlain, runJobs_polled .plain j [] x0 x1 b x3 x4 bytes rest s hp hb hd,
      sendJob_done j bytes [] rest _ hown (by simpa using hlen)]; rfl

theorem exec_ready_run {i : Instr} {j : Job} {s t : State} (hr : Ready s) (hw : writesOf s i = some (s, [j]))
    (hx : exec i s = .next t) : runPlain [j] s = t := by
  rw [exec_writesOf i s s [j] hw hr] at hx
  cases hx; rfl

theorem synced_endedOk {s : State} (h : Synced s) : Synced (endedOk s) := h

/-! ## A command -/

theorem jobTxns_command (cfg : Params) (c : Byte) : jobTxns cfg (cmdJob c) = if isPollable cfg c then 2 else 1 := by
  rw [jobTxns, rearms_cmd]
  cases isPollable cfg c <;> simp [cmdJob]

theorem sentJob_command (c : Byte) (s : State) :
    sentJob (cmdJob c) s = if isPollable s.cfg c then sentPollable c s else sentCommand c s := by
  have hquad : sentBlocks (blockChunks ((cmdJob c).vals.flatMap (enc s.cfg (controlMask s.cfg s.gpio (cmdJob c).isData)))) s =
      sentCommand c s := by
    simp only [cmdJob, controlMask_command, List.flatMap_singleton, blockChunks_quad]; rfl
  simp only [sentJob, rearms_cmd, hquad]
  rfl

/-- The direction write after a pollable command reaches no level the controller sees (R137). -/
theorem wroteDir_synced {s : State} (hc : DefaultEncodings s.cfg) (hS : Synced s) {d : Byte} (hd : d = 0x00 ∨ d = 0x02) :
    (wroteDir d s).env.lcd = s.env.lcd ∧ Synced (wroteDir d s) := by
  obtain ⟨⟨old, hpins, hold⟩, -, he, hh⟩ := (synced_iff hc).1 hS
  obtain ⟨hpins', hlcd⟩ := deliverDir_pins hc d hpins
  have henv : (wroteDir d s).env = deliver s.cfg s.cfg.regs.dir [d] s.env := rfl
  exact ⟨hlcd, (synced_iff (s := wroteDir d s) hc).2 ⟨⟨old, hpins', hold⟩, hd, by rw [henv, hlcd, he], by rw [henv, hlcd, hh]⟩⟩

/-- A pollable command is clear or home, not a function set (R32, R91). -/
theorem pollable_not_functionSet {cfg : Params} (hc : DefaultEncodings cfg) {c : Byte} (h : isPollable cfg c = true) :
    ∀ n f y, decodeCmd8 c ≠ some (.functionSet true n f y) := by
  rw [isPollable, default_pollable hc] at h
  obtain rfl | rfl : c = 0x01 ∨ c = 0x02 := by simpa using h
  · exact fun n f y h => by cases h
  · exact fun n f y h => by cases h

/-- Any command sent in NORMAL is the command the controller takes. -/
theorem sentJob_command_received {s : State} (hc : DefaultEncodings s.cfg) (hS : Synced s) (hn : InNormal s) (c : Byte) :
    (sentJob (cmdJob c) s).env.lcd = received false c { s.env.lcd with samples := s.env.lcd.samples + 2 } ∧
      ((∀ n f y, decodeCmd8 c ≠ some (.functionSet true n f y)) → Synced (sentJob (cmdJob c) s)) := by
  obtain ⟨hlcd, hsync⟩ := sentCommand_received hc hS hn c
  rw [sentJob_command]
  cases hp : isPollable s.cfg c with
  | false => exact ⟨hlcd, hsync⟩
  | true =>
    have hset : (sentCommand c s).ddrb ||| (sentCommand c s).cfg.busyDir = 0x02 := by
      rw [sentCommand_ddrb, sentCommand_cfg, synced_normal hc hS hn, default_busyDir hc]; rfl
    obtain ⟨hsame, hsync'⟩ := wroteDir_synced (by simpa using hc) (hsync (pollable_not_functionSet hc hp)) (.inr hset)
    exact ⟨hsame.trans hlcd, fun _ => hsync'⟩

/-- Settles O45: after the poll, if any, the quad's two strobe falls are the byte. -/
theorem controllerTakesTheCommand : Obligations.ControllerTakesTheCommand := by
  intro c s t hr hc hS h1 hx
  rw [← jobTxns_command] at h1
  obtain ⟨u, k, hcfg, hSu, hn, hsame, hrun⟩ := runPlain_atOnce hc hS h1
  obtain ⟨hlcd, hsync⟩ := sentJob_command_received (by rwa [hcfg]) hSu hn c
  obtain rfl : endedOk (sentJob (cmdJob c) u) = t := hrun ▸ exec_ready_run hr rfl hx
  rw [hsame] at hlcd
  refine ⟨?_, fun h8 => synced_endedOk (hsync h8)⟩
  rw [endedOk_env, hlcd, (received_keeps _ _ _).2.2]
  rfl

/-! ## Data -/

/-- `l'` is `l` on the same byte boundary of the 4-bit interface after the bytes `bs` as data. -/
structure TookData (bs : List Byte) (l l' : Lcd) : Prop where
  eight : l'.eight = false
  half : l'.half = .even
  received : l'.received = l.received ++ bs.map fun b => (true, b)

theorem pinsRun_append (cfg : Params) (dir old : Byte) (as bs : List Byte) (l : Lcd) :
    pinsRun cfg dir old (as ++ bs) l = pinsRun cfg dir (lastByte old as) bs (pinsRun cfg dir old as l) := by
  induction as generalizing old l with
  | nil => rfl
  | cons a as ih => exact ih a _

theorem lastByte_append (d : Byte) (as bs : List Byte) : lastByte d (as ++ bs) = lastByte (lastByte d as) bs := by
  induction as generalizing d with
  | nil => rfl
  | cons a as ih => exact ih a

section

variable {cfg : Params} (hc : DefaultEncodings cfg)

include hc

/-- A quad ends with the strobe low. -/
theorem lastByte_quad_low (old : Byte) {mask : Byte} (hm : mask &&& 0x7E = 0) (v : Byte) :
    lastByte old (enc cfg mask v) &&& strobe = 0 := by
  rw [lastByte_enc, default_order hc]
  exact (pins_of_quad mask _ 0 hm).2.2.2.2

/-- The quads of some bytes under a data mask, every pin an output and the strobe low: the controller takes them in order. -/
theorem pinsRun_quads {mask : Byte} (hm : mask &&& 0x7E = 0) (hrs : mask.getLsbD 7 = true) (vs : List Byte) {old : Byte} {l : Lcd}
    (ho : old &&& strobe = 0) (he : l.eight = false) (hh : l.half = .even) :
    lastByte old (vs.flatMap (enc cfg mask)) &&& strobe = 0 ∧
      TookData vs l (pinsRun cfg 0x00 old (vs.flatMap (enc cfg mask)) l) := by
  induction vs generalizing old l with
  | nil => exact ⟨ho, he, hh, (List.append_nil _).symm⟩
  | cons v vs ih =>
    have hquad := pinsRun_quad hc hm v ho he hh
    rw [hrs] at hquad
    obtain ⟨hlow, he', hh', hrec⟩ := ih (l := pinsRun cfg 0x00 old (enc cfg mask v) l) (lastByte_quad_low hc old hm v)
      (by rw [hquad]; exact he) (by rw [hquad]; exact hh)
    rw [List.flatMap_cons, lastByte_append, pinsRun_append]
    exact ⟨hlow, he', hh', by rw [hrec, hquad]; simp [received]⟩

end

theorem tookData_trans {as bs : List Byte} {l l' l'' : Lcd} (h : TookData as l l') (h' : TookData bs l' l'') :
    TookData (as ++ bs) l l'' :=
  ⟨h'.eight, h'.half, by rw [h'.received, h.received, List.append_assoc, List.map_append]⟩

/-- A block of the quads of some bytes, every pin an output (R136). -/
theorem wroteBlock_tookData {s : State} (hc : DefaultEncodings s.cfg) (hS : Synced s) (hd : s.ddrb = 0x00) {mask : Byte}
    (hm : mask &&& 0x7E = 0) (hrs : mask.getLsbD 7 = true) (vs : List Byte) (last : Byte) :
    TookData vs s.env.lcd (wroteBlock (vs.flatMap (enc s.cfg mask)) last s).env.lcd ∧
      Synced (wroteBlock (vs.flatMap (enc s.cfg mask)) last s) := by
  obtain ⟨⟨old, hpins, hold⟩, -, he, hh⟩ := (synced_iff hc).1 hS
  rw [hd] at hpins
  obtain ⟨hpins', hlcd⟩ := deliverOut_pins hc (vs.flatMap (enc s.cfg mask)) hpins
  obtain ⟨hlow, htook⟩ := pinsRun_quads hc hm hrs vs hold he hh
  rw [← hlcd] at htook
  refine ⟨htook, (synced_iff (s := wroteBlock _ last s) hc).2 ⟨⟨_, ?_, hlow⟩, .inl hd, htook.eight, htook.half⟩⟩
  rw [wroteBlock_ddrb, hd]
  exact hpins'

/-- The blocks of a data write, one after another: by induction on the bytes, eight at a time. -/
theorem sentBlocks_tookData {s : State} (hc : DefaultEncodings s.cfg) (hS : Synced s) (hd : s.ddrb = 0x00) {mask : Byte}
    (hm : mask &&& 0x7E = 0) (hrs : mask.getLsbD 7 = true) (vs : List Byte) :
    TookData vs s.env.lcd (sentBlocks (blockChunks (vs.flatMap (enc s.cfg mask))) s).env.lcd ∧
      Synced (sentBlocks (blockChunks (vs.flatMap (enc s.cfg mask))) s) := by
  induction h : vs.length using Nat.strong_induction_on generalizing vs s with
  | _ n ih =>
    subst h
    by_cases hv : vs = []
    · have ⟨_, _, _, _, he, hh⟩ := hS
      subst hv
      exact ⟨⟨he, hh, (List.append_nil _).symm⟩, hS⟩
    · have hpos : 0 < vs.length := List.length_pos_iff.2 hv
      rw [blockChunks_quads s.cfg mask hv, sentBlocks]
      generalize lastByte s.gpio ((vs.take 8).flatMap (enc s.cfg mask)) = last
      obtain ⟨htook, hsync⟩ := wroteBlock_tookData hc hS hd hm hrs (vs.take 8) last
      obtain ⟨htook', hsync'⟩ := ih (vs.drop 8).length (by rw [List.length_drop]; omega)
        (s := wroteBlock ((vs.take 8).flatMap (enc s.cfg mask)) last s) hc hsync hd (vs.drop 8) rfl
      have hall := tookData_trans htook htook'
      rw [List.take_append_drop] at hall
      exact ⟨hall, hsync'⟩

theorem dataMask_bits (g : Byte) : ((g &&& shared) ||| 0x80) &&& 0x7E = 0 ∧ ((g &&& shared) ||| 0x80).getLsbD 7 = true := by
  revert g; decide +kernel

theorem jobTxns_data (cfg : Params) (bs : List Byte) : jobTxns cfg (dataJob bs) = (bs.length + 7) / 8 := by
  rw [jobTxns, rearms_data, if_neg Bool.false_ne_true]; rfl

/-- Settles O46: after the poll, if any, every quad of every block is a byte of data. -/
theorem controllerTakesTheData : Obligations.ControllerTakesTheData := by
  intro bs s t hr hc hS h1 hx
  rw [← jobTxns_data s.cfg] at h1
  obtain ⟨u, k, hcfg, hSu, hn, hsame, hrun⟩ := runPlain_atOnce hc hS h1
  have hcu : DefaultEncodings u.cfg := by rwa [hcfg]
  have hsent : sentJob (dataJob bs) u = sentBlocks (blockChunks (bs.flatMap (enc u.cfg ((u.gpio &&& shared) ||| 0x80)))) u := by
    rw [sentJob, rearms_data, ← default_rsBit hcu]; rfl
  obtain ⟨hm, hrs⟩ := dataMask_bits u.gpio
  obtain ⟨htook, hsync⟩ := sentBlocks_tookData hcu hSu (synced_normal hcu hSu hn) hm hrs bs
  obtain rfl : endedOk (sentJob (dataJob bs) u) = t := hrun ▸ exec_ready_run hr rfl hx
  rw [endedOk_env, hsent]
  exact ⟨by rw [htook.received, hsame], synced_endedOk hsync⟩

end Sys2Proof.Proofs.WritesAtController

/-! PROOFS. The encodings (30_encoding.md): every packet decodes to the instruction it was written from (R81, R91, R92, R95). -/

namespace Sys2Proof.Proofs.PacketRoundTrip

open Sys2Proof.Laws

/-- Settles O2: the round trip of each instruction, the operands read back by the laws of the operand layouts. -/
theorem decodeOfEncode : Obligations.DecodeOfEncode := by
  intro o i hw
  cases i with
  -- host operations (R92)
  | init addr busid => exact RoundTrip.init addr busid o hw
  | teardown => exact RoundTrip.teardown o hw
  | writeCmd c => exact RoundTrip.writeCmd c o hw
  | writeData bs => exact RoundTrip.writeData bs o hw
  | clear => exact RoundTrip.clear o hw
  | home => exact RoundTrip.home o hw
  | displayOn => exact RoundTrip.displayOn o hw
  | displayOff => exact RoundTrip.displayOff o hw
  | cursorOn => exact RoundTrip.cursorOn o hw
  | cursorOff => exact RoundTrip.cursorOff o hw
  | blinkOn => exact RoundTrip.blinkOn o hw
  | blinkOff => exact RoundTrip.blinkOff o hw
  | toggleCursor => exact RoundTrip.toggleCursor o hw
  | toggleBlink => exact RoundTrip.toggleBlink o hw
  | scrollLeft => exact RoundTrip.scrollLeft o hw
  | scrollRight => exact RoundTrip.scrollRight o hw
  | leftToRight => exact RoundTrip.leftToRight o hw
  | rightToLeft => exact RoundTrip.rightToLeft o hw
  | autoscrollOn => exact RoundTrip.autoscrollOn o hw
  | autoscrollOff => exact RoundTrip.autoscrollOff o hw
  | setCursor col row => exact RoundTrip.setCursor col row o hw
  | defineGlyph slot bm => exact RoundTrip.defineGlyph slot bm o hw
  | writeText text => exact RoundTrip.writeText text o hw
  -- transaction records (R95)
  | busWrite1 r v => exact RoundTrip.busWrite1 r v o hw
  | busWriteBlk r bs => exact RoundTrip.busWriteBlk r bs o hw
  | busRead1 => exact RoundTrip.busRead1 o hw
  -- the quad (R81)
  | encodeNybbles mask v => exact RoundTrip.encodeNybbles mask v o hw
  -- command bytes (R91)
  | ctlSetDdram a => exact RoundTrip.ctlSetDdram a o hw
  | ctlSetCgram a => exact RoundTrip.ctlSetCgram a o hw
  | ctlFunctionSet d n f x => exact RoundTrip.ctlFunctionSet d n f x o hw
  | ctlShift m r x => exact RoundTrip.ctlShift m r x o hw
  | ctlDisplayControl d c b => exact RoundTrip.ctlDisplayControl d c b o hw
  | ctlEntryMode i m => exact RoundTrip.ctlEntryMode i m o hw
  | ctlHome x => exact RoundTrip.ctlHome x o hw
  | ctlClear => exact RoundTrip.ctlClear o hw

/-- A packet that a well-formed instruction is written as decodes to it. -/
theorem decode_of_encode_eq {o : NybbleOrder} {i : Instr} {p : Packet} (hw : i.wellFormed = true) (hp : encode o i = p) :
    decode o p = .ok i :=
  hp ▸ decodeOfEncode o i hw

/-- Settles O1: each of the written-out words is the packet of its instruction. -/
theorem specWordsDecode : Obligations.SpecWordsDecode :=
  ⟨decode_of_encode_eq rfl rfl, decode_of_encode_eq rfl rfl, decode_of_encode_eq rfl rfl, decode_of_encode_eq rfl rfl,
    decode_of_encode_eq rfl rfl, decode_of_encode_eq rfl rfl, decode_of_encode_eq rfl rfl, decode_of_encode_eq rfl rfl,
    decode_of_encode_eq rfl rfl, decode_of_encode_eq rfl rfl⟩

end Sys2Proof.Proofs.PacketRoundTrip

/-! PROOFS. The encodings (30_encoding.md): requests at the host's port, those that name an operation and those that name none (R92,
R96, R205, R214). -/

namespace Sys2Proof.Proofs.HostRequests

open Sys2Proof.Machine Sys2Proof.Safety Sys2Proof.Laws Sys2Proof.Proofs.Acceptance

/-! ## The operation of a code -/

/-- If a decoder's answer `r` is an instruction, it is the host operation of code `c`. -/
def HasCode (c : Byte) (r : Except DecodeError (Instr × List Byte)) : Prop :=
  ∀ i rest, r = .ok (i, rest) → hostCode i = some c

theorem hasCode_ok {c : Byte} {i : Instr} (rest : List Byte) (h : hostCode i = some c) : HasCode c (.ok (i, rest)) := by
  intro j rest' e
  cases e
  exact h

theorem hasCode_error (c : Byte) (e : DecodeError) : HasCode c (.error e) := by
  intro i rest h
  cases h

/-! A decoder of operands builds only its own operation. -/

theorem decInit_hasCode (ops : List Byte) : HasCode 0x00 (decInit ops) := by
  unfold decInit
  split
  · exact hasCode_error _ _
  · split
    · exact hasCode_ok _ rfl
    · exact hasCode_error _ _

theorem decWriteCmd_hasCode (ops : List Byte) : HasCode 0x02 (decWriteCmd ops) := by
  cases ops with
  | nil => exact hasCode_error _ _
  | cons c rest => exact hasCode_ok _ rfl

theorem decWriteData_hasCode (ops : List Byte) : HasCode 0x03 (decWriteData ops) := by
  unfold decWriteData
  split
  · exact hasCode_ok _ rfl
  · exact hasCode_error _ _

theorem decSetCursor_hasCode (ops : List Byte) : HasCode 0x20 (decSetCursor ops) := by
  unfold decSetCursor
  split
  · split
    · exact hasCode_ok _ rfl
    · exact hasCode_error _ _
  · exact hasCode_error _ _

theorem decDefineGlyph_hasCode (ops : List Byte) : HasCode 0x21 (decDefineGlyph ops) := by
  unfold decDefineGlyph
  split
  · exact hasCode_error _ _
  · split
    · exact hasCode_ok _ rfl
    · exact hasCode_error _ _

theorem decWriteText_hasCode (ops : List Byte) : HasCode 0x22 (decWriteText ops) := by
  unfold decWriteText
  split
  · exact hasCode_ok _ rfl
  · exact hasCode_error _ _

/-- The decoder of the host's port goes by the first byte alone (R92). -/
theorem decodeHost_hasCode (code : Byte) (ops : List Byte) : HasCode code (decodeHost (code :: ops)) := by
  have of_number {k : Nat} {r : Except DecodeError (Instr × List Byte)} (hk : code.toNat = k)
      (hr : HasCode (BitVec.ofNat 8 k) r) : HasCode code r := by
    rwa [← hk, BitVec.ofNat_toNat, BitVec.setWidth_eq] at hr
  rw [decodeHost]
  split
  case h_1 hk => exact of_number hk (decInit_hasCode ops)
  case h_3 hk => exact of_number hk (decWriteCmd_hasCode ops)
  case h_4 hk => exact of_number hk (decWriteData_hasCode ops)
  case h_21 hk => exact of_number hk (decSetCursor_hasCode ops)
  case h_22 hk => exact of_number hk (decDefineGlyph_hasCode ops)
  case h_23 hk => exact of_number hk (decWriteText_hasCode ops)
  case h_24 => exact hasCode_error _ _
  all_goals
    rename_i hk
    exact of_number hk (hasCode_ok ops rfl)

/-- A packet that decodes to an instruction is that instruction's bytes and nothing more. -/
theorem decodeAt_of_decode {o : NybbleOrder} {p : Packet} {i : Instr} (h : decode o p = .ok i) :
    decodeAt o p.port p.bytes = .ok (i, []) := by
  rw [decode] at h
  split at h
  · rename_i j hd
    cases h
    exact hd
  · cases h
  · cases h

/-- Settles O3: by cases on the request, which has a first byte, and that byte is the operation's code. -/
theorem hostPortDecodesByCode : Obligations.HostPortDecodesByCode := by
  intro o bytes i h
  have hd : decodeHost bytes = .ok (i, []) := decodeAt_of_decode h
  cases bytes with
  | nil => cases hd
  | cons code ops => exact ⟨code, rfl, decodeHost_hasCode code ops i [] hd⟩

/-! ## A request that names none -/

/-- Settles O6: the step takes the request off the queue, and what does not decode at the host's port is refused. -/
theorem unknownRequestRefused : Obligations.UnknownRequestRefused := by
  intro s bytes rest e hs hi hd
  calc step s
    _ = runPacket ⟨.host, bytes⟩ { s with inbox := rest } := step_request hs hi
    _ = .next (rejectPacket .host { s with inbox := rest }) := runPacket_rejected (s := { s with inbox := rest }) hd
    _ = .next (refusedAs .notAnOperation { s with inbox := rest }) := congrArg Host.Outcome.next (refuse_eq _ _)

end Sys2Proof.Proofs.HostRequests

/-! PROOFS. The encodings (30_encoding.md): the command bytes, as the controller reads them and as the display operations write them
(R90, R91, R192). -/

namespace Sys2Proof.Proofs.CommandBytes

open Sys2Proof.Machine Sys2Proof.Safety Sys2Proof.Laws

/-- Settles O4: each pattern is the byte its command is written as, and 00000000 has no bit set to decode by. -/
theorem commandByteMap : Obligations.CommandByteMap :=
  ⟨fun a => decodeCmd8_encodeCmd8 (.setDdram a), fun a => decodeCmd8_encodeCmd8 (.setCgram a),
    fun d n f x => decodeCmd8_encodeCmd8 (.functionSet d n f x), fun s r x => decodeCmd8_encodeCmd8 (.shift s r x),
    fun d c b => decodeCmd8_encodeCmd8 (.displayControl d c b), fun i s => decodeCmd8_encodeCmd8 (.entryMode i s),
    fun x => decodeCmd8_encodeCmd8 (.home x), decodeCmd8_encodeCmd8 .clear, rfl⟩

/-- The instruction of a CMD8 row is executed by the controller alone (R91). -/
theorem exec_ctlInstr (c : LcdCmd) (s : State) : exec (ctlInstr c) s = .next (atController c s) := by
  cases c <;> rfl

/-- Settles O44: each instruction is its command at the controller, which writes the registers of its kind. -/
theorem controllerCommands : Obligations.ControllerCommands := fun s =>
  ⟨fun a => exec_ctlInstr (.setDdram a) s, fun a => exec_ctlInstr (.setCgram a) s,
    fun d n f x => exec_ctlInstr (.functionSet d n f x) s, fun m r x => exec_ctlInstr (.shift m r x) s,
    fun d c b => exec_ctlInstr (.displayControl d c b) s, fun i m => exec_ctlInstr (.entryMode i m) s,
    fun x => exec_ctlInstr (.home x) s, exec_ctlInstr .clear s⟩

/-! A row of the table of R192: the new value of the shadow, and under the default encodings the command byte that carries it. -/

theorem control_row {s : State} (h : DefaultEncodings s.cfg) {v w : Byte} (hv : v = w) :
    some (s.cfg.cmdDisplay ||| v, { s with displaycontrol := v }) = some ((0x08 : Byte) ||| w, { s with displaycontrol := w }) := by
  rw [hv, default_cmdDisplay h]

theorem mode_row {s : State} (h : DefaultEncodings s.cfg) {v w : Byte} (hv : v = w) :
    some (s.cfg.cmdEntry ||| v, { s with displaymode := v }) = some ((0x04 : Byte) ||| w, { s with displaymode := w }) := by
  rw [hv, default_cmdEntry h]

theorem shift_row {s : State} (h : DefaultEncodings s.cfg) {v w : Byte} (hv : v = w) :
    some (s.cfg.cmdShift ||| v, { s with displayshift := v }) = some ((0x10 : Byte) ||| w, { s with displayshift := w }) := by
  rw [hv, default_cmdShift h]

theorem isPollable_default {cfg : Params} (h : DefaultEncodings cfg) (c : Byte) :
    isPollable cfg c = decide (c ∈ ([0x01, 0x02] : List Byte)) := by
  rw [isPollable, default_pollable h]

/-- Settles O38: row by row, the flag of the operation at its default value. -/
theorem expansionTable : Obligations.ExpansionTable := by
  intro s h
  have display := default_flagDisplayOn h
  have cursor := default_flagCursorOn h
  have blink := default_flagBlinkOn h
  have move := default_flagDisplayMove h
  have right := default_flagMoveRight h
  have left := default_flagEntryLeft h
  have scroll := default_flagEntryShift h
  refine ⟨rfl, ?_, ?_, ?_, ?_, ?_, ?_, ?_, ?_, ?_, ?_, ?_, ?_, ?_, ?_, ?_, ?_, ?_, ?_⟩
  · rw [oneCommand, default_cmdHome h]
  -- the rows of `displaycontrol`
  · exact control_row h (by rw [display])
  · exact control_row h (by rw [display]; rfl)
  · exact control_row h (by rw [cursor])
  · exact control_row h (by rw [cursor]; rfl)
  · exact control_row h (by rw [blink])
  · exact control_row h (by rw [blink]; rfl)
  · exact control_row h (by rw [cursor])
  · exact control_row h (by rw [blink])
  -- the rows of `displayshift`
  · exact shift_row h move
  · exact shift_row h (w := 0x0C) (by rw [move, right]; rfl)
  -- the rows of `displaymode`
  · exact mode_row h (by rw [left])
  · exact mode_row h (by rw [left]; rfl)
  · exact mode_row h (by rw [scroll])
  · exact mode_row h (by rw [scroll]; rfl)
  -- the pollable commands
  · rw [isPollable_default h]; rfl
  · rw [isPollable_default h]; rfl
  · rw [isPollable_default h]; rfl

end Sys2Proof.Proofs.CommandBytes

/-! PROOFS. The bus layer (40_bus_layer.md): what a step reports fits what it did on the bus (R110, R200, R201, R205, R210). -/

namespace Sys2Proof.Proofs.Reports

open Sys2Proof.Machine Sys2Proof.Safety Sys2Proof.Laws Sys2Proof.Proofs.OperationEnds

theorem reported_unchanged {s t : State} (hh : t.history = s.history) (ho : t.outcomes = s.outcomes) : Reported s t :=
  ⟨[], by rw [hh, List.append_nil], .inl ⟨ho, List.forall_mem_nil _⟩⟩

/-- A refusal comes before any transaction (R205). -/
theorem reported_refused (why : RefuseReason) (s : State) : Reported s (refusedAs why s) :=
  ⟨[], (List.append_nil _).symm, .inr (.inr (.inr (.inl ⟨why, rfl, rfl⟩)))⟩

/-- An operation's change of handle, phase or shadows before its run is no report and no transaction. -/
theorem reported_from {s u t : State} (hh : u.history = s.history) (ho : u.outcomes = s.outcomes) (h : Reported u t) :
    Reported s t := by
  rwa [Reported, hh, ho] at h

/-! ## How a run is reported -/

/-- A run that adds to the history as `Moves` says and reports nothing itself is reported by its end (R200, R210). -/
theorem finish_reported {s : State} {r : Run} (op : OpKind) (hm : Moves s r) (hk : Sat (SameReport s) r) :
    Reported s (finish op r) := by
  have completed {new : List Event} (hclean : Clean s.handle new) : ∀ e ∈ new, e.ended ≠ .failed :=
    fun e he => (hclean e he).2
  cases r with
  | ok t =>
    obtain ⟨-, -, new, hhist, hclean⟩ := hm
    rw [finish_ok, Reported, endOperation_history, endOperation_outcomes, hk.outcomes]
    exact ⟨new, hhist, .inr (.inl ⟨rfl, completed hclean⟩)⟩
  | wait t =>
    obtain ⟨-, -, new, hhist, hclean⟩ := hm
    exact ⟨new, hhist, .inl ⟨hk.outcomes, completed hclean⟩⟩
  | stop o t =>
    rw [finish_stop, Reported, endOperation_history, endOperation_outcomes, hk.outcomes]
    obtain ⟨-, -, new, hhist, ⟨n, rfl, hclean⟩ | ⟨x, before, rfl, rfl, hclean⟩⟩ := hm
    · exact ⟨new, hhist, .inr (.inr (.inl ⟨n, rfl, completed hclean⟩))⟩
    · exact ⟨_, hhist, .inr (.inr (.inr (.inr ⟨x, s.handle, before, rfl, rfl, completed hclean⟩)))⟩

/-- A delivery reports nothing. -/
theorem sameReport_at (s : State) (cfg : Params) (r : Nat) : StableAt (SameReport s) cfg r :=
  fun _ _ _ h => ⟨h.phase, h.outcomes⟩

theorem sameReport_refl (s : State) : SameReport s s := ⟨rfl, rfl⟩

/-! ## Every instruction, every step -/

theorem busWrite1_reported (r : Nat) (v : Byte) (s : State) : Reported s (finish .plain (busWrite1 r v s)) :=
  finish_reported .plain (busWrite1_moves r v s)
    (busWrite1_keeps (sameReport_stable s).toStableTxn r v s (sameReport_at s _ r) (sameReport_refl s))

theorem busWriteBlk_reported (r : Nat) (bs : List Byte) (s : State) : Reported s (finish .plain (busWriteBlk r bs s)) :=
  finish_reported .plain (busWriteBlk_moves r bs s)
    (busWriteBlk_keeps (sameReport_stable s).toStableTxn r bs s (sameReport_at s _ r) (sameReport_refl s))

theorem busRead1_reported (s : State) :
    Reported s (finish .plain (busRead1 s fun b u => .ok { u with result := [b] })) :=
  finish_reported .plain (busRead1_moves _ s fun _ _ => moves_same rfl rfl rfl)
    (busRead1_keeps (sameReport_stable s).toStableTxn _ s (sameReport_refl s) fun _ _ h => ⟨h.phase, h.outcomes⟩)

theorem bringUp_reported (s : State) : Reported s (finish .bringUp (bringUp s)) :=
  finish_reported .bringUp (bringUp_moves s) (bringUp_sameReport s)

theorem tearDown_reported (s : State) : Reported s (finish .release (tearDown s)) :=
  finish_reported .release (tearDown_moves s)
    (tearDown_keeps (sameReport_stable s).toStableTxn (sameReport_at s) s (sameReport_refl s))

theorem runPlain_reported (js : List Job) (s : State) : Reported s (runPlain js s) :=
  finish_reported .plain (runJobs_moves .plain js s) (runJobs_keeps (sameReport_stable s) .plain js s (sameReport_refl s))

theorem resumeOperation_reported (p : Poll) (s : State) : Reported s (resumeOperation p s) :=
  finish_reported p.op (resume_moves p s) (resume_keeps (sameReport_stable s) p s (sameReport_refl s))

theorem exec_reported {i : Instr} {s t : State} (hx : exec i s = .next t) : Reported s t := by
  rcases exec_cases i s t hx with ⟨rfl, -⟩ | ⟨-, why, rfl⟩ | ⟨c, rfl⟩ | ⟨bs, rfl⟩ | ⟨-, -, -, hbus⟩ |
    ⟨-, -, addr, busid, -, -, rfl⟩ | ⟨-, -, rfl⟩ | ⟨-, -, u, js, hu, rfl, -⟩
  · exact reported_unchanged rfl rfl
  · exact reported_refused why s
  · exact reported_unchanged rfl rfl
  · exact reported_unchanged rfl rfl
  · rcases hbus with ⟨r, v, -, rfl⟩ | ⟨r, bs, -, rfl⟩ | rfl
    · exact busWrite1_reported r v s
    · exact busWriteBlk_reported r bs s
    · exact busRead1_reported s
  · exact reported_from rfl rfl (bringUp_reported _)
  · exact reported_from rfl rfl (tearDown_reported _)
  · obtain ⟨-, -, -, -, -, hh, ho⟩ := prepared_keeps hu
    exact reported_from hh ho (runPlain_reported js u)

/-- Settles O57: every run reports by its end alone, so the end's outcome fits what the run added to the history; a step that is no
run refuses, or reports nothing. -/
theorem outcomesFitTheHistory : Obligations.OutcomesFitTheHistory := by
  intro s t hstep
  rcases step_cases s t hstep with ⟨p, -, rfl⟩ | ⟨-, -, rfl⟩ | ⟨p, rest, -, -, ⟨i, -, hx⟩ | ⟨-, rfl⟩⟩
  · exact resumeOperation_reported p s
  · exact reported_unchanged rfl rfl
  · exact reported_from (u := { s with inbox := rest }) rfl rfl (exec_reported hx)
  · rcases rejectPacket_cases p.port { s with inbox := rest } with he | he <;> rw [he]
    · exact reported_unchanged rfl rfl
    · exact reported_from rfl rfl (reported_refused .notAnOperation _)

end Sys2Proof.Proofs.Reports

/-! PROOFS. The bus layer (40_bus_layer.md): how a payload is cut into blocks (R59, R112, R136, R141). -/

namespace Sys2Proof.Proofs.Blocks

open Sys2Proof.Machine Sys2Proof.Laws

/-- Induction along the blocks of a payload: none, or a first block and the blocks of what is left. -/
theorem blocks_induction {motive : List Byte → Prop} (nil : motive [])
    (cons : ∀ bs, bs ≠ [] → motive (bs.drop blockMax) → motive bs) (bs : List Byte) : motive bs := by
  induction h : bs.length using Nat.strong_induction_on generalizing bs with
  | _ n ih =>
    subst h
    by_cases hb : bs = []
    · rw [hb]; exact nil
    · have hpos : 0 < bs.length := List.length_pos_iff.2 hb
      have hshorter : (bs.drop blockMax).length < bs.length := by rw [List.length_drop, blockMax]; omega
      exact cons bs hb (ih _ hshorter _ rfl)

theorem blockChunks_flatten (bs : List Byte) : (blockChunks bs).flatten = bs := by
  induction bs using blocks_induction with
  | nil => rfl
  | cons bs hb ih => rw [blockChunks_cons bs hb, List.flatten_cons, ih, List.take_append_drop]

theorem blockChunks_length (bs : List Byte) : (blockChunks bs).length = (bs.length + 31) / 32 := by
  induction bs using blocks_induction with
  | nil => rfl
  | cons bs hb ih =>
    have hpos : 0 < bs.length := List.length_pos_iff.2 hb
    rw [blockChunks_cons bs hb, List.length_cons, ih, List.length_drop, blockMax]
    omega

theorem blockChunks_ne_nil {bs : List Byte} (h : bs ≠ []) : blockChunks bs ≠ [] := by
  rw [blockChunks_cons bs h]; exact List.cons_ne_nil _ _

/-- A block that another follows is full. -/
theorem blockChunks_dropLast_full (bs : List Byte) : ∀ c ∈ (blockChunks bs).dropLast, c.length = blockMax := by
  induction bs using blocks_induction with
  | nil => exact List.forall_mem_nil _
  | cons bs hb ih =>
    by_cases hl : bs.length ≤ blockMax
    · rw [blockChunks_one bs hb hl]; exact List.forall_mem_nil _
    · have hmore : bs.drop blockMax ≠ [] := by rw [Ne, List.drop_eq_nil_iff]; exact hl
      have hfull : (bs.take blockMax).length = blockMax := List.length_take_of_le (Nat.le_of_not_le hl)
      rw [blockChunks_cons bs hb, List.dropLast_cons_of_ne_nil (blockChunks_ne_nil hmore)]
      exact List.forall_mem_cons.2 ⟨hfull, ih⟩

/-- Settles O15: each law of the blocks goes block after block, and a write's payload has four bytes for each value. -/
theorem blocksOfAPayload : Obligations.BlocksOfAPayload := by
  intro bs
  have hsizes : ∀ c ∈ blockChunks bs, 1 ≤ c.length ∧ c.length ≤ 32 := fun c hc =>
    have ⟨hne, hle⟩ := blockChunks_sizes bs c hc
    ⟨List.length_pos_iff.2 hne, hle⟩
  exact ⟨blockChunks_flatten bs, hsizes, blockChunks_dropLast_full bs, blockChunks_length bs,
    fun cfg mask => ⟨quads_length cfg mask bs, quadBlocks_length cfg mask bs⟩⟩

end Sys2Proof.Proofs.Blocks

/-! PROOFS. The bus layer (40_bus_layer.md): the three micro-operations as they complete and as they fail (R55, R60, R110 to R113,
R201). -/

namespace Sys2Proof.Proofs.MicroOperations

open Sys2Proof.Machine Sys2Proof.Safety Sys2Proof.Laws

/-! ## How a micro-operation is admitted and how it ends -/

section

variable {s : State} (hs : s.seq = .idle) (hh : s.handle ≠ none)

include hs hh

/-- An idle block with an open handle runs a micro-operation on any register of the expander (R25, R30). -/
theorem gate_open {r : Nat} (hr : r ≤ 10) (f : State → State) : whenIdle (whenAddressable r f) s = f s := by
  rw [whenIdle_idle _ s hs, Acceptance.whenAddressable_open f hh hr]

theorem exec_busWrite1 {r : Nat} (hr : r ≤ 10) (v : Byte) :
    exec (.busWrite1 r v) s = .next (finish .plain (busWrite1 r v s)) :=
  congrArg Host.Outcome.next (gate_open hs hh hr _)

theorem exec_busWriteBlk {r : Nat} {bs : List Byte} (hr : r ≤ 10) (hb : bs ≠ []) :
    exec (.busWriteBlk r bs) s = .next (finish .plain (busWriteBlk r bs s)) := by
  have hne : ¬ bs.isEmpty = true := by rwa [List.isEmpty_iff]
  exact congrArg Host.Outcome.next ((gate_open hs hh hr _).trans (if_neg hne))

theorem exec_busRead1 :
    exec .busRead1 s = .next (finish .plain (busRead1 s fun b u => .ok { u with result := [b] })) :=
  congrArg Host.Outcome.next (gate_open hs hh (Nat.zero_le 10) _)

end

theorem finish_plain_ok (s : State) : finish .plain (.ok s) = endedOk s := rfl

/-- The end of an operation whose transaction failed (R201): the draw is taken, the event marked, the error names it. -/
theorem finish_plain_failed {s : State} {d : Draw} {ds : List Draw} (h : s.draws = d :: ds) (x : Txn) (e : Env) :
    finish .plain (.stop (.commError x)
      { s with draws := ds, history := s.history ++ [⟨s.handle, x, .failed⟩], env := e }) = commFailed x e s := by
  rw [finish_stop, endOperation_plain, commFailed, h, List.drop_one, List.tail_cons]

/-! ## One byte -/

/-- The delivery of no bytes stores nothing, in either mode. -/
theorem deliver_nil_mem (cfg : Params) (r : Nat) (e : Env) : (deliver cfg r [] e).mem = e.mem := by
  unfold deliver
  split <;> rfl

/-- Of a single byte nothing or everything arrives (R60, R111). -/
theorem deliverPart_one_mem (cfg : Params) (k : Option Nat) {r : Nat} (v : Byte) (e : Env) (hr : r < nregs) :
    (deliverPart cfg k r [v] e).mem = e.mem ∨ (deliverPart cfg k r [v] e).mem = storeFile cfg r v e.mem := by
  rcases deliverPart_cases cfg k r [v] e with he | ⟨n, he⟩ <;> rw [he]
  · exact .inl rfl
  · cases n with
    | zero => exact .inl (deliver_nil_mem cfg r e)
    | succ n =>
      rw [List.take_succ_cons, List.take_nil]
      exact .inr (deliver_one_mem cfg r v e hr)

/-- Settles O10: one draw decides; a completed byte is stored in its register in either mode, and a failed one is stored or not. -/
theorem busWrite1Completes : Obligations.BusWrite1Completes := by
  intro r v s ds hs hh hr
  have hin : r < nregs := Nat.lt_succ_of_le hr
  rw [exec_busWrite1 hs hh hr]
  refine ⟨fun b hd => ⟨?_, ?_, fun hmode => ?_, fun hmode => ?_⟩, fun k hd => ⟨?_, ?_, fun a ha => ?_⟩⟩
  · rw [busWrite1_done hd, finish_plain_ok]
  · rw [wrote_env, deliver_one_mem _ _ _ _ hin, memRead_storeFile_same]
  · rw [wrote_env, deliver_nonseq _ _ _ _ hmode, storeSame_ptr]
  · rw [wrote_env, deliver_seq _ _ _ _ hmode, storeSeq_ptr]; rfl
  · rw [busWrite1_failed hd, finish_plain_failed hd]
  · rcases deliverPart_one_mem s.cfg k v s.env hin with he | he <;> rw [he]
    · exact .inl rfl
    · exact .inr (memRead_storeFile_same ..)
  · rcases deliverPart_one_mem s.cfg k v s.env hin with he | he <;> rw [he]
    exact memRead_storeFile_other _ _ _ _ _ ha

/-! ## Blocks -/

/-- Settles O11: as many draws complete as there are blocks. -/
theorem busWriteBlkCompletes : Obligations.BusWriteBlkCompletes := by
  intro r bs bytes s rest hs hh hr hb hd hl
  rw [← Blocks.blockChunks_length] at hl
  rw [exec_busWriteBlk hs hh hr hb, busWriteBlk, busWriteChunks_done r _ bytes rest s hd hl, finish_plain_ok]

@[simp] theorem wroteChunks_cfg (r : Nat) (cs : List (List Byte)) (s : State) : (wroteChunks r cs s).cfg = s.cfg := by
  induction cs generalizing s with
  | nil => rfl
  | cons c cs ih => rw [wroteChunks, ih, wrote_cfg]

@[simp] theorem wroteChunks_draws (r : Nat) (cs : List (List Byte)) (s : State) :
    (wroteChunks r cs s).draws = s.draws.drop cs.length := by
  induction cs generalizing s with
  | nil => rfl
  | cons c cs ih => rw [wroteChunks, ih, wrote_draws, List.drop_drop, List.length_cons, Nat.add_comm]

theorem busWriteChunks_append (r : Nat) (cs more : List (List Byte)) (s : State) :
    busWriteChunks r (cs ++ more) s = andThen (busWriteChunks r cs s) (busWriteChunks r more) := by
  induction cs generalizing s with
  | nil => rfl
  | cons c cs ih => rw [List.cons_append, busWriteChunks, busWriteChunks, andThen_assoc, funext ih]

/-- Settles O12: the blocks before it complete, and the one that fails stops the run. -/
theorem busWriteBlkStopsAtFailure : Obligations.BusWriteBlkStopsAtFailure := by
  intro r sent unsent c bs bytes k s rest hs hh hr hcut hd hl
  have hb : bs ≠ [] := by rintro rfl; simp at hcut
  have hnack : (wroteChunks r sent s).draws = .nack k :: rest := by
    rw [wroteChunks_draws, hd, List.drop_left' (by rw [List.length_map, hl])]
  have hsent : busWriteChunks r sent s = .ok (wroteChunks r sent s) := busWriteChunks_done r sent bytes _ s hd hl
  rw [exec_busWriteBlk hs hh hr hb, busWriteBlk, hcut, busWriteChunks_append, hsent, andThen_ok, busWriteChunks,
    busWriteChunk_failed hnack, andThen_stop, finish_plain_failed hnack, wroteChunks_cfg]

/-! ## The read -/

/-- Settles O13: one draw decides, and a read leaves the expander as it is. -/
theorem busRead1Completes : Obligations.BusRead1Completes := by
  intro s ds hs hh
  rw [exec_busRead1 hs hh]
  refine ⟨fun b hd => ?_, fun k hd => ?_⟩
  · rw [busRead1_done hd, finish_plain_ok]
  · rw [busRead1_failed hd]
    exact congrArg Host.Outcome.next (finish_plain_failed hd .r1 s.env)

end Sys2Proof.Proofs.MicroOperations

/-! PROOFS. The nybble encoder (41_nybble_encoder.md): the four bytes of a value (R120) and what the source requires of them
(R122). -/

namespace Sys2Proof.Proofs.NybbleEncoder

open Sys2Proof.Machine

/-! ## The answer of the encoder -/

theorem exec_encodeNybbles (mask v : Byte) (s : State) :
    exec (.encodeNybbles mask v) s = .next { s with result := enc s.cfg mask v } := rfl

/-- Each nybble of the value with the strobe raised, then with the strobe low (R120). -/
theorem enc_eq (cfg : Params) (mask v : Byte) :
    enc cfg mask v =
      [mask ||| place4 cfg.order (highNybble v) ||| 0x20, mask ||| place4 cfg.order (highNybble v),
       mask ||| place4 cfg.order (lowNybble v) ||| 0x20, mask ||| place4 cfg.order (lowNybble v)] := rfl

theorem place4_straight (n : Nybble) : place4 .straight n = n.setWidth 8 <<< 1 := rfl

theorem highNybble_setWidth (v : Byte) : (highNybble v).setWidth 8 = v >>> 4 := by
  revert v; decide

theorem lowNybble_setWidth (v : Byte) : (lowNybble v).setWidth 8 = v &&& 0x0F := by
  revert v; decide

/-- Settles O8: the answer is the quad of the configured order, and the straight order moves each nybble to bits 4:1. -/
theorem encodeNybblesResult : Obligations.EncodeNybblesResult := by
  intro mask v s
  refine ⟨by rw [exec_encodeNybbles, enc_eq], fun horder => ?_⟩
  rw [exec_encodeNybbles, enc_eq, horder, place4_straight, place4_straight, highNybble_setWidth, lowNybble_setWidth]

/-! ## The fields of a quad's byte: the strobe (0x20), the data lines (0x1E), the mask's own bits (0xC1) -/

/-- Bits within the field `w` leave clear a field that has no bit of `w`. -/
theorem and_eq_zero_of_within {b w m : Byte} (hb : b &&& w = b) (hdisjoint : w &&& m = 0) : b &&& m = 0 := by
  rw [← hb, BitVec.and_assoc, hdisjoint]; exact BitVec.and_zero

theorem or_or_and (a b c m : Byte) : (a ||| b ||| c) &&& m = a &&& m ||| b &&& m ||| c &&& m := by
  ext i; simp only [BitVec.getElem_and, BitVec.getElem_or, Bool.and_or_distrib_right]

/-- A mask that leaves the data and strobe positions alone lies within the others. -/
theorem mask_within {mask : Byte} (h : mask &&& 0x3E = 0) : mask &&& 0xC1 = mask := by
  revert mask; decide

/-- The data lines are bits 4:1 (R86). -/
theorem place4_within (o : NybbleOrder) (n : Nybble) : place4 o n &&& 0x1E = place4 o n := by
  cases o <;> (revert n; decide)

theorem place4_straight_back (n : Nybble) : place4 .straight n >>> 1 = n.setWidth 8 := by
  revert n; decide

/-- A byte put together from a mask, a nybble and a strobe level holds each in its own field. -/
theorem quadByte_fields {mask e : Byte} (n : Nybble) (hmask : mask &&& 0x3E = 0) (he : e &&& 0x20 = e) :
    (mask ||| place4 .straight n ||| e) &&& 0x20 = e ∧
    ((mask ||| place4 .straight n ||| e) &&& 0x1E) >>> 1 = n.setWidth 8 ∧
    (mask ||| place4 .straight n ||| e) &&& 0xC1 = mask := by
  have hm := mask_within hmask
  have hn := place4_within .straight n
  refine ⟨?strobe, ?data, ?mask⟩
  case strobe =>
    rw [or_or_and, and_eq_zero_of_within hm (by decide), and_eq_zero_of_within hn (by decide), he]; simp
  case data =>
    rw [or_or_and, and_eq_zero_of_within hm (by decide), hn, and_eq_zero_of_within he (by decide)]
    simpa using place4_straight_back n
  case mask =>
    rw [or_or_and, hm, and_eq_zero_of_within hn (by decide), and_eq_zero_of_within he (by decide)]; simp

/-- A nybble's first byte: the strobe is raised. -/
theorem strobedByte_fields {mask : Byte} (n : Nybble) (hmask : mask &&& 0x3E = 0) :
    (mask ||| place4 .straight n ||| 0x20) &&& 0x20 = 0x20 ∧
    ((mask ||| place4 .straight n ||| 0x20) &&& 0x1E) >>> 1 = n.setWidth 8 ∧
    (mask ||| place4 .straight n ||| 0x20) &&& 0xC1 = mask :=
  quadByte_fields n hmask (by decide)

/-- A nybble's second byte: the strobe is low. -/
theorem releasedByte_fields {mask : Byte} (n : Nybble) (hmask : mask &&& 0x3E = 0) :
    (mask ||| place4 .straight n) &&& 0x20 = 0 ∧
    ((mask ||| place4 .straight n) &&& 0x1E) >>> 1 = n.setWidth 8 ∧
    (mask ||| place4 .straight n) &&& 0xC1 = mask := by
  simpa only [BitVec.ofNat_eq_ofNat, BitVec.or_zero] using quadByte_fields (e := 0) n hmask (by decide)

/-- A byte is its high nybble above its low one. -/
theorem nybbles_joined (v : Byte) : (v >>> 4) <<< 4 ||| (v &&& 0x0F) = v := by
  revert v; decide

/-- Settles O9: each of the four bytes holds the mask, its nybble and its strobe level, and the two nybbles are the value. -/
theorem encoderProperties : Obligations.EncoderProperties := by
  intro cfg mask v horder hmask
  obtain ⟨strobe0, data0, mask0⟩ := strobedByte_fields (highNybble v) hmask
  obtain ⟨strobe1, data1, mask1⟩ := releasedByte_fields (highNybble v) hmask
  obtain ⟨strobe2, data2, mask2⟩ := strobedByte_fields (lowNybble v) hmask
  obtain ⟨strobe3, data3, mask3⟩ := releasedByte_fields (lowNybble v) hmask
  rw [highNybble_setWidth] at data0 data1
  rw [lowNybble_setWidth] at data2 data3
  refine ⟨_, _, _, _, by rw [enc_eq, horder], strobe0, strobe2, strobe1, strobe3, data0, data1, data2, data3,
    mask0, mask1, mask2, mask3, ?_⟩
  rw [data1, data3, nybbles_joined]

end Sys2Proof.Proofs.NybbleEncoder

/-! PROOFS. The write dispatcher (42_write_dispatcher.md): writes whose transactions complete and whose polls never read "busy" (R130,
R131, R135 to R140, R143). -/

namespace Sys2Proof.Proofs.WritesComplete

open Sys2Proof.Machine Sys2Proof.Safety Sys2Proof.Laws Sys2Proof.Proofs.WritesAtController

/-! ## Calls of the write primitive, one after another -/

/-- What is left to draw after steps 2 to 4 of a write (R141). -/
theorem drawsOk_sentJob {j : Job} {own more : List Byte} {rest : List Draw} {s : State} (hl : own.length = jobTxns s.cfg j)
    (hd : DrawsOk (own ++ more) rest s) : DrawsOk more rest (sentJob j s) := by
  obtain ⟨-, -, -, -, -, hdraws, -⟩ := sentJob_keeps j s
  simpa using drawsOk_drop own.length hd (by simp) (by rw [hdraws, hl])

/-- Calls of the write primitive that run quietly leave the configuration and the outcomes, and use up their draws. -/
theorem ranQuietly_keeps {js : List Job} {bytes : List Byte} {s v : State} (h : RanQuietly js bytes s v) :
    v.cfg = s.cfg ∧ v.outcomes = s.outcomes ∧ v.draws = s.draws.drop bytes.length := by
  induction h with
  | done s => exact ⟨rfl, rfl, rfl⟩
  | @normal j js own bytes s t hn hl _ ih =>
    obtain ⟨hcfg, -, -, -, hout, hdraws, -⟩ := sentJob_keeps j s
    obtain ⟨hcfg', hout', hdraws'⟩ := ih
    exact ⟨hcfg'.trans hcfg, hout'.trans hout, by rw [hdraws', hdraws, List.drop_drop, List.length_append, hl]⟩
  | @pending j js own bytes x0 x1 b x3 x4 s t hp hb hl _ ih =>
    obtain ⟨hcfg, -, -, -, hout, hdraws, -⟩ := sentJob_keeps j (polled b s)
    obtain ⟨hcfg', hout', hdraws'⟩ := ih
    refine ⟨by simp [hcfg', hcfg], by simp [hout', hout], ?_⟩
    rw [hdraws', hdraws, polled_draws, polled_cfg, ← hl, List.drop_drop, List.drop_drop, List.length_append, List.length_append]
    rfl

/-- The draws that are left for what follows them. -/
theorem ranQuietly_drawsOk {js : List Job} {bytes more : List Byte} {rest : List Draw} {s v : State}
    (h : RanQuietly js bytes s v) (hd : DrawsOk (bytes ++ more) rest s) : DrawsOk more rest v := by
  obtain ⟨-, -, hdraws⟩ := ranQuietly_keeps h
  simpa using drawsOk_drop bytes.length hd (by simp) hdraws

/-- Their run goes on with the calls that follow (R130). -/
theorem runJobs_ranQuietly (op : OpKind) (js : List Job) {sent : List Job} {bytes more : List Byte} {rest : List Draw} {s v : State}
    (h : RanQuietly sent bytes s v) (hd : DrawsOk (bytes ++ more) rest s) : runJobs op (sent ++ js) s = runJobs op js v := by
  induction h with
  | done s => rfl
  | @normal j _ own bytes s t hn hl _ ih =>
    rw [List.append_assoc] at hd
    rw [List.cons_append, runJobs_normal op j _ s hn, sendJob_done j own (bytes ++ more) rest s hd hl, andThen_ok,
      ih (drawsOk_sentJob hl hd)]
  | @pending j _ own bytes x0 x1 b x3 x4 s t hp hb hl _ ih =>
    rw [List.append_assoc, List.append_assoc] at hd
    have hpolled : DrawsOk (own ++ (bytes ++ more)) rest (polled b s) := drawsOk_drop 5 hd (by simp) (polled_draws b s)
    rw [← polled_cfg b s] at hl
    rw [List.cons_append, runJobs_polled op j _ x0 x1 b x3 x4 _ rest s hp hb hd,
      sendJob_done j own (bytes ++ more) rest _ hpolled hl, andThen_ok, ih (drawsOk_sentJob hl hpolled)]

theorem runJobs_ranQuietly_done (op : OpKind) {js : List Job} {bytes : List Byte} {rest : List Draw} {s v : State}
    (h : RanQuietly js bytes s v) (hd : DrawsOk bytes rest s) : runJobs op js s = .ok v := by
  simpa using runJobs_ranQuietly op [] (more := []) h (by simpa using hd)

/-! ## An operation of one write -/

section

variable {i : Instr} {j : Job} {own : List Byte} {rest : List Draw} {s : State}

/-- In NORMAL it is steps 2 to 4 of the write (R131, R143). -/
theorem exec_inNormal (hr : Ready s) (hw : writesOf s i = some (s, [j])) (hn : InNormal s) (hl : own.length = jobTxns s.cfg j)
    (hd : DrawsOk own rest s) : exec i s = .next (endedOk (sentJob j s)) := by
  have hquiet : RanQuietly [j] (own ++ []) s (sentJob j s) := .normal hn hl (.done _)
  rw [exec_writesOf i s s [j] hw hr, runPlain, runJobs_ranQuietly_done .plain hquiet (by simpa using hd)]
  rfl

/-- In POLL_PENDING the poll runs first (R131, R133). -/
theorem exec_inPending {x0 x1 b x3 x4 : Byte} (hr : Ready s) (hw : writesOf s i = some (s, [j])) (hp : InPending s)
    (hb : busyFlag b = false) (hl : own.length = jobTxns s.cfg j) (hd : DrawsOk ([x0, x1, b, x3, x4] ++ own) rest s) :
    exec i s = .next (endedOk (sentJob j (polled b s))) := by
  have hquiet : RanQuietly [j] ([x0, x1, b, x3, x4] ++ (own ++ [])) s (sentJob j (polled b s)) := .pending hp hb hl (.done _)
  rw [exec_writesOf i s s [j] hw hr, runPlain, runJobs_ranQuietly_done .plain hquiet (by simpa using hd)]
  rfl

end

/-- Steps 2 to 4 of a command, by whether it re-arms the poll (R137, R138). -/
theorem jobTxns_pollable {cfg : Params} {c : Byte} (h : isPollable cfg c = true) : jobTxns cfg (cmdJob c) = 2 := by
  rw [jobTxns_command, if_pos h]

theorem jobTxns_unpollable {cfg : Params} {c : Byte} (h : isPollable cfg c = false) : jobTxns cfg (cmdJob c) = 1 := by
  rw [jobTxns_command, h, if_neg Bool.false_ne_true]

theorem sentJob_pollable {c : Byte} {s : State} (h : isPollable s.cfg c = true) : sentJob (cmdJob c) s = sentPollable c s := by
  rw [sentJob_command, if_pos h]

theorem sentJob_unpollable {c : Byte} {s : State} (h : isPollable s.cfg c = false) : sentJob (cmdJob c) s = sentCommand c s := by
  rw [sentJob_command, h, if_neg Bool.false_ne_true]

/-- Steps 2 to 4 of a data write: it re-arms nothing (R136, R140). -/
theorem sentJob_data (bs : List Byte) (s : State) : sentJob (dataJob bs) s = sentData bs s := by
  rw [sentJob, rearms_data]; rfl

/-- Settles O18: one write in NORMAL, of one transaction or, if it re-arms, of two. -/
theorem writeCmdInNormal : Obligations.WriteCmdInNormal := by
  intro c bytes rest s hr hn hd
  refine ⟨fun hc hl => ?_, fun hc hl => ?_⟩
  · rw [← sentJob_unpollable hc]
    exact exec_inNormal hr rfl hn (hl.trans (jobTxns_unpollable hc).symm) hd
  · rw [← sentJob_pollable hc]
    exact exec_inNormal hr rfl hn (hl.trans (jobTxns_pollable hc).symm) hd

/-- Settles O19: the same write after a poll that is over at its first read. -/
theorem writeCmdInPending : Obligations.WriteCmdInPending := by
  intro c x0 x1 b x3 x4 bytes rest s hr hp hb hd
  refine ⟨fun hc hl => ?_, fun hc hl => ?_⟩
  · rw [← sentJob_unpollable (by rwa [polled_cfg])]
    exact exec_inPending hr rfl hp hb (hl.trans (jobTxns_unpollable hc).symm) hd
  · rw [← sentJob_pollable (by rwa [polled_cfg])]
    exact exec_inPending hr rfl hp hb (hl.trans (jobTxns_pollable hc).symm) hd

/-- Settles O20: one data write in NORMAL, a transaction for each block. -/
theorem writeDataInNormal : Obligations.WriteDataInNormal := by
  intro bs bytes rest s hr hn hd hl
  rw [← sentJob_data]
  exact exec_inNormal hr rfl hn (hl.trans (jobTxns_data _ bs).symm) hd

/-- Settles O21: the same write after a poll that is over at its first read, which looks at no byte of the data. -/
theorem writeDataInPending : Obligations.WriteDataInPending := by
  intro bs bytes x0 x1 b x3 x4 rest s hr hp hb hd hl
  rw [← sentJob_data]
  exact exec_inPending hr rfl hp hb (hl.trans (jobTxns_data _ bs).symm) hd

end Sys2Proof.Proofs.WritesComplete

/-! PROOFS. The write dispatcher (42_write_dispatcher.md): a poll that reads "busy" waits or gives up, and one that does not goes on
with the writes that wait (R130 to R137, R203). -/

namespace Sys2Proof.Proofs.PollRuns

open Sys2Proof.Machine Sys2Proof.Safety Sys2Proof.Laws Sys2Proof.Proofs.PollExit Sys2Proof.Proofs.WritesComplete

/-! ## The bound of the poll -/

theorem pollGivesUp_iff (cfg : Params) (n : Nat) : pollGivesUp cfg n = true ↔ ∃ m, cfg.pollMax = some m ∧ m ≤ n := by
  unfold pollGivesUp
  cases cfg.pollMax with
  | none => simp
  | some m => simp

theorem pollGivesUp_below {cfg : Params} {n : Nat} (h : ∀ m, cfg.pollMax = some m → n < m) : pollGivesUp cfg n = false := by
  rw [Bool.eq_false_iff, Ne, pollGivesUp_iff]
  rintro ⟨m, hm, hle⟩
  exact absurd (h m hm) (Nat.not_lt.2 hle)

theorem pollGivesUp_at {cfg : Params} {n : Nat} (h : cfg.pollMax = some n) : pollGivesUp cfg n = true :=
  (pollGivesUp_iff cfg n).2 ⟨n, h, Nat.le_refl n⟩

/-! ## The entry of a poll -/

section

variable {op : OpKind} {j : Job} {js : List Job} {x0 x1 b x3 : Byte} {rest : List Draw} {s : State}

/-- The poll of the write `j`, begun from `s`, as it waits after one iteration (R132, R133). -/
def firstWait (op : OpKind) (j : Job) (js : List Job) (s : State) : Poll :=
  ⟨1, pollLo s.cfg s.gpio, pollHi s.cfg s.gpio, op, j, js⟩

theorem runJobs_busy_waits (hp : InPending s) (hb : busyFlag b = true) (hm : ∀ m, s.cfg.pollMax = some m → 1 < m)
    (hd : DrawsOk [x0, x1, b, x3] rest s) :
    runJobs op (j :: js) s = .wait { pollEntered b s with seq := .polling (firstWait op j js s) } := by
  rw [runJobs, pollIfPending_busy op j js x0 x1 b x3 rest s hp hb hd, pollGivesUp_below hm, if_neg Bool.false_ne_true]
  rfl

theorem runJobs_busy_givesUp (hp : InPending s) (hb : busyFlag b = true) (hm : s.cfg.pollMax = some 1)
    (hd : DrawsOk [x0, x1, b, x3] rest s) :
    runJobs op (j :: js) s = .stop (.deviceUnresponsive 1) (pollEntered b s) := by
  rw [runJobs, pollIfPending_busy op j js x0 x1 b x3 rest s hp hb hd, if_pos (pollGivesUp_at hm)]
  rfl

end

/-! ## INIT up to a poll -/

/-- INIT is a register load and the eight bytes of the bring-up (R160 to R162). -/
theorem exec_init_runs {addr : Byte} {busid : Nat} {bytes : List Byte} {rest : List Draw} {s : State} (hs : s.seq = .idle)
    (hph : s.phase = .uninit) (hc : DefaultEncodings s.cfg) (ha : addr.toNat ≤ 0x7F) (hlen : 3 ≤ bytes.length)
    (hd : DrawsOk bytes rest s) :
    exec (.init addr busid) s = .next (finish .bringUp (runJobs .bringUp
      [cmdJob 0x33, cmdJob 0x32, cmdJob 0x28, cmdJob 0x01, cmdJob 0x14, cmdJob 0x06, cmdJob 0x0C, cmdJob 0x02]
      (loaded ⟨addr.setWidth 7, busid⟩ s))) := by
  rw [Acceptance.exec_init_accepted busid hs hph ha, bringUp, BringUp.registerLoad_done _ hlen hd, andThen_ok,
    BringUp.bringUpJobs_loaded _ hc]

/-- After the register load the block is in POLL_PENDING (R161). -/
theorem loaded_pending (h : Handle) {s : State} (hc : DefaultEncodings s.cfg) : InPending (loaded h s) := by
  rw [InPending, loaded_ddrb, loaded_cfg, default_ddrInit hc, default_busyDir hc]
  decide

/-! ## A poll that goes on -/

/-- Once a read is not busy, the write that waited goes out and the writes after it run (R133, R135 to R137). -/
theorem resumeOperation_exit {p : Poll} {x0 b x2 x3 : Byte} {own more : List Byte} {rest : List Draw} {s : State}
    (hb : busyFlag b = false) (hl : own.length = jobTxns s.cfg p.job) (hd : DrawsOk ([x0, b, x2, x3] ++ (own ++ more)) rest s) :
    resumeOperation p s = finish p.op (runJobs p.op p.rest (sentJob p.job (pollOver p b s))) ∧
      DrawsOk more rest (sentJob p.job (pollOver p b s)) := by
  have hown : DrawsOk (own ++ more) rest (pollOver p b s) := drawsOk_drop 4 hd (by simp) (pollOver_draws p b s)
  have hl' : own.length = jobTxns (pollOver p b s).cfg p.job := by rwa [pollOver_cfg]
  refine ⟨?_, drawsOk_sentJob hl' hown⟩
  rw [resumeOperation, pollIterate_exit p x0 b x2 x3 _ rest s hb hd, andThen_ok, ← pollOver, sendJob_done p.job own more rest _ hown hl',
    andThen_ok]

/-- The direction write that ends a poll, from the state after the iteration. -/
theorem pollOver_eq (p : Poll) (b : Byte) (s : State) :
    wroteDir ((iterated p.lo p.hi b s).ddrb &&& ~~~(iterated p.lo p.hi b s).cfg.busyDir) (iterated p.lo p.hi b s) =
      pollOver p b s := by
  rw [iterated_ddrb, iterated_cfg, pollOver]

/-- The whole operation of a waiting poll whose read is not busy, no later poll reading "busy" either. -/
theorem step_exit_ranQuietly {p : Poll} {x0 b x2 x3 : Byte} {own bytes : List Byte} {rest : List Draw} {s v : State}
    (hs : s.seq = .polling p) (hb : busyFlag b = false) (hl : own.length = jobTxns s.cfg p.job)
    (hd : DrawsOk ([x0, b, x2, x3] ++ (own ++ bytes)) rest s) (hv : RanQuietly p.rest bytes (sentJob p.job (pollOver p b s)) v) :
    step s = .next (endOperation p.op .ok v) := by
  obtain ⟨hrun, hleft⟩ := resumeOperation_exit hb hl hd
  rw [Acceptance.step_polling hs, hrun, runJobs_ranQuietly_done p.op hv hleft, finish_ok]

/-! ## The obligations -/

/-- Settles O22: the read of a waiting poll, the first read of an operation, of INIT after some of its writes, and of a later write
of an operation that has waited. -/
theorem busyPollIterationWaits : Obligations.BusyPollIterationWaits := by
  refine ⟨?_, ?_, ?_, ?_⟩
  · intro p x0 b x2 rest s hs hb hm hd
    rw [Acceptance.step_polling hs, resumeOperation, pollIterate_busy p x0 b x2 rest s hb (pollGivesUp_below hm) hd]
    rfl
  · intro i j js x0 x1 b x3 rest s s' hr hp hw hb hm hd
    obtain ⟨hcfg, hddrb, hgpio, hdraws, -, -⟩ := writesOf_keeps i s s' _ hw
    have hp' : InPending s' := by rwa [InPending, hddrb, hcfg]
    have hd' : DrawsOk [x0, x1, b, x3] rest s' := hdraws.trans hd
    rw [exec_writesOf i s s' _ hw hr, runPlain, runJobs_busy_waits hp' hb (by rwa [hcfg]) hd', finish_wait, firstWait, hcfg, hgpio]
    rfl
  · intro addr busid sent js j x0 x1 x2 y0 y1 b y3 bytes rest s v hs hph hc ha hjobs hv hp hb hm hd
    obtain ⟨hcfg, -, -⟩ := ranQuietly_keeps hv
    rw [loaded_cfg] at hcfg
    have hd' := drawsOk_drop 3 hd (by simp) (loaded_draws ⟨addr.setWidth 7, busid⟩ s)
    rw [exec_init_runs hs hph hc ha (by simp) hd, hjobs, runJobs_ranQuietly .bringUp (j :: js) hv hd',
      runJobs_busy_waits hp hb (by rwa [hcfg]) (ranQuietly_drawsOk hv hd'), finish_wait, firstWait, pollHi, pollLo, hcfg,
      default_readbackBit hc]
    rfl
  · intro p sent js j x0 b x2 x3 y0 y1 c y3 own bytes rest s v hs hb hl hjobs hd t u hv hp hc hm
    have hu : u = pollOver p b s := pollOver_eq p b s
    rw [hu] at hv
    obtain ⟨hrun, hleft⟩ := resumeOperation_exit hb hl hd
    obtain ⟨hcfg, -, -⟩ := ranQuietly_keeps hv
    obtain ⟨hcfg', -⟩ := sentJob_keeps p.job (pollOver p b s)
    rw [hcfg', pollOver_cfg] at hcfg
    rw [Acceptance.step_polling hs, hrun, hjobs, runJobs_ranQuietly p.op (j :: js) hv hleft,
      runJobs_busy_waits hp hc (by rwa [hcfg]) (ranQuietly_drawsOk hv hleft), finish_wait]
    rfl

/-- Settles O23: the waiting write is sent from the state after the poll, and the writes after it run to the end. -/
theorem pollExitSendsWaitingCommand : Obligations.PollExitSendsWaitingCommand := by
  refine ⟨?_, ?_⟩
  · intro p c x0 b x2 x3 bytes rest s hs hop hjob hrest hb hd t u
    have hu : u = pollOver p b s := pollOver_eq p b s
    have hcfg : u.cfg = s.cfg := by rw [hu, pollOver_cfg]
    have sent (hl : bytes.length = jobTxns s.cfg (cmdJob c)) : step s = .next (endedOk (sentJob (cmdJob c) u)) := by
      rw [hu, ← show p.job = cmdJob c from hjob]
      exact step_exit hs hop hrest hb (by rw [hl, hjob]; rfl) hd
    refine ⟨fun hc hl => ?_, fun hc hl => ?_⟩
    · rw [← sentJob_unpollable (by rwa [hcfg])]
      exact sent (hl.trans (jobTxns_unpollable hc).symm)
    · rw [← sentJob_pollable (by rwa [hcfg])]
      exact sent (hl.trans (jobTxns_pollable hc).symm)
  · intro p x0 b x2 x3 own bytes rest s v hs hb hd hl t u hv
    have hu : u = pollOver p b s := pollOver_eq p b s
    have hstep := step_exit_ranQuietly hs hb hl hd (hu ▸ hv)
    refine ⟨fun hop => ?_, fun hop => ?_⟩
    · rw [hstep, hop]; rfl
    · rw [hstep, hop]; rfl

/-- Settles O24: the bound reached by a waiting poll, at the entry of an operation, and at the first poll of INIT. -/
theorem boundedPollGivesUp : Obligations.BoundedPollGivesUp := by
  refine ⟨?_, ?_, ?_⟩
  · intro p x0 b x2 rest s m hs hmax hn hb hd t
    subst hn
    have hstep : step s = .next (endOperation p.op (.deviceUnresponsive (p.n + 1)) (iterated p.lo p.hi b s)) := by
      rw [Acceptance.step_polling hs, resumeOperation, pollIterate_givesUp p x0 b x2 rest s hb (pollGivesUp_at hmax) hd]
      rfl
    refine ⟨fun hop => ?_, fun hop => ?_⟩
    · rw [hstep, hop, endOperation_plain, iterated_outcomes]
    · rw [hstep, hop, endOperation_bringUp_failed _ OpOutcome.noConfusion, iterated_outcomes]
  · intro i j js x0 x1 b x3 rest s s' hr hp hw hb hmax hd
    obtain ⟨hcfg, hddrb, -, hdraws, hout, -⟩ := writesOf_keeps i s s' _ hw
    have hp' : InPending s' := by rwa [InPending, hddrb, hcfg]
    have hd' : DrawsOk [x0, x1, b, x3] rest s' := hdraws.trans hd
    rw [exec_writesOf i s s' _ hw hr, runPlain, runJobs_busy_givesUp hp' hb (by rwa [hcfg]) hd', finish_stop, endOperation_plain,
      pollEntered_outcomes, hout]
  · intro addr busid x0 x1 x2 x3 x4 b x6 rest s hs hph hc ha hb hmax hd
    have hd' : DrawsOk [x3, x4, b, x6] rest (loaded ⟨addr.setWidth 7, busid⟩ s) := drawsOk_drop 3 hd (by simp) (loaded_draws _ s)
    rw [exec_init_runs hs hph hc ha (by simp) hd, runJobs_busy_givesUp (loaded_pending _ hc) hb hmax hd', finish_stop,
      endOperation_bringUp_failed _ OpOutcome.noConfusion, pollEntered_outcomes, loaded_outcomes]

end Sys2Proof.Proofs.PollRuns

/-! PROOFS. The write dispatcher (42_write_dispatcher.md): the state a failed transaction leaves, row by row of R142 (R60, R136,
R201). -/

namespace Sys2Proof.Proofs.FailureStates

open Sys2Proof.Machine Sys2Proof.Safety Sys2Proof.Laws

/-! ## Runs stopped by a failed transaction -/

/-- From `s` to `u` the block made `n` transactions and reported nothing; `gpio` is `g` and `ddrb` is `d`. -/
def Reached (s : State) (n : Nat) (g d : Byte) (u : State) : Prop :=
  u.gpio = g ∧ u.ddrb = d ∧ u.outcomes = s.outcomes ∧ u.history.length = s.history.length + n

theorem reached_self (s : State) : Reached s 0 s.gpio s.ddrb s := ⟨rfl, rfl, rfl, rfl⟩

/-- From `s` the run completed `n` transactions and was stopped by the next one, `x`, with the values `g` and `d` of `gpio` and
`ddrb`. -/
def FailsIn (s : State) (n : Nat) (x : Txn) (g d : Byte) (r : Run) : Prop :=
  ∃ t, r = .stop (.commError x) t ∧ Reached s (n + 1) g d t

/-- What such a run was to do next is not done. -/
theorem failsIn_andThen {s : State} {n : Nat} {x : Txn} {g d : Byte} {r : Run} (f : State → Run) (h : FailsIn s n x g d r) :
    FailsIn s n x g d (andThen r f) := by
  obtain ⟨t, rfl, h⟩ := h
  exact ⟨t, rfl, h⟩

/-- Transactions that completed before it count. -/
theorem failsIn_after {s u : State} {m n : Nat} {x : Txn} {g d g' d' : Byte} {r : Run} (hu : Reached s m g d u)
    (h : FailsIn u n x g' d' r) : FailsIn s (m + n) x g' d' r := by
  obtain ⟨t, rfl, hg, hd, hout, hhist⟩ := h
  obtain ⟨-, -, hout', hhist'⟩ := hu
  exact ⟨t, rfl, hg, hd, hout.trans hout', by omega⟩

/-- The draws once those that complete are used up. -/
theorem draws_nack {bytes : List Byte} {k : Option Nat} {rest : List Draw} {s t : State} (hd : DrawsOk bytes (.nack k :: rest) s)
    (ht : t.draws = s.draws.drop bytes.length) : t.draws = .nack k :: rest := by
  rw [ht, hd, List.drop_left' (List.length_map _)]

/-! ## A failed transaction -/

section

variable {s u : State} {n : Nat} {g d : Byte} {k : Option Nat} {ds : List Draw}

theorem busWrite1_failsIn (r : Nat) (v : Byte) (hu : Reached s n g d u) (h : u.draws = .nack k :: ds) :
    FailsIn s n (.w1 r v) g d (busWrite1 r v u) := by
  obtain ⟨hg, hd, hout, hhist⟩ := hu
  exact ⟨_, busWrite1_failed h r v, hg, hd, hout, by simp [hhist]; omega⟩

theorem busWriteBlk_failsIn (r : Nat) {bs : List Byte} (hne : bs ≠ []) (hl : bs.length ≤ blockMax) (hu : Reached s n g d u)
    (h : u.draws = .nack k :: ds) : FailsIn s n (.wb r bs) g d (busWriteBlk r bs u) := by
  obtain ⟨hg, hd, hout, hhist⟩ := hu
  rw [busWriteBlk_one r bs u hne hl]
  exact ⟨_, busWriteChunk_failed h r bs, hg, hd, hout, by simp [hhist]; omega⟩

theorem busRead1_failsIn (f : Byte → State → Run) (hu : Reached s n g d u) (h : u.draws = .nack k :: ds) :
    FailsIn s n .r1 g d (busRead1 u f) := by
  obtain ⟨hg, hd, hout, hhist⟩ := hu
  exact ⟨_, busRead1_failed h f, hg, hd, hout, by simp [hhist]; omega⟩

end

/-! ## The poll -/

section

variable {p : Poll} {x0 b x2 : Byte} {k : Option Nat} {rest : List Draw} {s : State}

/-- An iteration that fails at its `W1` has cached nothing. -/
theorem pollIterate_fails_raise (hd : DrawsOk [] (.nack k :: rest) s) :
    FailsIn s 0 (.w1 s.cfg.regOut p.hi) s.gpio s.ddrb (pollIterate p s) :=
  failsIn_andThen _ (busWrite1_failsIn _ _ (reached_self s) hd)

/-- At its read, the strobe is up. -/
theorem pollIterate_fails_read (hd : DrawsOk [x0] (.nack k :: rest) s) :
    FailsIn s 1 .r1 p.hi s.ddrb (pollIterate p s) := by
  have hraised : (wroteOut p.hi s).draws = .nack k :: rest := draws_nack hd (wroteOut_draws _ _)
  rw [pollIterate, busWrite1_done (drawsOk_cons hd), andThen_ok]
  exact busRead1_failsIn _ ⟨rfl, rfl, rfl, by simp⟩ hraised

/-- At its block, so it is still. -/
theorem pollIterate_fails_block (hd : DrawsOk [x0, b] (.nack k :: rest) s) :
    FailsIn s 2 (.wb s.cfg.regOut [p.lo, p.hi, p.lo]) p.hi s.ddrb (pollIterate p s) := by
  have hraised : DrawsOk [b] (.nack k :: rest) (wroteOut p.hi s) := drawsOk_tail hd (wroteOut_draws _ _)
  have hread : (gotByte b (wroteOut p.hi s)).draws = .nack k :: rest := draws_nack hraised (gotByte_draws _ _)
  rw [pollIterate, busWrite1_done (drawsOk_cons hd), andThen_ok]
  show FailsIn _ _ _ _ _ (busRead1 (wroteOut p.hi s) _)
  rw [busRead1_done (drawsOk_cons hraised)]
  exact failsIn_andThen _ (busWriteBlk_failsIn s.cfg.regOut (by simp) (by simp [blockMax]) ⟨rfl, rfl, rfl, by simp⟩ hread)

/-- At the direction write that ends the poll, the shadow is already cleared. -/
theorem pollIterate_fails_exit (hb : busyFlag b = false) (hd : DrawsOk [x0, b, x2] (.nack k :: rest) s) :
    FailsIn s 3 (.w1 s.cfg.regs.dir (s.ddrb &&& ~~~s.cfg.busyDir)) p.lo (s.ddrb &&& ~~~s.cfg.busyDir) (pollIterate p s) := by
  have hdone : (iterated p.lo p.hi b s).draws = .nack k :: rest := draws_nack hd (iterated_draws _ _ _ _)
  rw [pollIterate_read p x0 b x2 [] _ s hd, hb, if_neg Bool.false_ne_true]
  exact busWrite1_failsIn _ _ ⟨rfl, rfl, iterated_outcomes p.lo p.hi b s, by simp⟩ hdone

end

/-- Settles O28: the operation that waits is stopped by the transaction in which the poll's iteration fails. -/
theorem failureStateOfLaterIteration : Obligations.FailureStateOfLaterIteration := by
  intro p x0 b k rest s hs hop hg endsIn
  have stopped {n : Nat} {x : Txn} {g : Byte} (h : FailsIn s n x g s.ddrb (pollIterate p s)) : endsIn n x g := by
    obtain ⟨t, hrun, hgpio, hddrb, hout, hhist⟩ := h
    refine ⟨endOperation .plain (.commError x) t, ?_, hgpio, hddrb, rfl, by rw [endOperation_outcomes, hout], hhist⟩
    rw [Acceptance.step_polling hs, resumeOperation, hrun, hop]
    rfl
  exact ⟨fun hd => stopped (hg ▸ pollIterate_fails_raise hd), fun hd => stopped (pollIterate_fails_read hd),
    fun hd => stopped (pollIterate_fails_block hd)⟩

/-! ## A command write -/

section

variable {c x0 : Byte} {k : Option Nat} {rest : List Draw} {s : State}

/-- Of a command that fails at its quad nothing is cached. -/
theorem sendJob_fails_quad (hd : DrawsOk [] (.nack k :: rest) s) :
    FailsIn s 0 (.wb s.cfg.regOut (enc s.cfg (s.gpio &&& shared) c)) s.gpio s.ddrb (sendJob (cmdJob c) s) := by
  refine failsIn_andThen _ ?_
  show FailsIn _ _ _ _ _ (sendValues (controlMask s.cfg s.gpio false) [c] [] s)
  rw [sendValues_blocks, controlMask_command, List.flatMap_singleton, blockChunks_quad]
  exact failsIn_andThen _ (failsIn_andThen _
    (busWriteBlk_failsIn _ (by simp [enc]) (by simp [blockMax]) (reached_self s) hd))

/-- A pollable command that fails at its direction write has set the shadow. -/
theorem sendJob_fails_rearm (hc : isPollable s.cfg c = true) (hd : DrawsOk [x0] (.nack k :: rest) s) :
    FailsIn s 1 (.w1 s.cfg.regs.dir (s.ddrb ||| s.cfg.busyDir)) ((s.gpio &&& shared) ||| place4 s.cfg.order (lowNybble c))
      (s.ddrb ||| s.cfg.busyDir) (sendJob (cmdJob c) s) := by
  have hsent : (sentCommand c s).draws = .nack k :: rest := draws_nack hd (sentCommand_draws c s)
  rw [sendJob]
  show FailsIn _ _ _ _ _ (andThen (sendValues (controlMask s.cfg s.gpio false) [c] [] s) (rearm (cmdJob c)))
  rw [sendValues_command c x0 [] _ s hd, andThen_ok, rearm, if_pos (by rwa [rearms_cmd])]
  exact busWrite1_failsIn _ _ ⟨rfl, rfl, rfl, by simp⟩ hsent

end

section

variable {op : OpKind} {j : Job} {js : List Job} {bytes : List Byte} {ds : List Draw} {x : Txn} {n : Nat} {g d : Byte} {s : State}

/-- Writes from POLL_PENDING fail at `W1` of the poll's idle pattern (R132). -/
theorem runJobs_fails_entering {lo : Byte} {k : Option Nat} (hlo : pollLo s.cfg s.gpio = lo) (hp : InPending s)
    (hd : DrawsOk [] (.nack k :: ds) s) : FailsIn s 0 (.w1 s.cfg.regOut lo) s.gpio s.ddrb (runJobs op (j :: js) s) := by
  rw [runJobs, pollIfPending_pending op j js s hp, pollStart, hlo]
  exact failsIn_andThen _ (failsIn_andThen _ (failsIn_andThen _ (busWrite1_failsIn _ _ (reached_self s) hd)))

/-- Or, after it, where the first iteration does. -/
theorem runJobs_fails_iterating {lo hi x0 : Byte} (hlo : pollLo s.cfg s.gpio = lo) (hhi : pollHi s.cfg s.gpio = hi)
    (hp : InPending s) (hd : DrawsOk (x0 :: bytes) ds s)
    (h : DrawsOk bytes ds (wroteOut lo s) →
      FailsIn (wroteOut lo s) n x g d (pollIterate ⟨0, lo, hi, op, j, js⟩ (wroteOut lo s))) :
    FailsIn s (1 + n) x g d (runJobs op (j :: js) s) := by
  subst hlo hhi
  rw [runJobs, pollIfPending_pending op j js s hp, pollStart, busWrite1_done (drawsOk_cons hd), andThen_ok]
  exact failsIn_andThen _ (failsIn_andThen _ (failsIn_after (u := wroteOut (pollLo s.cfg s.gpio) s) ⟨rfl, rfl, rfl, by simp⟩
    (h (drawsOk_tail hd (wroteOut_draws _ s)))))

/-- Or, the poll over at its first read, where the first write does. -/
theorem runJobs_fails_sending {x0 x1 b x3 x4 : Byte} (hp : InPending s) (hb : busyFlag b = false)
    (hd : DrawsOk (x0 :: x1 :: b :: x3 :: x4 :: bytes) ds s)
    (h : DrawsOk bytes ds (polled b s) → FailsIn (polled b s) n x g d (sendJob j (polled b s))) :
    FailsIn s (5 + n) x g d (runJobs op (j :: js) s) := by
  rw [runJobs_polled op j js x0 x1 b x3 x4 bytes ds s hp hb hd]
  exact failsIn_andThen _ (failsIn_after ⟨rfl, rfl, polled_outcomes b s, polled_history_length b s⟩
    (h (drawsOk_drop 5 hd (by simp) (polled_draws b s))))

/-- Writes from NORMAL fail where the first one does. -/
theorem runJobs_fails_normal (hn : InNormal s) (h : FailsIn s n x g d (sendJob j s)) :
    FailsIn s n x g d (runJobs op (j :: js) s) := by
  rw [runJobs_normal op j js s hn]
  exact failsIn_andThen _ h

end

/-- The idle pattern of a poll keeps the shared bit (R87). -/
theorem pollLo_shared {cfg : Params} (hc : DefaultEncodings cfg) (g : Byte) : pollLo cfg g &&& shared = g &&& shared := by
  rw [pollLo, default_readbackBit hc]
  revert g
  decide +kernel

/-- Settles O27: the run of the one write fails in the transaction whose draw fails, the poll's first. -/
theorem failureStateOfCommandWrite : Obligations.FailureStateOfCommandWrite := by
  intro c x0 x1 b x3 x4 x5 k rest s hr hc hb lo hi quad last cleared endsIn
  have hlo : pollLo s.cfg s.gpio = lo := by rw [pollLo, default_readbackBit hc]; rfl
  have hhi : pollHi s.cfg s.gpio = hi := by rw [pollHi, hlo]; rfl
  have hgpio : (polled b s).gpio = lo := by rw [polled_gpio]; exact hlo
  have hmask : (polled b s).gpio &&& shared = s.gpio &&& 0x01 := by rw [polled_gpio]; exact pollLo_shared hc s.gpio
  have stopped {n : Nat} {x : Txn} {g d : Byte} (h : FailsIn s n x g d (runJobs .plain [cmdJob c] s)) : endsIn n x g d := by
    obtain ⟨t, hrun, hg, hd, hout, hhist⟩ := h
    refine ⟨endOperation .plain (.commError x) t, ?_, hg, hd, rfl, by rw [endOperation_outcomes, hout], hhist⟩
    rw [exec_writesOf (.writeCmd c) s s [cmdJob c] rfl hr, runPlain, hrun, finish_stop]
  refine ⟨fun hp => ⟨fun hd => ?_, fun hd => ?_, fun hd => ?_, fun hd => ?_, fun hd => ?_, fun hd => ?_, fun hd hpoll => ?_⟩,
    fun hn => ⟨fun hd => ?_, fun hd hpoll => ?_⟩⟩
  · exact stopped (runJobs_fails_entering hlo hp hd)
  · exact stopped (runJobs_fails_iterating hlo hhi hp hd pollIterate_fails_raise)
  · exact stopped (runJobs_fails_iterating hlo hhi hp hd pollIterate_fails_read)
  · exact stopped (runJobs_fails_iterating hlo hhi hp hd pollIterate_fails_block)
  · exact stopped (runJobs_fails_iterating hlo hhi hp hd (pollIterate_fails_exit hb))
  · have h := runJobs_fails_sending (op := .plain) (js := []) hp hb hd (sendJob_fails_quad (c := c))
    rw [hmask, hgpio, polled_ddrb, polled_cfg] at h
    exact stopped h
  · have h := runJobs_fails_sending (op := .plain) (js := []) hp hb hd (sendJob_fails_rearm (c := c) (by rwa [polled_cfg]))
    rw [hmask, polled_ddrb, polled_cfg] at h
    exact stopped h
  · exact stopped (runJobs_fails_normal hn (sendJob_fails_quad hd))
  · exact stopped (runJobs_fails_normal hn (sendJob_fails_rearm hpoll hd))

/-! ## A data write -/

theorem flushAll_append (cs more : List (List Byte)) (s : State) :
    flushAll (cs ++ more) s = andThen (flushAll cs s) (flushAll more) := by
  induction cs generalizing s with
  | nil => rfl
  | cons c cs ih => rw [List.cons_append, flushAll, flushAll, andThen_assoc, funext ih]

/-- Settles O29: the blocks before it are sent and cached, and the one that fails stops the run. -/
theorem failureStateOfDataBlock : Obligations.FailureStateOfDataBlock := by
  intro bs bytes c sent unsent k rest s hr hn hcut hd hl u
  have hsizes : ∀ d ∈ sent ++ c :: unsent, d ≠ [] ∧ d.length ≤ blockMax := hcut ▸ blockChunks_sizes _
  obtain ⟨hne, hle⟩ := hsizes c (by simp)
  obtain ⟨hcfg, -, -, -, -, -, hdraws⟩ := sentBlocks_keeps sent s
  have hnack : u.draws = .nack k :: rest := draws_nack hd (by rw [hdraws, hl])
  have hsent : flushAll sent s = .ok u := flushAll_done sent bytes _ s (fun d hmem => hsizes d (List.mem_append_left _ hmem)) hd hl
  have hrun : sendValues (controlMask s.cfg s.gpio true) bs [] s = andThen (flush c u) (flushAll unsent) := by
    rw [sendValues_blocks, controlMask_data]
    show flushAll (dataBlocks s bs) s = _
    rw [hcut, flushAll_append, hsent, andThen_ok, flushAll]
  rw [exec_writesOf (.writeData bs) s s [dataJob bs] rfl hr, runPlain, runJobs_normal .plain _ _ s hn, sendJob]
  show Host.Outcome.next (finish .plain (andThen (andThen (sendValues (controlMask s.cfg s.gpio true) bs [] s) _) _)) = _
  rw [hrun, flush_failed hnack c hne hle, andThen_stop, andThen_stop, andThen_stop, MicroOperations.finish_plain_failed hnack, hcfg]

end Sys2Proof.Proofs.FailureStates

/-! PROOFS. The write dispatcher (42_write_dispatcher.md): what a resumed operation, INIT and TEARDOWN leave unchanged (R133, R137, R160,
R164, R165, R191). -/

namespace Sys2Proof.Proofs.ResumedFrame

open Sys2Proof.Machine Sys2Proof.Safety Sys2Proof.Laws Sys2Proof.Proofs.RunEnds

/-! ## Whatever an operation does, however it ends -/

/-- No operation changes these; the history and the outcomes only grow (R110, R200). -/
structure Grown (s t : State) : Prop where
  cfg : t.cfg = s.cfg
  inbox : t.inbox = s.inbox
  result : t.result = s.result
  history : s.history <+: t.history
  outcomes : s.outcomes <+: t.outcomes

theorem grown_refl (s : State) : Grown s s := ⟨rfl, rfl, rfl, List.prefix_rfl, List.prefix_rfl⟩

theorem grown_at (s : State) (cfg : Params) (r : Nat) : StableAt (Grown s) cfg r :=
  fun _ _ _ h => ⟨h.cfg, h.inbox, h.result, h.history, h.outcomes⟩

theorem grown_stable (s : State) : Stable (Grown s) where
  draw t h := by constructor <;> simp [h.cfg, h.inbox, h.result, h.history, h.outcomes]
  event _ _ _ h := ⟨h.cfg, h.inbox, h.result, h.history.trans (List.prefix_append _ _), h.outcomes⟩
  out cfg := grown_at s cfg _
  dir cfg := grown_at s cfg _
  gpio _ _ h := ⟨h.cfg, h.inbox, h.result, h.history, h.outcomes⟩
  ddrb _ _ h := ⟨h.cfg, h.inbox, h.result, h.history, h.outcomes⟩
  seq _ _ h := ⟨h.cfg, h.inbox, h.result, h.history, h.outcomes⟩

/-- The end of an operation adds its outcome. -/
theorem grown_end {s : State} (op : OpKind) (o : OpOutcome) (t : State) (h : Grown s t) : Grown s (endOperation op o t) where
  cfg := by rw [endOperation_cfg, h.cfg]
  inbox := by rw [endOperation_inbox, h.inbox]
  result := by rw [endOperation_result, h.result]
  history := by rw [endOperation_history]; exact h.history
  outcomes := by rw [endOperation_outcomes]; exact h.outcomes.trans (List.prefix_append _ _)

theorem grown_refused (why : RefuseReason) (s : State) : Grown s (refusedAs why s) :=
  ⟨rfl, rfl, rfl, List.prefix_rfl, List.prefix_append _ _⟩

/-! ## INIT and TEARDOWN -/

/-- INIT does nothing, refuses, or is a bring-up under the handle of its operands. -/
theorem exec_init_cases {addr : Byte} {busid : Nat} {s t : State} (hx : exec (.init addr busid) s = .next t) :
    t = s ∨ (∃ why, t = refusedAs why s) ∨ t = finish .bringUp (bringUp { s with handle := some ⟨addr.setWidth 7, busid⟩ }) := by
  rcases hs : s.seq with _ | p
  · by_cases hp : s.phase = .uninit
    · by_cases ha : addr.toNat ≤ 0x7F
      · rw [Acceptance.exec_init_accepted busid hs hp ha] at hx
        cases hx; exact .inr (.inr (by rw [hs]))
      · rw [Acceptance.exec_init_addrRange busid hs hp (Nat.not_le.1 ha)] at hx
        cases hx; exact .inr (.inl ⟨_, rfl⟩)
    · rw [Acceptance.exec_init_phase addr busid hs hp] at hx
      cases hx; exact .inr (.inl ⟨_, rfl⟩)
  · rw [exec, execInit, whenIdle_polling _ s p hs] at hx
    cases hx; exact .inl rfl

theorem exec_init_grown {addr : Byte} {busid : Nat} {s t : State} (hx : exec (.init addr busid) s = .next t) : Grown s t := by
  rcases exec_init_cases hx with rfl | ⟨why, rfl⟩ | rfl
  · exact grown_refl _
  · exact grown_refused why s
  · have hopened : Grown s { s with handle := some ⟨addr.setWidth 7, busid⟩ } :=
      ⟨rfl, rfl, rfl, List.prefix_rfl, List.prefix_rfl⟩
    exact finish_sat (bringUp_keeps (grown_stable s) (grown_at s)
      (fun _ h => ⟨h.cfg, h.inbox, h.result, h.history, h.outcomes⟩) _ hopened) (grown_end .bringUp)

/-- TEARDOWN does nothing, refuses, or is its two transactions, RELEASED before the first (R165). -/
theorem exec_teardown_cases {s t : State} (hx : exec .teardown s = .next t) :
    t = s ∨ (∃ why, t = refusedAs why s) ∨ t = finish .release (tearDown { s with phase := .released }) := by
  obtain rfl : whenReady (fun s => finish .release (tearDown { s with phase := .released })) s = t := by
    injection hx
  rcases whenReady_cases (fun s => finish .release (tearDown { s with phase := .released })) s with ⟨-, he⟩ | ⟨-, -, he⟩ | ⟨-, he⟩
  · exact .inl he
  · exact .inr (.inl ⟨_, he⟩)
  · exact .inr (.inr he)

/-- The five shadows are those of `s`. -/
structure SameShadows (s t : State) : Prop where
  gpio : t.gpio = s.gpio
  ddrb : t.ddrb = s.ddrb
  displayshift : t.displayshift = s.displayshift
  displaymode : t.displaymode = s.displaymode
  displaycontrol : t.displaycontrol = s.displaycontrol

/-- TEARDOWN writes no shadow, its end included. -/
theorem exec_teardown_frame {s t : State} (hx : exec .teardown s = .next t) : Grown s t ∧ SameShadows s t := by
  rcases exec_teardown_cases hx with rfl | ⟨why, rfl⟩ | rfl
  · exact ⟨grown_refl _, rfl, rfl, rfl, rfl, rfl⟩
  · exact ⟨grown_refused why s, rfl, rfl, rfl, rfl, rfl⟩
  · have hreleased : Grown s { s with phase := .released } :=
      ⟨rfl, rfl, rfl, List.prefix_rfl, List.prefix_rfl⟩
    refine ⟨finish_sat (tearDown_keeps (grown_stable s).toStableTxn (grown_at s) _ hreleased) (grown_end .release), ?_⟩
    have htxn := tearDown_keeps (transacted_stable { s with phase := .released }) (transacted_at _) _ (transacted_refl _)
    have hshadows : Sat (SameShadows s) (tearDown { s with phase := .released }) :=
      sat_imp htxn fun t ⟨e, ds, k, es, ht⟩ => by rw [ht]; exact ⟨rfl, rfl, rfl, rfl, rfl⟩
    refine finish_sat hshadows fun o t h => ?_
    rw [endOperation_release]
    exact ⟨h.gpio, h.ddrb, h.displayshift, h.displaymode, h.displaycontrol⟩

/-! ## An operation that waits -/

/-- What the step of a waiting operation other than INIT leaves of the block. -/
structure Framed (s t : State) : Prop where
  cfg : t.cfg = s.cfg
  phase : t.phase = s.phase
  handle : t.handle = s.handle
  inbox : t.inbox = s.inbox
  result : t.result = s.result
  displaycontrol : t.displaycontrol = s.displaycontrol
  displaymode : t.displaymode = s.displaymode
  displayshift : t.displayshift = s.displayshift

theorem framed_of_sameBlock {s t : State} (h : SameBlock s t) : Framed s t :=
  ⟨h.cfg, h.phase, h.handle, h.inbox, h.result, h.displaycontrol, h.displaymode, h.displayshift⟩

theorem framed_end {s : State} (o : OpOutcome) (t : State) (h : Framed s t) : Framed s (endOperation .plain o t) :=
  ⟨h.cfg, h.phase, h.handle, h.inbox, h.result, h.displaycontrol, h.displaymode, h.displayshift⟩

theorem resumeOperation_framed {p : Poll} (s : State) (hop : p.op = .plain) : Framed s (resumeOperation p s) := by
  have hrun := sat_imp (resume_keeps (sameBlock_stable s) p s (sameBlock_refl s)) fun _ => framed_of_sameBlock
  exact finish_sat hrun (hop ▸ framed_end)

/-- Its writes reach the output and the direction register only. -/
theorem resumeOperation_file (p : Poll) {s : State} (hc : DefaultEncodings s.cfg) (hm : NonSequential s.cfg s.env.mem) (a : Nat)
    (ha : ¬ Touches s.cfg s.cfg.regOut a) (hd : a ≠ s.cfg.regs.dir) :
    memRead a (resumeOperation p s).env.mem = memRead a s.env.mem := by
  have hstable := Deliveries.sameFile_stable hc (U := fun a => ¬ Touches s.cfg s.cfg.regOut a ∧ a ≠ s.cfg.regs.dir) fun _ => id
  have hend := finish_sat (resume_keeps hstable p s ⟨rfl, hm, fun _ _ => rfl⟩) (Deliveries.sameFile_end p.op)
  exact hend.same a ⟨ha, hd⟩

/-- Settles O50: what each change within a run keeps, the run keeps to its end. -/
theorem frameOfResumedAndLifecycle : Obligations.FrameOfResumedAndLifecycle := by
  refine ⟨fun p s t hs hop hstep => ?_, fun addr busid s t hx => ?_, fun s t hx => ?_⟩
  · rw [Acceptance.step_polling hs] at hstep
    cases hstep
    obtain ⟨hcfg, hphase, hhandle, hinbox, hresult, hcontrol, hmode, hshift⟩ := resumeOperation_framed s hop
    exact ⟨hcfg, hphase, hhandle, hinbox, hresult, hcontrol, hmode, hshift, resumeOperation_file p⟩
  · obtain ⟨hcfg, hinbox, hresult, hhist, hout⟩ := exec_init_grown hx
    exact ⟨hcfg, hinbox, hresult, hhist, hout⟩
  · obtain ⟨⟨hcfg, hinbox, hresult, hhist, hout⟩, hgpio, hddrb, hshift, hmode, hcontrol⟩ := exec_teardown_frame hx
    exact ⟨hcfg, hinbox, hresult, hhist, hout, hgpio, hddrb, hshift, hmode, hcontrol⟩

end Sys2Proof.Proofs.ResumedFrame

/-! PROOFS. The write dispatcher (42_write_dispatcher.md): the bound of the poll (R134, R203). -/

namespace Sys2Proof.Proofs.PollBound

open Sys2Proof.Machine Sys2Proof.Safety Sys2Proof.Laws

/-! ## Runs within the bound -/

/-- `t` has the configuration and the outcomes of `s`. -/
structure Kept (s t : State) : Prop where
  cfg : t.cfg = s.cfg
  outcomes : t.outcomes = s.outcomes

theorem kept_stable (s : State) : StableTxn (Kept s) where
  draw t h := ⟨(takeDraw_cfg t).trans h.cfg, (takeDraw_outcomes t).trans h.outcomes⟩
  event _ _ _ h := ⟨h.cfg, h.outcomes⟩

theorem kept_at (s : State) (cfg : Params) (r : Nat) : StableAt (Kept s) cfg r := fun _ _ _ h => ⟨h.cfg, h.outcomes⟩

/-- A run reports nothing itself; it waits below the bound only, and gives up at the bound only (R134, R203). -/
def Bounded (s : State) : Run → Prop
  | .ok t => Kept s t
  | .wait t => Kept s t ∧ PollCountOk t
  | .stop o t => Kept s t ∧ ∀ n, o = .deviceUnresponsive n → s.cfg.pollMax = some n

theorem bounded_andThen {s : State} {r : Run} {f : State → Run} (h : Bounded s r) (hf : ∀ t, Kept s t → Bounded s (f t)) :
    Bounded s (andThen r f) := by
  cases r with
  | ok t => exact hf t h
  | wait t => exact h
  | stop o t => exact h

/-! ## Transactions -/

section

variable {s t : State} (h : Kept s t)

include h

theorem bounded_commError (x : Txn) : Bounded s (.stop (.commError x) t) := ⟨h, fun _ => OpOutcome.noConfusion⟩

theorem busWrite1_bounded (r : Nat) (v : Byte) : Bounded s (busWrite1 r v t) := by
  have hk := busWrite1_keeps (kept_stable s) r v t (kept_at s _ r) h
  unfold busWrite1 at hk ⊢
  split <;> rename_i heq <;> rw [heq] at hk
  · exact hk
  · exact bounded_commError hk _

theorem busWriteChunk_bounded (r : Nat) (bs : List Byte) : Bounded s (busWriteChunk r bs t) := by
  have hk := busWriteChunk_keeps (kept_stable s) r bs t (kept_at s _ r) h
  unfold busWriteChunk at hk ⊢
  split <;> rename_i heq <;> rw [heq] at hk
  · exact hk
  · exact bounded_commError hk _

theorem busRead1_bounded {k : Byte → State → Run} (hk : ∀ b u, Kept s u → Bounded s (k b u)) : Bounded s (busRead1 t k) := by
  have hd := (kept_stable s).draw t h
  unfold busRead1
  split <;> rename_i heq <;> rw [heq] at hd
  · exact hk _ _ ((kept_stable s).event _ _ _ hd)
  · exact bounded_commError ((kept_stable s).event _ _ _ hd) _

end

theorem busWriteBlk_bounded {s t : State} (h : Kept s t) (r : Nat) (bs : List Byte) : Bounded s (busWriteBlk r bs t) := by
  unfold busWriteBlk
  generalize blockChunks bs = cs
  induction cs generalizing t with
  | nil => exact h
  | cons c cs ih => exact bounded_andThen (busWriteChunk_bounded h r c) fun _ => ih

/-! ## The write primitive -/

/-- A poll below its bound: the busy iteration that reaches the bound gives up there, any other waits below it. -/
theorem pollIterate_bounded {s t : State} (p : Poll) (h : Kept s t) (hp : ∀ m, s.cfg.pollMax = some m → p.n < m) :
    Bounded s (pollIterate p t) := by
  refine bounded_andThen (busWrite1_bounded h _ _) fun t ht => busRead1_bounded (t := { t with gpio := p.hi })
    ⟨ht.cfg, ht.outcomes⟩ fun b u hu => bounded_andThen (busWriteBlk_bounded hu _ _) fun w hw => ?_
  have hlow : Kept s { w with gpio := p.lo } := ⟨hw.cfg, hw.outcomes⟩
  split
  · split <;> rename_i hgive <;> rw [PollRuns.pollGivesUp_iff, hw.cfg] at hgive
    · obtain ⟨m, hm, hle⟩ := hgive
      refine ⟨hlow, fun n hn => ?_⟩
      obtain rfl : p.n + 1 = n := OpOutcome.deviceUnresponsive.inj hn
      exact hm.trans (congrArg some (Nat.le_antisymm hle (hp m hm)))
    · refine ⟨⟨hw.cfg, hw.outcomes⟩, fun q m hq hm => ?_⟩
      obtain rfl : { p with n := p.n + 1 } = q := Seq.polling.inj hq
      exact Nat.not_le.1 fun hle => hgive ⟨m, hw.cfg ▸ hm, hle⟩
  · exact busWrite1_bounded (t := { w with gpio := p.lo, ddrb := w.ddrb &&& ~~~w.cfg.busyDir }) ⟨hw.cfg, hw.outcomes⟩ _ _

theorem sendJob_bounded {s t : State} (j : Job) (h : Kept s t) : Bounded s (sendJob j t) := by
  rw [sendJob, sendValues_blocks]
  generalize blockChunks _ = cs
  refine bounded_andThen ?_ fun u hu => ?_
  · induction cs generalizing t with
    | nil => exact h
    | cons c cs ih =>
      exact bounded_andThen (bounded_andThen (busWriteBlk_bounded h _ _) fun u hu => ⟨hu.cfg, hu.outcomes⟩) fun _ => ih
  · unfold rearm
    split
    · exact busWrite1_bounded (t := { u with ddrb := u.ddrb ||| u.cfg.busyDir }) ⟨hu.cfg, hu.outcomes⟩ _ _
    · exact hu

section

variable {s : State} (hw : s.cfg.wellFormed = true)

include hw

/-- POLL_MAX is at least 1 (R6), so a poll begins below it. -/
theorem bound_pos {m : Nat} (hm : s.cfg.pollMax = some m) : 0 < m := by
  refine Nat.pos_of_ne_zero fun h0 => ?_
  subst h0
  simp [Params.wellFormed, hm] at hw

theorem pollIfPending_bounded {t : State} (op : OpKind) (j : Job) (js : List Job) (h : Kept s t) :
    Bounded s (pollIfPending op j js t) := by
  unfold pollIfPending
  split
  · exact bounded_andThen (busWrite1_bounded h _ _) fun u hu =>
      pollIterate_bounded (t := { u with gpio := pollLo t.cfg t.gpio }) _ ⟨hu.cfg, hu.outcomes⟩ fun m => bound_pos hw
  · exact h

theorem runJobs_bounded {t : State} (op : OpKind) (js : List Job) (h : Kept s t) : Bounded s (runJobs op js t) := by
  induction js generalizing t with
  | nil => exact h
  | cons j js ih =>
    exact bounded_andThen (bounded_andThen (pollIfPending_bounded hw op j js h) fun _ => sendJob_bounded j) fun _ => ih

theorem bringUp_bounded {t : State} (h : Kept s t) : Bounded s (bringUp t) := by
  refine bounded_andThen ?_ fun u => runJobs_bounded hw _ _
  refine bounded_andThen (busWrite1_bounded h _ _) fun u hu => bounded_andThen (busWriteBlk_bounded hu _ _) fun v hv => ?_
  exact bounded_andThen (busWrite1_bounded hv _ _) fun w hw => ⟨hw.cfg, hw.outcomes⟩

end

theorem tearDown_bounded {s t : State} (h : Kept s t) : Bounded s (tearDown t) :=
  bounded_andThen (busWrite1_bounded h _ _) fun _ ht => busWriteBlk_bounded ht _ _

/-! ## Every instruction, every step -/

/-- The configuration of `s`, and the bound kept. -/
def KeepsBound (s t : State) : Prop := t.cfg = s.cfg ∧ PollCountOk t ∧ GiveUpOk t

theorem pollCountOk_idle {s : State} (h : s.seq = .idle) : PollCountOk s := fun p m hp => by rw [h] at hp; cases hp

/-- The end of an operation reports a given-up poll with the bound only. -/
theorem endOperation_keepsBound {s t : State} (op : OpKind) (o : OpOutcome) (hg : GiveUpOk s) (h : Kept s t)
    (ho : ∀ n, o = .deviceUnresponsive n → s.cfg.pollMax = some n) : KeepsBound s (endOperation op o t) := by
  refine ⟨by rw [endOperation_cfg, h.cfg], pollCountOk_idle (endOperation_seq op o t), fun n hn => ?_⟩
  rw [endOperation_outcomes, h.outcomes] at hn
  rw [endOperation_cfg, h.cfg]
  rcases List.mem_append.1 hn with hn | hn
  · exact hg n hn
  · exact ho n (List.mem_singleton.1 hn).symm

theorem finish_keepsBound {s : State} {r : Run} (op : OpKind) (hg : GiveUpOk s) (h : Bounded s r) : KeepsBound s (finish op r) := by
  cases r with
  | ok t => exact endOperation_keepsBound op .ok hg h fun _ => OpOutcome.noConfusion
  | wait t =>
    obtain ⟨⟨hcfg, hout⟩, hcount⟩ := h
    exact ⟨hcfg, hcount, by rw [finish_wait, GiveUpOk, hcfg, hout]; exact hg⟩
  | stop o t => exact endOperation_keepsBound op o hg h.1 h.2

/-- A refusal is no report of a poll. -/
theorem refusedAs_keepsBound {s : State} (why : RefuseReason) (hp : PollCountOk s) (hg : GiveUpOk s) :
    KeepsBound s (refusedAs why s) := by
  refine ⟨rfl, hp, fun n hn => ?_⟩
  rcases List.mem_append.1 hn with hn | hn
  · exact hg n hn
  · cases List.mem_singleton.1 hn

theorem exec_keepsBound {i : Instr} {s t : State} (hw : s.cfg.wellFormed = true) (hp : PollCountOk s) (hg : GiveUpOk s)
    (hx : exec i s = .next t) : KeepsBound s t := by
  rcases exec_cases i s t hx with ⟨rfl, -⟩ | ⟨-, why, rfl⟩ | ⟨c, rfl⟩ | ⟨bs, rfl⟩ | ⟨-, -, -, hbus⟩ |
    ⟨-, -, addr, busid, -, -, rfl⟩ | ⟨-, -, rfl⟩ | ⟨-, -, u, js, hu, rfl, -⟩
  · exact ⟨rfl, hp, hg⟩
  · exact refusedAs_keepsBound why hp hg
  · exact ⟨rfl, hp, hg⟩
  · exact ⟨rfl, hp, hg⟩
  · rcases hbus with ⟨r, v, -, rfl⟩ | ⟨r, bs, -, rfl⟩ | rfl
    · exact finish_keepsBound .plain hg (busWrite1_bounded ⟨rfl, rfl⟩ r v)
    · exact finish_keepsBound .plain hg (busWriteBlk_bounded ⟨rfl, rfl⟩ r bs)
    · exact finish_keepsBound .plain hg (busRead1_bounded ⟨rfl, rfl⟩ fun _ _ h => ⟨h.cfg, h.outcomes⟩)
  · exact finish_keepsBound .bringUp hg (bringUp_bounded hw ⟨rfl, rfl⟩)
  · exact finish_keepsBound .release hg (tearDown_bounded ⟨rfl, rfl⟩)
  · obtain ⟨hcfg, -, -, -, -, -, hout⟩ := OperationEnds.prepared_keeps hu
    exact finish_keepsBound .plain hg (runJobs_bounded hw .plain js ⟨hcfg, hout⟩)

theorem resumeOperation_keepsBound {p : Poll} {s : State} (hw : s.cfg.wellFormed = true) (hp : PollCountOk s) (hg : GiveUpOk s)
    (hs : s.seq = .polling p) : KeepsBound s (resumeOperation p s) :=
  finish_keepsBound p.op hg (bounded_andThen
    (bounded_andThen (pollIterate_bounded p ⟨rfl, rfl⟩ fun m => hp p m hs) fun _ => sendJob_bounded p.job)
    fun _ => runJobs_bounded hw p.op p.rest)

/-- Settles O55: only an iteration of a poll waits or gives up, and it compares its count with the bound first. -/
theorem pollBoundKept : Obligations.PollBoundKept := by
  intro s t hw hp hg hstep
  rcases step_cases s t hstep with ⟨p, hs, rfl⟩ | ⟨-, -, rfl⟩ | ⟨p, rest, -, -, ⟨i, -, hx⟩ | ⟨-, rfl⟩⟩
  · exact resumeOperation_keepsBound hw hp hg hs
  · exact ⟨rfl, hp, hg⟩
  · exact exec_keepsBound (s := { s with inbox := rest }) hw hp hg hx
  · rcases rejectPacket_cases p.port { s with inbox := rest } with he | he <;> rw [he]
    · exact ⟨rfl, hp, hg⟩
    · exact refusedAs_keepsBound (s := { s with inbox := rest }) .notAnOperation hp hg

end Sys2Proof.Proofs.PollBound

/-! PROOFS. Bring-up and teardown (43_lifecycle.md): TEARDOWN, completed and failed (R165). -/

namespace Sys2Proof.Proofs.Teardown

open Sys2Proof.Machine Sys2Proof.Safety Sys2Proof.Laws Sys2Proof.Proofs.RunEnds

/-- An admitted TEARDOWN is its two transactions, the instance released before the first. -/
theorem exec_teardown_ready {s : State} (hr : Ready s) :
    exec .teardown s = .next (finish .release (tearDown { s with phase := .released })) :=
  congrArg Host.Outcome.next (whenReady_ready _ s hr)

/-- The two transactions, both completed. -/
theorem tearDown_done {x0 x1 : Byte} {rest : List Draw} {s : State} (hd : DrawsOk [x0, x1] rest s) :
    tearDown s = .ok (wrote (.wb 0 (safeRegs s.cfg)) 0 (safeRegs s.cfg)
      (wrote (.w1 s.cfg.regs.config s.cfg.cfgSeq) s.cfg.regs.config [s.cfg.cfgSeq] s)) := by
  have hsecond := drawsOk_tail hd (wrote_draws (.w1 s.cfg.regs.config s.cfg.cfgSeq) s.cfg.regs.config [s.cfg.cfgSeq] s)
  obtain ⟨hne, hl⟩ := AllowedTransactions.safeRegs_block s.cfg
  rw [tearDown, busWrite1_done (drawsOk_cons hd), andThen_ok, wrote_cfg, busWriteBlk_one 0 _ _ hne hl,
    busWriteChunk_done (drawsOk_cons hsecond)]

theorem tearDown_prompt (s : State) : Prompt (tearDown s) :=
  prompt_andThen (busWrite1_prompt _ _ _) fun _ => busWriteBlk_prompt _ _ _

/-- The two transactions never wait, and whether they complete or fail they change nothing of the block. -/
theorem tearDown_ends (s : State) : Ends (Transacted s) (fun _ => False) (Transacted s) (tearDown s) :=
  ends_of_transacted (tearDown_prompt s)
    (tearDown_keeps (transacted_stable s) (transacted_at s) s (transacted_refl s)) fun _ ht => ⟨ht, ht⟩

/-- However they go, the operation ends after them. -/
theorem tearDown_released (s : State) : ∃ o t, Transacted s t ∧ finish .release (tearDown s) = endOperation .release o t := by
  have hends := tearDown_ends s
  cases hrun : tearDown s with
  | ok t => rw [hrun] at hends; exact ⟨.ok, t, hends, rfl⟩
  | wait t => rw [hrun] at hends; exact hends.elim
  | stop o t => rw [hrun] at hends; exact ⟨o, t, hends.2, rfl⟩

/-- Settles O34: the two transactions change nothing of the block, and the operation ends after them whether they complete or
fail. -/
theorem teardownCompletes : Obligations.TeardownCompletes := by
  refine fun s hr => ⟨fun x0 x1 rest hd => ?_, fun t hx => ?_⟩
  · have hrun := tearDown_done (s := { s with phase := .released }) hd
    rw [exec_teardown_ready hr, hrun, finish_ok, endOperation_release]
    rfl
  · rw [exec_teardown_ready hr] at hx
    obtain ⟨o, u, ⟨e, ds, k, es, rfl⟩, hend⟩ := tearDown_released { s with phase := .released }
    rw [hend, endOperation_release] at hx
    cases hx
    exact ⟨rfl, rfl, rfl, rfl, rfl, rfl, rfl, rfl⟩

end Sys2Proof.Proofs.Teardown

/-! PROOFS. Display control (44_display_control.md): the operations that are one command write (R170 to R187, R191, R192). -/

namespace Sys2Proof.Proofs.DisplayCommands

open Sys2Proof.Machine Sys2Proof.Safety Sys2Proof.Laws Sys2Proof.Proofs.OperationEnds Sys2Proof.Proofs.WritesComplete

/-- WRITE_CMD that is admitted is its one write. -/
theorem exec_writeCmd_ready {s : State} (c : Byte) (hr : Ready s) : exec (.writeCmd c) s = .next (runPlain [cmdJob c] s) :=
  exec_writesOf (.writeCmd c) s s _ rfl hr

/-! ## The operations of a shadow (R170 to R185) -/

/-- Before its command such an operation has changed the mode shadows at most (R191). -/
theorem oneCommand_shadows {i : Instr} {c : Byte} {s s' : State} (h : oneCommand s i = some (c, s')) :
    s' = { s with
      displaycontrol := s'.displaycontrol, displaymode := s'.displaymode, displayshift := s'.displayshift } := by
  cases i <;> cases h <;> rfl

section

variable {i : Instr} {c : Byte} {s s' : State} (h : oneCommand s i = some (c, s'))

include h

theorem oneCommand_cfg : s'.cfg = s.cfg := by rw [oneCommand_shadows h]

theorem oneCommand_ready (hr : Ready s) : Ready s' := by rw [oneCommand_shadows h]; exact hr

theorem oneCommand_inNormal (hn : InNormal s) : InNormal s' := by rw [oneCommand_shadows h]; exact hn

theorem oneCommand_inPending (hp : InPending s) : InPending s' := by rw [oneCommand_shadows h]; exact hp

theorem oneCommand_drawsOk {bytes : List Byte} {rest : List Draw} (hd : DrawsOk bytes rest s) : DrawsOk bytes rest s' := by
  rw [oneCommand_shadows h]; exact hd

/-- With its shadow changed, the operation is WRITE_CMD of its command (R138, R192). -/
theorem exec_oneCommand (hr : Ready s) : exec i s = exec (.writeCmd c) s' := by
  rw [exec_writeCmd_ready c (oneCommand_ready h hr), exec_writesOf i s s' _ (writesOf_oneCommand h) hr]

end

/-- Settles O36: the write of O18, once the shadow is changed. -/
theorem oneCommandOperationsInNormal : Obligations.OneCommandOperationsInNormal := by
  intro i c s s' bytes rest h hr hn hd
  rw [exec_oneCommand h hr, ← oneCommand_cfg h]
  exact writeCmdInNormal c bytes rest s' (oneCommand_ready h hr) (oneCommand_inNormal h hn) (oneCommand_drawsOk h hd)

/-- Settles O37: the write of O19, once the shadow is changed. -/
theorem oneCommandOperationsInPending : Obligations.OneCommandOperationsInPending := by
  intro i c x0 x1 b x3 x4 s s' bytes rest h hr hp hb hd
  rw [exec_oneCommand h hr, ← oneCommand_cfg h]
  exact writeCmdInPending c x0 x1 b x3 x4 bytes rest s' (oneCommand_ready h hr) (oneCommand_inPending h hp) hb
    (oneCommand_drawsOk h hd)

/-! ## The cursor (R186, R187) -/

/-- R187 with the comparison as the rule words it: at or above the line count. -/
theorem clampRow_eq (cfg : Params) (row : Int) :
    clampRow cfg row = if row < 0 then 0 else if (cfg.numLines : Int) ≤ row then cfg.numLines - 1 else row.toNat := by
  have hlast : row > (cfg.numLines : Int) - 1 ↔ (cfg.numLines : Int) ≤ row := by omega
  simp only [clampRow, hlast]

theorem clampRow_of_neg (cfg : Params) {row : Int} (h : row < 0) : clampRow cfg row = clampRow cfg 0 := by
  have hzero : clampRow cfg 0 = 0 := by rw [clampRow_eq]; split_ifs <;> omega
  rw [hzero, clampRow_eq, if_pos h]

theorem clampRow_of_le (cfg : Params) {row : Int} (h : (cfg.numLines : Int) ≤ row) :
    clampRow cfg row = clampRow cfg ((cfg.numLines : Int) - 1) := by
  rw [clampRow_eq, clampRow_eq]; split_ifs <;> omega

/-- NUMLINES is in 1..4 (R6), so the row has an entry in the table of offsets. -/
theorem clampRow_lt_four {cfg : Params} (hw : cfg.wellFormed = true) (row : Int) : clampRow cfg row < 4 := by
  obtain ⟨⟨hlow, hhigh⟩, -⟩ : (1 ≤ cfg.numLines ∧ cfg.numLines ≤ 4) ∧ cfg.pollMax ≠ some 0 := by
    simpa [Params.wellFormed] using hw
  rw [clampRow_eq]; split_ifs <;> omega

/-- SET_CURSOR looks at the row through the clamp only, in every state. -/
theorem exec_setCursor_clamped {col : Nat} {row row' : Int} {s : State} (h : clampRow s.cfg row = clampRow s.cfg row') :
    exec (.setCursor col row) s = exec (.setCursor col row') s := by
  have haddr : ddramAddress s.cfg col row = ddramAddress s.cfg col row' := by rw [ddramAddress, ddramAddress, h]
  simp only [exec, execSetCursor, whenReady, whenIdle, haddr]

section

variable {col a : Nat} {row : Int} {s : State} (ha : ddramAddress s.cfg col row = a)

include ha

/-- Up to 0x7F it is WRITE_CMD of the set-address command, in every state (R186). -/
theorem exec_setCursor_writeCmd (hc : DefaultEncodings s.cfg) (hle : a ≤ 0x7F) :
    exec (.setCursor col row) s = exec (.writeCmd (0x80 ||| BitVec.ofNat 8 a)) s := by
  simp only [exec, execSetCursor, execWriteCmd, whenReady, whenIdle, ha, if_pos hle, setDdramByte, default_cmdSetDdram hc]

theorem exec_setCursor_refused (hr : Ready s) (hlt : 0x7F < a) :
    exec (.setCursor col row) s = .next (refusedAs .columnRange s) := by
  refine congrArg Host.Outcome.next ((whenReady_ready _ s hr).trans (if_neg ?_))
  rw [ha]
  exact Nat.not_le.2 hlt

end

/-- The set-address command never re-arms the poll (R32, R88). -/
theorem setDdram_unpollable {cfg : Params} (hc : DefaultEncodings cfg) (v : Byte) : isPollable cfg (0x80 ||| v) = false :=
  not_pollable hc _ (bit_or _ _ (by decide))

/-- Settles O39: the command write of O18 or O19, or the refusal. -/
theorem setCursorResult : Obligations.SetCursorResult := by
  intro col row s hr hc _ r a
  have ha : ddramAddress s.cfg col row = a := by rw [ddramAddress, clampRow_eq]; rfl
  have hfast := setDdram_unpollable hc (BitVec.ofNat 8 a)
  refine ⟨fun hle hn x rest hd => ?_, fun hle hp x0 x1 b x3 x4 x5 rest hb hd => ?_, exec_setCursor_refused ha hr⟩
  · rw [exec_setCursor_writeCmd ha hc hle]
    exact (writeCmdInNormal _ [x] rest s hr hn hd).1 hfast rfl
  · rw [exec_setCursor_writeCmd ha hc hle]
    exact (writeCmdInPending _ x0 x1 b x3 x4 [x5] rest s hr hp hb hd).1 hfast rfl

/-- The address of a row, the line count given. -/
theorem ddramAddress_of_lines {cfg : Params} {n : Nat} (hn : cfg.numLines = n) (col : Nat) (row : Int) :
    ddramAddress cfg col row = ddramAddress { cfg with numLines := n } col row := by rw [← hn]

/-- Settles O40: the clamp names the row; the rule's examples are its addresses. -/
theorem rowIsClamped : Obligations.RowIsClamped := by
  refine ⟨fun col row s hw => ⟨fun h => exec_setCursor_clamped (clampRow_of_le _ h),
    fun h => exec_setCursor_clamped (clampRow_of_neg _ h), clampRow_lt_four hw row⟩, fun s hc hn => ?_, fun s hc hn => ?_⟩
  · refine ⟨?_, ?_, fun col => exec_setCursor_clamped ?_⟩
    · exact exec_setCursor_writeCmd (a := 0x43) (ddramAddress_of_lines hn 3 7) hc (by decide)
    · exact exec_setCursor_writeCmd (a := 0x03) (ddramAddress_of_lines hn 3 (-2)) hc (by decide)
    · rw [clampRow_of_le s.cfg (by rw [hn]; decide), hn]; rfl
  · refine ⟨?_, ?_, ?_, fun col => exec_setCursor_clamped ?_⟩
    · exact exec_setCursor_writeCmd (a := 0x14) (ddramAddress_of_lines hn 0 2) hc (by decide)
    · exact exec_setCursor_writeCmd (a := 0x54) (ddramAddress_of_lines hn 0 3) hc (by decide)
    · exact exec_setCursor_writeCmd (a := 0x56) (ddramAddress_of_lines hn 2 9) hc (by decide)
    · rw [clampRow_of_le s.cfg (by rw [hn]; decide), hn]; rfl

end Sys2Proof.Proofs.DisplayCommands

/-! PROOFS. Display control (44_display_control.md): the operations of several writes, DEFINE_GLYPH (R188, R189) and WRITE_TEXT
(R190). -/

namespace Sys2Proof.Proofs.GlyphAndText

open Sys2Proof.Machine Sys2Proof.Safety Sys2Proof.Laws Sys2Proof.Proofs.OperationEnds Sys2Proof.Proofs.WritesAtController
  Sys2Proof.Proofs.WritesComplete Sys2Proof.Proofs.DisplayCommands

/-! ## Writes in a row that re-arm no poll -/

theorem sentData_cfg (bs : List Byte) (s : State) : (sentData bs s).cfg = s.cfg := (sentBlocks_keeps _ s).1

section

variable {js : List Job} {s v : State} (hn : InNormal s)

include hn

/-- A command that is not pollable goes before calls that run quietly (R135, R136). -/
theorem ranQuietly_command {c x : Byte} {bytes : List Byte} (hc : isPollable s.cfg c = false)
    (h : RanQuietly js bytes (sentCommand c s) v) : RanQuietly (cmdJob c :: js) (x :: bytes) s v := by
  rw [← sentJob_unpollable hc] at h
  exact .normal (own := [x]) hn (jobTxns_unpollable hc).symm h

/-- A data write before them (R136, R141). -/
theorem ranQuietly_data {bs own bytes : List Byte} (hl : own.length = (bs.length + 7) / 8)
    (h : RanQuietly js bytes (sentData bs s) v) : RanQuietly (dataJob bs :: js) (own ++ bytes) s v := by
  rw [← sentJob_data] at h
  exact .normal hn (hl.trans (jobTxns_data _ bs).symm) h

end

/-- What runs quietly after a poll does so with the poll before it (R131, R133). -/
theorem ranQuietly_polled {j : Job} {js : List Job} {bytes : List Byte} {x0 x1 b x3 x4 : Byte} {s v : State} (hp : InPending s)
    (hb : busyFlag b = false) (h : RanQuietly (j :: js) bytes (polled b s) v) :
    RanQuietly (j :: js) ([x0, x1, b, x3, x4] ++ bytes) s v := by
  cases h with
  | normal _ hl hs => exact .pending hp hb (by rwa [polled_cfg] at hl) hs
  | pending hp' _ _ _ => exact absurd (polled_normal b s) hp'

/-- An operation whose writes run quietly ends `Ok` where they lead (R192, R200). -/
theorem exec_ranQuietly {i : Instr} {js : List Job} {bytes : List Byte} {rest : List Draw} {s v : State} (hr : Ready s)
    (hw : writesOf s i = some (s, js)) (h : RanQuietly js bytes s v) (hd : DrawsOk bytes rest s) :
    exec i s = .next (endedOk v) := by
  rw [exec_writesOf i s s js hw hr, runPlain, runJobs_ranQuietly_done .plain h hd]
  rfl

/-! ## DEFINE_GLYPH -/

theorem glyphJobs_default {cfg : Params} (hc : DefaultEncodings cfg) (slot : Byte) (bm : List Byte) :
    glyphJobs cfg slot bm = [cmdJob (0x40#8 ||| (slot <<< 3)), dataJob bm, cmdJob 0x80] := by
  rw [glyphJobs, setCgramByte, default_cmdSetCgram hc, default_cmdSetDdram hc]
  rfl

/-- Its three writes from NORMAL: the eight bytes are one block (R189). -/
theorem ranQuietly_glyph {slot : Byte} {bm : List Byte} {s : State} (hc : DefaultEncodings s.cfg) (hbm : bm.length = 8)
    (hn : InNormal s) (x0 x1 x2 : Byte) :
    RanQuietly (glyphJobs s.cfg slot bm) [x0, x1, x2] s
      (sentCommand 0x80 (sentData bm (sentCommand (0x40#8 ||| (slot <<< 3)) s))) := by
  have hn1 : InNormal (sentCommand (0x40#8 ||| (slot <<< 3)) s) := sentCommand_normal _ _ hn
  rw [glyphJobs_default hc]
  refine ranQuietly_command hn (not_pollable hc _ (bit_or _ _ (by decide))) ?_
  refine ranQuietly_data (own := [x1]) hn1 (by rw [hbm]; rfl) ?_
  exact ranQuietly_command (sentData_normal bm _ hn1) (by rw [sentData_cfg, sentCommand_cfg]; exact setDdram_unpollable hc 0x00) (.done _)

/-- Settles O41: three writes in a row, the poll before the first if it is pending, or the refusal. -/
theorem defineGlyphResult : Obligations.DefineGlyphResult := by
  intro slot bm s hr hc sent
  have hw (hs : slot.toNat ≤ 7) (hb : bm.length = 8) : writesOf s (.defineGlyph slot bm) = some (s, glyphJobs s.cfg slot bm) :=
    if_pos ⟨hs, hb⟩
  refine ⟨fun hs hb hn x0 x1 x2 rest hd => ?_, fun hs hb hp x0 x1 b x3 x4 x5 x6 x7 rest hbusy hd => ?_, fun h => ?_⟩
  · exact exec_ranQuietly hr (hw hs hb) (ranQuietly_glyph hc hb hn x0 x1 x2) hd
  · have hquiet := ranQuietly_glyph (slot := slot) (s := polled b s) (by rwa [polled_cfg]) hb (polled_normal b s) x5 x6 x7
    rw [polled_cfg] at hquiet
    exact exec_ranQuietly hr (hw hs hb) (ranQuietly_polled hp hbusy hquiet) hd
  · exact congrArg Host.Outcome.next ((whenReady_ready _ s hr).trans (if_neg (by omega)))

/-! ## WRITE_TEXT -/

/-- The lines after the first, from NORMAL: a jump and a data write for each. -/
theorem ranQuietly_laterLines {ls : List (List Byte)} {bytes : List Byte} {s : State} (hc : DefaultEncodings s.cfg)
    (hn : InNormal s) (hl : bytes.length = (ls.map fun m => 1 + (m.length + 7) / 8).sum) :
    RanQuietly (laterLineJobs ls) bytes s (sentLaterLines ls s) := by
  induction ls generalizing bytes s with
  | nil =>
    obtain rfl := List.length_eq_zero_iff.1 hl
    exact .done s
  | cons l ls ih =>
    rw [List.map_cons, List.sum_cons] at hl
    cases bytes with
    | nil => rw [List.length_nil] at hl; omega
    | cons x bytes =>
      rw [List.length_cons] at hl
      have hn1 : InNormal (sentCommand cmdLine2 s) := sentCommand_normal _ _ hn
      rw [← List.take_append_drop ((l.length + 7) / 8) bytes]
      refine ranQuietly_command hn (not_pollable hc _ (by decide)) (ranQuietly_data hn1 ?_ ?_)
      · rw [List.length_take]; omega
      · exact ih (by rwa [sentData_cfg, sentCommand_cfg]) (sentData_normal l _ hn1) (by rw [List.length_drop]; omega)

/-- The writes of a text, given its lines. -/
theorem textJobs_of_lines {cfg : Params} (hc : DefaultEncodings cfg) {text l : List Byte} {ls : List (List Byte)}
    (h : splitLines 0x0A text = l :: ls) : textJobs cfg text = dataJob l :: laterLineJobs ls := by
  rw [textJobs, default_newline hc, h]

/-- The first line and the lines after it, from NORMAL. -/
theorem ranQuietly_lines {l : List Byte} {ls : List (List Byte)} {bytes : List Byte} {s : State} (hc : DefaultEncodings s.cfg)
    (hn : InNormal s) (hl : bytes.length = lineTxns (l :: ls)) :
    RanQuietly (dataJob l :: laterLineJobs ls) bytes s (sentLines (l :: ls) s) := by
  rw [lineTxns] at hl
  rw [← List.take_append_drop ((l.length + 7) / 8) bytes]
  refine ranQuietly_data hn ?_ (ranQuietly_laterLines (by rwa [sentData_cfg]) (sentData_normal l _ hn) ?_)
  · rw [List.length_take]; omega
  · rw [List.length_drop]; omega

/-- Settles O42: the writes of the lines in a row, the poll before the first if it is pending. -/
theorem writeTextResult : Obligations.WriteTextResult := by
  intro text bytes rest s hr hc hl
  obtain ⟨l, ls, hlines⟩ := List.exists_cons_of_ne_nil (splitLines_ne_nil 0x0A text)
  have hw : writesOf s (.writeText text) = some (s, dataJob l :: laterLineJobs ls) := by
    rw [writesOf, textJobs_of_lines hc hlines]
  rw [hlines] at hl ⊢
  refine ⟨fun hn hd => exec_ranQuietly hr hw (ranQuietly_lines hc hn hl) hd, fun hp x0 x1 b x3 x4 hb hd => ?_⟩
  have hquiet := ranQuietly_lines (s := polled b s) (by rwa [polled_cfg]) (polled_normal b s) hl
  exact exec_ranQuietly hr hw (ranQuietly_polled hp hb hquiet) hd

/-! ## The lines of a text -/

theorem splitLines_newline (nl : Byte) (text : List Byte) : splitLines nl (nl :: text) = [] :: splitLines nl text :=
  if_pos rfl

/-- Any other character goes to the head of the first line. -/
theorem splitLines_character {nl b : Byte} (h : b ≠ nl) (text : List Byte) :
    splitLines nl (b :: text) = (splitLines nl text).modifyHead (b :: ·) := by
  obtain ⟨l, ls, hlines⟩ := List.exists_cons_of_ne_nil (splitLines_ne_nil nl text)
  rw [splitLines, if_neg h, hlines]
  rfl

/-- The lines are the library's split at the newline, which joining undoes. -/
theorem splitLines_eq_splitOn (nl : Byte) (text : List Byte) : splitLines nl text = text.splitOn nl := by
  induction text with
  | nil => rw [splitLines, List.splitOn_nil]
  | cons b text ih =>
    rw [List.splitOn_cons_eq_if_modifyHead, ← ih]
    by_cases h : b = nl
    · rw [h, splitLines_newline, if_pos (beq_self_eq_true nl)]
    · rw [splitLines_character h, if_neg (by rwa [beq_iff_eq])]

/-- Each newline begins one more line. -/
theorem splitLines_length (nl : Byte) (text : List Byte) : (splitLines nl text).length = text.count nl + 1 := by
  induction text with
  | nil => rfl
  | cons b text ih =>
    by_cases h : b = nl
    · rw [h, splitLines_newline, List.length_cons, ih, List.count_cons_self]
    · rw [splitLines_character h, List.length_modifyHead, ih, List.count_cons_of_ne h]

theorem newline_not_mem_splitLines (nl : Byte) (text : List Byte) : ∀ l ∈ splitLines nl text, nl ∉ l := by
  induction text with
  | nil => simp [splitLines]
  | cons b text ih =>
    by_cases h : b = nl
    · rw [h, splitLines_newline]
      exact List.forall_mem_cons.2 ⟨List.not_mem_nil, ih⟩
    · obtain ⟨l, ls, hlines⟩ := List.exists_cons_of_ne_nil (splitLines_ne_nil nl text)
      rw [hlines] at ih
      obtain ⟨hfirst, hlater⟩ := List.forall_mem_cons.1 ih
      rw [splitLines_character h, hlines]
      exact List.forall_mem_cons.2 ⟨List.not_mem_cons_of_ne_of_not_mem (Ne.symm h) hfirst, hlater⟩

/-- Settles O43: one line more for each newline, and joining undoes the library's split. -/
theorem linesOfAText : Obligations.LinesOfAText := by
  refine fun nl text => ⟨splitLines_length nl text, newline_not_mem_splitLines nl text, ?_⟩
  rw [splitLines_eq_splitOn, List.intercalate_splitOn]

end Sys2Proof.Proofs.GlyphAndText

/-! PROOFS. Exceptions (60_exceptions.md): a poll with no bound runs on as long as the device is busy (R204). -/

namespace Sys2Proof.Proofs.UnboundedPoll

open Sys2Proof.Machine Sys2Proof.Safety Sys2Proof.Laws Sys2Proof.Proofs.PollExit

/-- The draws of the first of several busy iterations, and what is left for the others. -/
theorem drawsOk_busyDraws_cons {b : Byte} {bs : List Byte} {rest : List Draw} {s : State}
    (hd : s.draws = busyDraws (b :: bs) ++ rest) : DrawsOk [0x00, b, 0x00] (busyDraws bs ++ rest) s := by
  rw [DrawsOk, hd]; simp [busyDraws]

/-- Settles O25: by induction on the busy reads, a step each (`step_busy`), from any count of iterations. -/
theorem unboundedPollRunsOn : Obligations.UnboundedPollRunsOn := by
  intro bs rest p s hs hmax hbs hd
  induction bs generalizing p s with
  | nil => exact ⟨s, rfl, hs, rfl, rfl, rfl, by simp⟩
  | cons b bs ih =>
    obtain ⟨hb, hbs⟩ := List.forall_mem_cons.1 hbs
    have hfirst := drawsOk_busyDraws_cons hd
    obtain ⟨t, hrun, hseq, hout, hinbox, hddrb, hhist⟩ := ih { p with n := p.n + 1 }
      { iterated p.lo p.hi b s with seq := .polling { p with n := p.n + 1 } } rfl (by simpa using hmax) hbs
      (by simp [hd, busyDraws])
    have hcount : p.n + 1 + bs.length = p.n + (b :: bs).length := by rw [List.length_cons]; omega
    refine ⟨t, (run_step (step_busy hs hb hmax hfirst) _).trans hrun, ?_, by simpa using hout, by simpa using hinbox,
      by simpa using hddrb, by simpa using hhist⟩
    rw [hseq, hcount]

end Sys2Proof.Proofs.UnboundedPoll

/-! PROOFS. Reset and hazards (70_reset_and_hazards.md): the four nybbles that bring the controller's interface to a known state (R233,
R247). -/

namespace Sys2Proof.Proofs.Resynchronisation

open Sys2Proof.Machine Sys2Proof.Safety Sys2Proof.Laws

/-! ## The interface: its width and the half-byte phase -/

/-- The 8-bit interface, on a byte boundary. -/
def Wide (l : Lcd) : Prop := l.eight = true ∧ l.half = .even

/-- The 4-bit interface, on a byte boundary. -/
def Narrow (l : Lcd) : Prop := l.eight = false ∧ l.half = .even

/-- The 4-bit interface, the command nybble 3 latched as the high half of a byte. -/
def LatchedThree (l : Lcd) : Prop := l.eight = false ∧ l.half = .wroteHigh false 3

theorem narrow_or_wide {l : Lcd} (h : l.half = .even) : Narrow l ∨ Wide l := by
  cases he : l.eight with
  | false => exact .inl ⟨he, h⟩
  | true => exact .inr ⟨he, h⟩

theorem lcdTake_half (rs b7 b6 b5 b4 b3 b2 b1 b0 : Bool) (l : Lcd) : (lcdTake rs b7 b6 b5 b4 b3 b2 b1 b0 l).half = l.half := by
  obtain ⟨v, hv, -⟩ := lcdTake_some_byte rs b7 b6 b5 b4 b3 b2 b1 b0 l
  rw [hv]; exact (received_keeps _ _ _).1

theorem lcdMixedPair_half (k : Nat) (l : Lcd) : (lcdMixedPair k l).half = l.half := by
  rcases lcdMixedPair_cases k l with h | ⟨rs, v, h⟩ <;> rw [h]
  exact (received_keeps _ _ _).1

/-- A function set chooses the width by its bit 4, whatever its bits below it are (R91). -/
theorem lcdTake_functionSet (d b3 b2 b1 b0 : Bool) (l : Lcd) : (lcdTake false false false true d b3 b2 b1 b0 l).eight = d := rfl

/-- With the 8-bit interface the nybble alone is a function set: 3 keeps the width (R233). -/
theorem lcdNybble_three_wide (k : Nat) {l : Lcd} (h : l.eight = true) : Wide (lcdNybble k false 3 l) := by
  rw [lcdNybble, if_pos h]
  exact ⟨lcdTake_functionSet .., lcdTake_half ..⟩

/-- And 2 selects the 4-bit interface. -/
theorem lcdNybble_two_wide (k : Nat) {l : Lcd} (h : l.eight = true) : Narrow (lcdNybble k false 2 l) := by
  rw [lcdNybble, if_pos h]
  exact ⟨lcdTake_functionSet .., lcdTake_half ..⟩

theorem lcdNybble_three_narrow (k : Nat) {l : Lcd} (h : Narrow l) : LatchedThree (lcdNybble k false 3 l) := by
  obtain ⟨he, hh⟩ := h
  rw [lcdNybble, if_neg (by simp [he]), hh]
  exact ⟨he, rfl⟩

/-- Two nybbles 3 are the byte 33H, a function set to the 8-bit interface. -/
theorem lcdNybble_three_latched (k : Nat) {l : Lcd} (h : LatchedThree l) : Wide (lcdNybble k false 3 l) := by
  obtain ⟨he, hh⟩ := h
  rw [lcdNybble, if_neg (by simp [he]), hh]
  exact ⟨lcdTake_functionSet .., lcdTake_half ..⟩

/-! ## The nybbles 3, 3, 3, 2 (R233) -/

/-- From any state the first 3 ends a pair, begins one or is a whole access; what the pair was decides the width. -/
theorem lcdNybble_three_any (k : Nat) (l : Lcd) :
    Narrow (lcdNybble k false 3 l) ∨ Wide (lcdNybble k false 3 l) ∨ LatchedThree (lcdNybble k false 3 l) := by
  cases he : l.eight with
  | true => exact .inr (.inl (lcdNybble_three_wide k he))
  | false =>
    have hends (h : (lcdNybble k false 3 l).half = .even) : Narrow (lcdNybble k false 3 l) ∨ Wide (lcdNybble k false 3 l) ∨
        LatchedThree (lcdNybble k false 3 l) := (narrow_or_wide h).imp_right .inl
    cases hh : l.half with
    | even => exact .inr (.inr (lcdNybble_three_narrow k ⟨he, hh⟩))
    | wroteHigh rs n => exact hends (by rw [lcdNybble, if_neg (by simp [he]), hh]; exact lcdTake_half ..)
    | readHigh => exact hends (by rw [lcdNybble, if_neg (by simp [he]), hh]; exact lcdMixedPair_half ..)

theorem lcdNybble_three_second (k : Nat) {l : Lcd} (h : Narrow l ∨ Wide l ∨ LatchedThree l) :
    Wide (lcdNybble k false 3 l) ∨ LatchedThree (lcdNybble k false 3 l) := by
  rcases h with h | h | h
  · exact .inr (lcdNybble_three_narrow k h)
  · exact .inl (lcdNybble_three_wide k h.1)
  · exact .inl (lcdNybble_three_latched k h)

theorem lcdNybble_three_third (k : Nat) {l : Lcd} (h : Wide l ∨ LatchedThree l) : Wide (lcdNybble k false 3 l) := by
  rcases h with h | h
  · exact lcdNybble_three_wide k h.1
  · exact lcdNybble_three_latched k h

/-- Settles O32: two nybbles 3 leave one of two states, the third the 8-bit interface, and 2 the 4-bit one. -/
theorem initNybblesResynchronise : Obligations.InitNybblesResynchronise := by
  intro l k1 k2 k3 k4 k5 k6 v u
  have hthird := lcdNybble_three_third k3 (lcdNybble_three_second k2 (lcdNybble_three_any k1 l))
  obtain ⟨height, hhalf⟩ : Narrow u := lcdNybble_two_wide k4 hthird.1
  refine ⟨height, hhalf, ?_⟩
  rw [lcdNybble_byte k5 k6 false v u height hhalf]
  exact (received_keeps false v u).2.1

end Sys2Proof.Proofs.Resynchronisation

/-! PROOFS. Reset and hazards (70_reset_and_hazards.md): INIT at the display's side, from any state of the expander and the
controller (R161, R231 to R233). -/

namespace Sys2Proof.Proofs.BringUpAtController

open Sys2Proof.Machine Sys2Proof.Safety Sys2Proof.Laws Sys2Proof.Proofs.BringUp Sys2Proof.Proofs.ShadowsAtController
  Sys2Proof.Proofs.WritesAtController Sys2Proof.Proofs.Resynchronisation

/-! ## The register load (R161) -/

/-- The register load makes every register known: it is sequential after its first write, whatever the mode was. -/
theorem loaded_file (h : Handle) {s : State} (hc : DefaultEncodings s.cfg) :
    memRead 5 (loaded h s).env.mem = some 0x20 ∧
      ∀ r, r ≤ 10 → r ≠ 5 → memRead r (loaded h s).env.mem = (safeRegs s.cfg)[r]? := by
  have hregs := default_regs hc
  have hgo : s.cfg.regs.gpio < s.cfg.regs.olat := by rw [hregs]; decide
  have henv : (loaded h s).env = deliver s.cfg 5 [0x20] (deliver s.cfg 0 (safeRegs s.cfg) (deliver s.cfg 5 [0x00] s.env)) := by
    show deliver _ s.cfg.regs.config _ (deliver _ _ _ (deliver _ s.cfg.regs.config _ _)) = _
    rw [hregs, default_cfgSeq hc, default_cfgNonseq hc]; rfl
  have hseq : Sequential s.cfg (deliver s.cfg 5 [0x00] s.env).mem :=
    ⟨0x00, by rw [deliver_one_mem _ _ _ _ (by decide), hregs]; exact memRead_storeFile_same .., by simp⟩
  rw [henv, deliver_one_mem _ _ _ _ (by decide)]
  refine ⟨memRead_storeFile_same .., fun r hr hne => ?_⟩
  have huntouched : ¬ Touches s.cfg 5 r := by
    rintro (h | ⟨h, -⟩)
    · exact hne h
    · rw [hregs] at h; exact absurd h (by decide)
  obtain ⟨hbytes, -⟩ := Deliveries.sequentialBlockFillsRegisters s.cfg 0 (safeRegs s.cfg) _ hseq (by simp [safeRegs]) hgo
  have hk : r < (safeRegs s.cfg).length := Nat.lt_succ_of_le hr
  rw [memRead_storeFile_other _ _ _ _ _ huntouched, List.getElem?_eq_getElem hk, ← hbytes r hk, Nat.zero_add]

/-- The bytes of the register load after the first are zero (R167). -/
theorem safeRegs_rest (cfg : Params) {r : Nat} (h0 : r ≠ 0) (hr : r ≤ 10) : (safeRegs cfg)[r]? = some 0x00 := by
  obtain ⟨r, rfl⟩ := Nat.exists_eq_succ_of_ne_zero h0
  rw [safeRegs, List.getElem?_cons_succ, List.getElem?_replicate, if_pos (by omega)]

/-- The expander as completed operations leave it, with the direction value `d`; the controller is in any state. -/
structure Driven (d : Byte) (s : State) : Prop where
  default : DefaultEncodings s.cfg
  ddrb : s.ddrb = d
  pins : ∃ old, Pins s.cfg d old s.env ∧ old &&& strobe = 0

theorem loaded_driven (h : Handle) {s : State} (hc : DefaultEncodings s.cfg) : Driven 0x02 (loaded h s) := by
  obtain ⟨hconfig, hothers⟩ := loaded_file h hc
  refine ⟨hc, default_ddrInit hc, 0x00, ⟨⟨0x20, ?_, ?_⟩, ?_, ?_⟩, by decide⟩
  · rw [loaded_cfg, default_regs hc]; exact hconfig
  · rw [loaded_cfg, default_cfgNonseq hc]; decide
  · rw [hothers 0 (by decide) (by decide), safeRegs, default_ddrInit hc]; rfl
  · rw [hothers 10 (by decide) (by decide), safeRegs_rest _ (by decide) (by decide)]

/-! ## The first poll and the first two bytes, the controller in any state -/

/-- A poll that is over at its first read leaves every pin an output and the strobe low. -/
theorem polled_driven (b : Byte) {s : State} (h : Driven 0x02 s) : Driven 0x00 (polled b s) := by
  obtain ⟨hc, hd, old, hpins, -⟩ := h
  have hcleared : s.ddrb &&& ~~~s.cfg.busyDir = 0x00 := by rw [hd, default_busyDir hc]; decide
  have hlow : pollLo s.cfg s.gpio &&& strobe = 0 := by rcases pollLo_cases hc s.gpio with h | h <;> rw [h] <;> decide
  obtain ⟨p1, -⟩ := deliverOut_pins hc [pollLo s.cfg s.gpio] hpins
  obtain ⟨p2, -⟩ := deliverOut_pins hc [pollLo s.cfg s.gpio ||| strobe] p1
  obtain ⟨p3, -⟩ := deliverOut_pins hc [pollLo s.cfg s.gpio, pollLo s.cfg s.gpio ||| strobe, pollLo s.cfg s.gpio] p2
  obtain ⟨p4, -⟩ := deliverDir_pins hc 0x00 p3
  refine ⟨by rwa [polled_cfg], by rw [polled_ddrb, hcleared], pollLo s.cfg s.gpio, ?_, hlow⟩
  rw [polled_cfg, polled_env b rfl, hcleared]
  exact p4

/-- The two nybbles of a command byte, as the controller latches them from `l` on. -/
def tookNybbles (c : Byte) (l : Lcd) : Lcd :=
  lcdNybble (l.samples + 1) false (lowNybble c)
    { lcdNybble l.samples false (highNybble c) { l with samples := l.samples + 1 } with samples := l.samples + 2 }

/-- A command byte at the pins is two nybbles to the controller, whatever it makes of them (R62, R123). -/
theorem sentCommand_nybbles (c : Byte) {s : State} (h : Driven 0x00 s) :
    Driven 0x00 (sentCommand c s) ∧ (sentCommand c s).env.lcd = tookNybbles c s.env.lcd := by
  obtain ⟨hc, hd, old, hpins, hold⟩ := h
  obtain ⟨hm, hrs⟩ := sharedMask_bits s.gpio
  have hlow (n : Nybble) : ((s.gpio &&& shared) ||| place4 .straight n) &&& strobe = 0 := by
    obtain ⟨-, -, -, -, hlow⟩ := pins_of_quad _ n 0 hm; exact hlow
  obtain ⟨hpins', hlcd⟩ := deliverOut_pins hc (enc s.cfg (s.gpio &&& shared) c) hpins
  have henv : (sentCommand c s).env = deliver s.cfg s.cfg.regOut (enc s.cfg (s.gpio &&& shared) c) s.env := rfl
  refine ⟨⟨by simpa using hc, by simpa using hd, _, by rw [sentCommand_cfg, henv]; exact hpins', ?_⟩, ?_⟩
  · rw [lastByte_enc, default_order hc]; exact hlow _
  · rw [henv, hlcd, enc, default_order hc]
    simp only [pinsRun]
    rw [pins_rise _ _ old _ _ hold, pins_fall hc _ _ _ hm, pins_rise _ _ _ _ _ (hlow _), pins_fall hc _ _ _ hm, hrs,
      lcdNybble_samples]
    rfl

/-- The bytes 33H and 32H are the nybbles 3, 3, 3, 2 (R162, R233). -/
theorem tookNybbles_resynchronise (l : Lcd) : Narrow (tookNybbles 0x32 (tookNybbles 0x33 l)) := by
  have hfirst := lcdNybble_three_any l.samples { l with samples := l.samples + 1 }
  have hsecond : Wide (tookNybbles 0x33 l) ∨ LatchedThree (tookNybbles 0x33 l) := lcdNybble_three_second _ hfirst
  have hthird := lcdNybble_three_third (tookNybbles 0x33 l).samples
    (l := { tookNybbles 0x33 l with samples := (tookNybbles 0x33 l).samples + 1 }) hsecond
  exact lcdNybble_two_wide _ hthird.1

/-- The first two bytes bring the controller in step. -/
theorem resynchronised {s : State} (h : Driven 0x00 s) : Synced (sentCommand 0x32 (sentCommand 0x33 s)) := by
  obtain ⟨h1, hlcd1⟩ := sentCommand_nybbles 0x33 h
  obtain ⟨⟨hc, hd, hpins⟩, hlcd2⟩ := sentCommand_nybbles 0x32 h1
  refine (synced_iff hc).2 ⟨hd ▸ hpins, .inl hd, ?_⟩
  rw [hlcd2, hlcd1]
  exact tookNybbles_resynchronise s.env.lcd

/-! ## The commands after them -/

/-- `l'` is `l` after the command `cmd`, but for the log of bytes and the count of samples. -/
def Commanded (cmd : LcdCmd) (l l' : Lcd) : Prop :=
  ∃ log k, l' = lcdCommand cmd { l with received := log, samples := k, exec := .fixed }

/-- The block and the controller in step, no poll pending. -/
structure InStep (s : State) : Prop where
  default : DefaultEncodings s.cfg
  synced : Synced s
  normal : InNormal s

section

variable {c : Byte} {cmd : LcdCmd} {s : State} (h : InStep s) (hcmd : decodeCmd8 c = some cmd)

include h hcmd

theorem sentCommand_commanded (h8 : ∀ n f y, cmd ≠ .functionSet true n f y) :
    InStep (sentCommand c s) ∧ Commanded cmd s.env.lcd (sentCommand c s).env.lcd := by
  obtain ⟨hc, hS, hn⟩ := h
  obtain ⟨hlcd, hsync⟩ := sentCommand_received hc hS hn c
  have hnarrow n f y : decodeCmd8 c ≠ some (.functionSet true n f y) := fun h => h8 n f y (Option.some.inj (hcmd.symm.trans h))
  exact ⟨⟨by simpa using hc, hsync hnarrow, sentCommand_normal c s hn⟩, _, _, hlcd.trans (received_command hcmd _)⟩

theorem sentPollable_commanded (hp : isPollable s.cfg c = true) :
    Synced (sentPollable c s) ∧ Commanded cmd s.env.lcd (sentPollable c s).env.lcd := by
  obtain ⟨hc, hS, hn⟩ := h
  obtain ⟨hlcd, hsync⟩ := sentJob_command_received hc hS hn c
  rw [WritesComplete.sentJob_pollable hp] at hlcd hsync
  exact ⟨hsync (pollable_not_functionSet hc hp), _, _, hlcd.trans (received_command hcmd _)⟩

end

/-- The first four bytes, after the register load: in step, two lines, 5x8 font. -/
theorem firstBurst_controller (b : Byte) {s : State} (h : Driven 0x02 s) :
    Synced (firstBurst b s) ∧ (firstBurst b s).env.lcd.twoLine = true ∧ (firstBurst b s).env.lcd.font10 = false := by
  have hc := h.default
  have hinStep : InStep (sentCommand 0x32 (sentCommand 0x33 (polled b s))) :=
    ⟨by simpa using hc, resynchronised (polled_driven b h), sentCommand_normal _ _ (sentCommand_normal _ _ (polled_normal b s))⟩
  obtain ⟨h1, _, _, hlcd1⟩ := sentCommand_commanded (c := 0x28) (cmd := .functionSet false true false 0) hinStep rfl (by simp)
  obtain ⟨hS, _, _, hlcd2⟩ := sentPollable_commanded (c := 0x01) (cmd := .clear) h1 rfl
    (pollable_of_default h1.default (.inl rfl))
  refine ⟨hS, ?_⟩
  rw [firstBurst, burst, hlcd2, hlcd1]
  exact ⟨rfl, rfl⟩

/-- A pollable command leaves its last output byte, which is the one cached, in the output register and the latch (R55, R136). -/
theorem sentPollable_output (c : Byte) {s : State} (hc : DefaultEncodings s.cfg) (hS : Synced s) :
    memRead 9 (sentPollable c s).env.mem = some (sentPollable c s).gpio ∧
      memRead 10 (sentPollable c s).env.mem = some (sentPollable c s).gpio := by
  obtain ⟨⟨old, hpins, -⟩, -⟩ := (synced_iff hc).1 hS
  obtain ⟨hquad, -⟩ := deliverOut_pins hc (enc s.cfg (s.gpio &&& shared) c) hpins
  obtain ⟨hend, -⟩ := deliverDir_pins hc (s.ddrb ||| s.cfg.busyDir) hquad
  have henv : (sentPollable c s).env = deliver s.cfg s.cfg.regs.dir [s.ddrb ||| s.cfg.busyDir]
      (deliver s.cfg s.cfg.regOut (enc s.cfg (s.gpio &&& shared) c) s.env) := rfl
  refine ⟨?_, henv ▸ hend.latch⟩
  obtain ⟨hlast, -⟩ := Deliveries.nonSequentialBlockStaysInRegister s.cfg 9
    ((enc s.cfg (s.gpio &&& shared) c).take 3) (sentPollable c s).gpio s.env hpins.mode (by decide)
  have hdir : ¬ Touches s.cfg s.cfg.regs.dir 9 := by simp [Touches, default_regs hc, regNumbersDefault]
  rw [henv, deliver_nonseq_other _ _ _ _ hquad.mode (by rw [default_regs hc]; decide) 9 hdir, default_regOut hc]
  exact hlast

/-- The commands of the second burst, one after the other: the shift, the entry mode, the display control and home. -/
theorem secondBurst_controller (b : Byte) {s : State} (hc : DefaultEncodings s.cfg) (hS : Synced s) (hp : InPending s) :
    let t := burst b 0x14 0x06 0x0C 0x02 s
    Synced t ∧ (memRead 9 t.env.mem = some t.gpio ∧ memRead 10 t.env.mem = some t.gpio) ∧ ∃ log k, t.env.lcd =
      { s.env.lcd with
        moveDisplay := false, moveRight := true, entryLeft := true, entryShift := false, displayOn := true, cursorOn := false,
        blinkOn := false, exec := .variable, received := log, samples := k } := by
  intro t
  obtain ⟨hlcd0, hS0⟩ := polled_synced hc hS hp b
  have hinStep : InStep (polled b s) := ⟨by simpa using hc, hS0, polled_normal b s⟩
  obtain ⟨h1, _, _, hlcd1⟩ := sentCommand_commanded (c := 0x14) (cmd := .shift false true 0) hinStep rfl (by simp)
  obtain ⟨h2, _, _, hlcd2⟩ := sentCommand_commanded (c := 0x06) (cmd := .entryMode true false) h1 rfl (by simp)
  obtain ⟨h3, _, _, hlcd3⟩ := sentCommand_commanded (c := 0x0C) (cmd := .displayControl true false false) h2 rfl (by simp)
  obtain ⟨hS4, log, k, hlcd4⟩ := sentPollable_commanded (c := 0x02) (cmd := .home false) h3 rfl
    (pollable_of_default h3.default (.inr rfl))
  refine ⟨hS4, sentPollable_output 0x02 h3.default h3.synced, log, k, ?_⟩
  show (sentPollable 0x02 _).env.lcd = _
  rw [hlcd4, hlcd3, hlcd2, hlcd1, hlcd0]
  rfl

/-! ## The whole of INIT -/

/-- After the register load and both bursts: the direction register, the output register and the latch as the shadows say, and
the controller in step with the modes of R162. -/
theorem bothBursts_controller (b1 b2 : Byte) (h : Handle) {s : State} (hc : DefaultEncodings s.cfg) :
    let t := bothBursts b1 b2 (loaded h s)
    (memRead 0 t.env.mem = some 0x02 ∧ memRead 9 t.env.mem = some 0x04 ∧ memRead 10 t.env.mem = some 0x04) ∧ Synced t ∧
      ∃ l : Lcd, l.twoLine = true ∧ l.font10 = false ∧ t.env.lcd =
        { l with
          moveDisplay := false, moveRight := true, entryLeft := true, entryShift := false, displayOn := true, cursorOn := false,
          blinkOn := false, exec := .variable } := by
  intro t
  have hfirst := sentFrom_firstBurst b1 h hc
  have hboth := sentFrom_bothBursts b1 b2 h hc
  have hc1 : DefaultEncodings (firstBurst b1 (loaded h s)).cfg := by rw [sentFrom_cfg hfirst]; exact hc
  have hct : DefaultEncodings t.cfg := by rw [sentFrom_cfg hboth]; exact hc
  obtain ⟨hgpio, hddrb⟩ : t.gpio = 0x04 ∧ t.ddrb = 0x02 := by
    obtain ⟨e, he⟩ := hboth
    rw [show t = _ from he]; exact ⟨rfl, rfl⟩
  obtain ⟨hsync1, hlines, hfont⟩ := firstBurst_controller b1 (loaded_driven h hc)
  obtain ⟨hsync, ⟨h9, h10⟩, log, k, hlcd⟩ :=
    secondBurst_controller b2 hc1 hsync1 (sentFrom_pending (s := loaded h s) hc hfirst)
  obtain ⟨⟨old, hpins, -⟩, -⟩ := (synced_iff hct).1 hsync
  exact ⟨⟨hddrb ▸ hpins.dir, hgpio ▸ h9, hgpio ▸ h10⟩, hsync,
    { (firstBurst b1 (loaded h s)).env.lcd with received := log, samples := k }, hlines, hfont, hlcd⟩

/-- The polls and the commands leave registers 1 to 8 as they were (R51, R116). -/
theorem bothBursts_file {b1 b2 : Byte} {bytes : List Byte} {rest : List Draw} {s : State} (h : Handle)
    (hc : DefaultEncodings s.cfg) (hd : DrawsOk bytes rest s) (hlen : bytes.length = 23) (h1 : bytes[5]? = some b1)
    (h2 : bytes[15]? = some b2) (hb1 : busyFlag b1 = false) (hb2 : busyFlag b2 = false) {r : Nat} (h0 : r ≠ 0) (hr : r ≤ 8) :
    memRead r (bothBursts b1 b2 (loaded h s)).env.mem = memRead r (loaded h s).env.mem := by
  have hrun := bringUp_done h hc hd hlen h1 h2 hb1 hb2
  rw [bringUp, registerLoad_done h (by omega) hd, andThen_ok] at hrun
  obtain ⟨old, hpins, -⟩ := (loaded_driven h hc).pins
  have huntouched : ∀ a, a = r → ¬ Touches s.cfg s.cfg.regOut a ∧ a ≠ s.cfg.regs.dir := by
    rintro a rfl
    rw [Touches, default_regOut hc, default_regs hc]
    simp only [regNumbersDefault]
    omega
  have hkept := runJobs_keeps (Deliveries.sameFile_stable (s := loaded h s) hc huntouched) .bringUp (bringUpJobs (loaded h s))
    (loaded h s) ⟨rfl, hpins.mode, fun _ _ => rfl⟩
  rw [hrun] at hkept
  exact hkept.same r rfl

/-- Settles O31: the register load, the burst that brings the controller in step, and the burst in step. -/
theorem initBringsUpAnyEnvironment : Obligations.InitBringsUpAnyEnvironment := by
  intro addr busid bytes b1 b2 rest s t hs hp hc ha hd hlen h1 h2 hb1 hb2 hx
  rw [Acceptance.exec_init_accepted busid hs hp ha, bringUp_done _ hc hd hlen h1 h2 hb1 hb2, finish_ok] at hx
  injection hx with ht
  generalize (⟨addr.setWidth 7, busid⟩ : Handle) = h at ht
  obtain ⟨hconfig, hloaded⟩ := loaded_file h hc
  have hkept {r : Nat} (h0 : r ≠ 0) (hr : r ≤ 8) := bothBursts_file h hc hd hlen h1 h2 hb1 hb2 h0 hr
  have hcfg := sentFrom_cfg (sentFrom_bothBursts b1 b2 h hc)
  obtain ⟨⟨h0, h9, h10⟩, hsync, l, hlines, hfont, hlcd⟩ := bothBursts_controller b1 b2 h hc
  have holat : (bothBursts b1 b2 (loaded h s)).cfg.regs.olat = 10 := by rw [hcfg, loaded_cfg, default_regs hc]; rfl
  have ⟨_, _, _, _, height, hhalf⟩ := hsync
  subst ht
  rw [endOperation_env, endOperation_cfg]
  refine ⟨h0, (hkept (by decide) (by decide)).trans hconfig, h9, fun r hr hr0 hr5 => ?_, h10, latch_known (holat ▸ h10), hsync,
    height, hhalf, ?_⟩
  · rw [hkept hr0 hr, hloaded r (by omega) hr5, safeRegs_rest _ hr0 (by omega)]
  · rw [hlcd]; exact ⟨rfl, hlines, hfont, rfl, rfl, rfl, rfl, rfl, rfl, rfl⟩

end Sys2Proof.Proofs.BringUpAtController
